-- ==== Sys2Proof/Word.lean ====
section
/-! DEFINITION. The word types of the block: a register (10_state.md R31), a window byte (20_memory.md R70),
a byte offset in the register space (30_encoding.md R117) and the 24-bit argument of a command word (R100). -/

namespace Sys2Proof

/-- A 32-bit register, datum, command word or header word. -/
abbrev Word := BitVec 32

/-- A byte of the window. -/
abbrev Byte := BitVec 8

/-- A byte offset in the 4 KiB register space. -/
abbrev Offset := BitVec 12

end Sys2Proof
end

