-- ==== Sys2Proof/Syntax.lean ====
section
/-! DEFINITION. The instructions of the block, one constructor per row of opcode_table.json; the operations as they
stand on the wires (a command word, a bus write, a bus read); the registers of the map of 10_state.md R31. -/

namespace Sys2Proof

/-- One constructor per row of opcode_table.json. The first eight are commands, whose meaning is the engine's
completion step (40_window_port.md R145). The rest are bus operations of the host (30_encoding.md R117); a bus write
carries its whole 32-bit datum, the bits its rule ignores included. -/
inductive Instr where
  /-- NOP (44_control.md R290). -/
  | nop
  /-- RESET (44_control.md R291). -/
  | reset
  /-- DECODE (42_header_decoder.md R224). -/
  | decode
  /-- COMPARE (42_header_decoder.md R225). -/
  | compare
  /-- ID3 (41_id3_skipper.md R182). -/
  | id3
  /-- SCAN, SCAN hold (43_sync_scanner.md R250). -/
  | scan (hold : Bool)
  /-- TRAILER, TRAILER cut (41_id3_skipper.md R185). -/
  | trailer (cut : Bool)
  /-- CONSUME cnt (40_window_port.md R151). -/
  | consume (cnt : BitVec 24)
  /-- PUSH, `WR DATA_IN, d` (40_window_port.md R142). -/
  | push (d : Word)
  /-- SET_EOF, `WR CTRL, d` (40_window_port.md R143). -/
  | setEof (d : Word)
  /-- CLEAR_ERR, `WR ERR, d` (40_window_port.md R144). -/
  | clearErr (d : Word)
  /-- ISSUE, `WR CMD, d` (40_window_port.md R145). -/
  | issue (d : Word)
  /-- SET_HDR, `WR HDR_IN, d` (40_window_port.md R146). -/
  | setHdr (d : Word)
  /-- SET_HDR2, `WR HDR_IN2, d` (40_window_port.md R147). -/
  | setHdr2 (d : Word)
  /-- SET_RADDR, `WR WIN_RADDR, d` (40_window_port.md R148). -/
  | setRaddr (d : Word)
  /-- PEEK, `RD WIN_RDATA` (40_window_port.md R150). -/
  | peek
  /-- READ, `RD off` for every offset but WIN_RDATA's, the error offsets included (40_window_port.md R149). -/
  | read (off : Offset)
  deriving DecidableEq, Repr

/-- An operation as it stands on the wires: the command word the engine executes (30_encoding.md R100), or a bus
operation `WR(off, d)` or `RD(off)` (R117). -/
inductive OpWord where
  | cmd (w : Word)
  | wr (off : Offset) (d : Word)
  | rd (off : Offset)
  deriving DecidableEq, Repr

/-- Whether an instruction is a command of the engine (30_encoding.md R101) or a bus operation (R117). -/
def Instr.isCommand : Instr → Bool
  | .nop | .reset | .decode | .compare | .id3 | .scan _ | .trailer _ | .consume _ => true
  | .push _ | .setEof _ | .clearErr _ | .issue _ | .setHdr _ | .setHdr2 _ | .setRaddr _ | .peek | .read _ => false

/-- The registers of the map of 10_state.md R31. -/
inductive Reg where
  | id | ctrl | status | err | cmd | dataIn | winLen | winCap | winRaddr | winRdata | totalLo | totalHi
  | freeFmt | foundCount | popCount | hdrIn | hdrIn2 | hdrRaw | hdrInfo | hdrBitrate | hdrFreq | hdrLen
  | scanOff | scanLen | scanPosLo | scanPosHi | id3Hdr | id3Size | id3Remain | trlInfo | trlLenLo | trlLenHi
  deriving DecidableEq, Repr

end Sys2Proof
end

