-- ==== Sys2Proof/WellFormed.lean ====
section
/-! DEFINITION. Well-formed instructions. Every operand value of every instruction is legal, but for one: READ is
"every register except WIN_RDATA" (40_window_port.md R149), whose offset is PEEK's. -/

namespace Sys2Proof

/-- Well-formedness: READ does not take PEEK's offset 0x024 (40_window_port.md R149, R150). -/
def Instr.wf : Instr → Bool
  | .read off => off != 0x024#12
  | .nop | .reset | .decode | .compare | .id3 | .scan _ | .trailer _ | .consume _ | .push _ | .setEof _ | .clearErr _
  | .issue _ | .setHdr _ | .setHdr2 _ | .setRaddr _ | .peek => true

end Sys2Proof
end

