-- ==== Sys2Proof/Decode.lean ====
section
/-! DEFINITION. The decoder: command words (30_encoding.md R100–R105) and bus operations (R117, 10_state.md R31), total
and rejecting by name; the encoder, written from the same tables; and the numbering of opcode_table.json. -/

namespace Sys2Proof

/-- Why an operation is no instruction. -/
inductive DecodeError where
  /-- OP 0x08–0xFF (30_encoding.md R103). -/
  | reservedOp
  /-- A nonzero ARG bit that must be 0 (30_encoding.md R104). -/
  | reservedArg
  /-- A write to a read-only register (10_state.md R62). -/
  | readOnlyWrite
  /-- A write at 0x080–0xFFF (10_state.md R62). -/
  | unmappedWrite
  /-- A write at an offset that is not a multiple of 4 (10_state.md R62). -/
  | misalignedWrite
  deriving DecidableEq, Repr

/-- What the decoder answers. -/
inductive Decoded where
  | instr (i : Instr)
  | bad (e : DecodeError)
  deriving DecidableEq, Repr

/-- The OP field of a command word (30_encoding.md R100). -/
def opField (w : Word) : BitVec 8 := w.extractLsb' 0 8

/-- The ARG field of a command word (30_encoding.md R100). -/
def argField (w : Word) : BitVec 24 := w.extractLsb' 8 24

/-- A command without an argument: ARG must be 0 (30_encoding.md R102, R104). -/
def withoutArg (arg : BitVec 24) (i : Instr) : Decoded :=
  if arg = 0#24 then .instr i else .bad .reservedArg

/-- A command whose ARG is one bit: ARG[23:1] must be 0 (30_encoding.md R102, R104). -/
def withFlagArg (arg : BitVec 24) (i : Bool → Instr) : Decoded :=
  if arg.extractLsb' 1 23 = 0#23 then .instr (i (arg.getLsbD 0)) else .bad .reservedArg

/-- `decode_cmd(w)` (30_encoding.md R105). -/
def decodeCmd (w : Word) : Decoded :=
  let op := opField w
  let arg := argField w
  if op = 0x00#8 then withoutArg arg .nop
  else if op = 0x01#8 then withoutArg arg .reset
  else if op = 0x02#8 then withoutArg arg .decode
  else if op = 0x03#8 then withoutArg arg .compare
  else if op = 0x04#8 then withoutArg arg .id3
  else if op = 0x05#8 then withFlagArg arg .scan
  else if op = 0x06#8 then withFlagArg arg .trailer
  else if op = 0x07#8 then .instr (.consume arg)
  else .bad .reservedOp

/-- A register's offset in the map of 10_state.md R31. -/
def Reg.offset : Reg → Offset
  | .id => 0x000#12 | .ctrl => 0x004#12 | .status => 0x008#12 | .err => 0x00C#12
  | .cmd => 0x010#12 | .dataIn => 0x014#12 | .winLen => 0x018#12 | .winCap => 0x01C#12
  | .winRaddr => 0x020#12 | .winRdata => 0x024#12 | .totalLo => 0x028#12 | .totalHi => 0x02C#12
  | .freeFmt => 0x030#12 | .foundCount => 0x034#12 | .popCount => 0x038#12 | .hdrIn => 0x03C#12
  | .hdrIn2 => 0x040#12 | .hdrRaw => 0x044#12 | .hdrInfo => 0x048#12 | .hdrBitrate => 0x04C#12
  | .hdrFreq => 0x050#12 | .hdrLen => 0x054#12 | .scanOff => 0x058#12 | .scanLen => 0x05C#12
  | .scanPosLo => 0x060#12 | .scanPosHi => 0x064#12 | .id3Hdr => 0x068#12 | .id3Size => 0x06C#12
  | .id3Remain => 0x070#12 | .trlInfo => 0x074#12 | .trlLenLo => 0x078#12 | .trlLenHi => 0x07C#12

/-- The registers in the order of their offsets. -/
def Reg.all : List Reg :=
  [.id, .ctrl, .status, .err, .cmd, .dataIn, .winLen, .winCap, .winRaddr, .winRdata, .totalLo, .totalHi,
    .freeFmt, .foundCount, .popCount, .hdrIn] ++
  [.hdrIn2, .hdrRaw, .hdrInfo, .hdrBitrate, .hdrFreq, .hdrLen, .scanOff, .scanLen, .scanPosLo, .scanPosHi,
    .id3Hdr, .id3Size, .id3Remain, .trlInfo, .trlLenLo, .trlLenHi]

/-- The register at an offset; none at an unmapped or misaligned one (10_state.md R31, R62). -/
def Reg.ofOffset (off : Offset) : Option Reg :=
  Reg.all.find? fun r => r.offset == off

/-- A bus write decoded by its register (30_encoding.md R117, 10_state.md R31, R62). -/
def decodeWrite (off : Offset) (d : Word) : Decoded :=
  match Reg.ofOffset off with
  | some .ctrl => .instr (.setEof d)
  | some .err => .instr (.clearErr d)
  | some .cmd => .instr (.issue d)
  | some .dataIn => .instr (.push d)
  | some .winRaddr => .instr (.setRaddr d)
  | some .hdrIn => .instr (.setHdr d)
  | some .hdrIn2 => .instr (.setHdr2 d)
  | some _ => .bad .readOnlyWrite
  | none => if off.extractLsb' 0 2 = 0#2 then .bad .unmappedWrite else .bad .misalignedWrite

/-- A bus read: PEEK at WIN_RDATA's offset, READ at every other (40_window_port.md R149, R150). -/
def decodeRead (off : Offset) : Decoded :=
  if off = Reg.winRdata.offset then .instr .peek else .instr (.read off)

/-- The decoder of operations. -/
def decode : OpWord → Decoded
  | .cmd w => decodeCmd w
  | .wr off d => decodeWrite off d
  | .rd off => decodeRead off

/-- The command word of OP and ARG (30_encoding.md R100). -/
def cmdWord (op : BitVec 8) (arg : BitVec 24) : Word := arg ++ op

/-- The encoder: an instruction's command word (30_encoding.md R101, R102) or bus operation (R117). -/
def encode : Instr → OpWord
  | .nop => .cmd (cmdWord 0x00#8 0#24)
  | .reset => .cmd (cmdWord 0x01#8 0#24)
  | .decode => .cmd (cmdWord 0x02#8 0#24)
  | .compare => .cmd (cmdWord 0x03#8 0#24)
  | .id3 => .cmd (cmdWord 0x04#8 0#24)
  | .scan hold => .cmd (cmdWord 0x05#8 ((BitVec.ofBool hold).setWidth 24))
  | .trailer cut => .cmd (cmdWord 0x06#8 ((BitVec.ofBool cut).setWidth 24))
  | .consume cnt => .cmd (cmdWord 0x07#8 cnt)
  | .push d => .wr Reg.dataIn.offset d
  | .setEof d => .wr Reg.ctrl.offset d
  | .clearErr d => .wr Reg.err.offset d
  | .issue d => .wr Reg.cmd.offset d
  | .setHdr d => .wr Reg.hdrIn.offset d
  | .setHdr2 d => .wr Reg.hdrIn2.offset d
  | .setRaddr d => .wr Reg.winRaddr.offset d
  | .peek => .rd Reg.winRdata.offset
  | .read off => .rd off

/-- An instruction of the decoder's answer, if it is one. -/
def Decoded.toOption : Decoded → Option Instr
  | .instr i => some i
  | .bad _ => none

/-- The operation whose bits are `w` as opcode_table.json numbers a row of `nbits` bits. The rows of 12 bits (16 in
whole bytes) and the row of no bits (READ) are bus operations at offset `w`, a write where the offset is one of the
table's BUS_WR rows, with a datum of 0; every other row is a command word. None where `w` does not fit
(DESIGN CHOICE, log 10: safe). -/
def tableOp (nbits w : Nat) : Option OpWord :=
  if nbits = 0 ∨ (8 < nbits ∧ nbits ≤ 16) then
    if w < 4096 then
      match decodeWrite (BitVec.ofNat 12 w) 0#32 with
      | .instr _ => some (.wr (BitVec.ofNat 12 w) 0#32)
      | .bad _ => some (.rd (BitVec.ofNat 12 w))
    else none
  else if w < 4294967296 then some (.cmd (BitVec.ofNat 32 w))
  else none

/-- The instruction the decoder reads from a word of opcode_table.json. -/
def decodeTableWord (nbits w : Nat) : Option Instr :=
  (tableOp nbits w).bind fun o => (decode o).toOption

end Sys2Proof
end

