-- ==== Sys2Proof/Config.lean ====
section
/-! DEFINITION. The implementation parameters of 00_scope.md R6: the fixed ones as constants, the OPEN ones as the
fields of `Config`, with the reference configuration. A state carries its `Config` in a field that no step writes, so
that a statement over every state is a statement over every parameter. -/

namespace Sys2Proof

/-- `ID_VALUE` (00_scope.md R6, 10_state.md R33). -/
def idValue : Word := 0x4D465344#32

/-- `MAX_FRAME_SYNC_MATCHES` (00_scope.md R6). -/
def maxFrameSyncMatches : Nat := 10

/-- `MAX_FREE_FORMAT_FRAME_SIZE` (00_scope.md R6). -/
def maxFreeFormatFrameSize : Nat := 2304

/-- `HDR_SIZE` (00_scope.md R6). -/
def hdrSize : Nat := 4

/-- `ID3V2_HDR_SIZE` (00_scope.md R6). -/
def id3v2HdrSize : Nat := 10

/-- BITRATE_TABLE: one row per (MPEG1 or LSF, layer), in kbps, its entries those of bitrate index 1 … 14
(42_header_decoder.md R215, R216). -/
structure BitrateTable where
  mpeg1Layer1 : List Nat
  mpeg1Layer2 : List Nat
  mpeg1Layer3 : List Nat
  lsfLayer1 : List Nat
  lsfLayer2 : List Nat
  lsfLayer3 : List Nat
  deriving DecidableEq, Repr

/-- FREQ_TABLE: one row per version, in Hz, its entries those of sample-rate index 0 … 2 (42_header_decoder.md R217). -/
structure FreqTable where
  mpeg1 : List Nat
  mpeg2 : List Nat
  mpeg25 : List Nat
  deriving DecidableEq, Repr

/-- The OPEN parameters of 00_scope.md R6 (MAX_LATENCY apart, on which no rule depends: log 16). -/
structure Config where
  winCap : Nat
  bitrateTable : BitrateTable
  freqTable : FreqTable
  apeFooterLen : Nat
  apeSizeOffset : Nat
  apeHeaderAdjust : Nat
  mfsdBase : Nat
  deriving DecidableEq, Repr

/-- The default BITRATE_TABLE of 42_header_decoder.md R216. -/
def defaultBitrateTable : BitrateTable where
  mpeg1Layer1 := [32, 64, 96, 128, 160, 192, 224, 256, 288, 320, 352, 384, 416, 448]
  mpeg1Layer2 := [32, 48, 56, 64, 80, 96, 112, 128, 160, 192, 224, 256, 320, 384]
  mpeg1Layer3 := [32, 40, 48, 56, 64, 80, 96, 112, 128, 160, 192, 224, 256, 320]
  lsfLayer1 := [32, 48, 56, 64, 80, 96, 112, 128, 144, 160, 176, 192, 224, 256]
  lsfLayer2 := [8, 16, 24, 32, 40, 48, 56, 64, 80, 96, 112, 128, 144, 160]
  lsfLayer3 := [8, 16, 24, 32, 40, 48, 56, 64, 80, 96, 112, 128, 144, 160]

/-- The default FREQ_TABLE of 42_header_decoder.md R217. -/
def defaultFreqTable : FreqTable where
  mpeg1 := [44100, 48000, 32000]
  mpeg2 := [22050, 24000, 16000]
  mpeg25 := [11025, 12000, 8000]

/-- The reference configuration of 00_scope.md R6: every default of the table there. MFSD_BASE has no default:
DESIGN CHOICE 0 (log 4), unsafe for a statement that needs a particular base. -/
def Config.reference : Config where
  winCap := 16384
  bitrateTable := defaultBitrateTable
  freqTable := defaultFreqTable
  apeFooterLen := 32
  apeSizeOffset := 12
  apeHeaderAdjust := 0
  mfsdBase := 0

end Sys2Proof
end

