-- ==== Sys2Proof/Machine/State.lean ====
section
/-! DEFINITION. The state: every element of the tuple of 10_state.md R30 under its own name, the parameters, and the
two fields of the model's own (what the outside will do, and what the last bus read returned). -/

namespace Sys2Proof.Machine

/-- The decode registers (10_state.md R49–R53). -/
structure DecodeRegs where
  raw : Word
  info : BitVec 24
  bitrate : BitVec 16
  freq : BitVec 16
  framelen : BitVec 16
  samples : BitVec 16
  deriving DecidableEq, Repr

/-- The scan registers: where the last accepted frame started, its length and stream position (10_state.md R54–R56). -/
structure ScanRegs where
  off : BitVec 24
  len : BitVec 16
  pos : BitVec 64
  deriving DecidableEq, Repr

/-- The ID3v2 state (10_state.md R30, R57–R59). -/
structure Id3Regs where
  checked : Bool
  present : Bool
  ver : Byte
  rev : Byte
  flags : Byte
  size : BitVec 28
  skipRemain : BitVec 28
  deriving DecidableEq, Repr

/-- The trailer registers (10_state.md R60, R61). -/
structure TrailerRegs where
  v1 : Bool
  ext : Bool
  ape : Bool
  len : BitVec 64
  deriving DecidableEq, Repr

/-- Something the outside does next: a host access at a system address, the engine's turn, or a hardware reset
(20_memory.md R83, R84, 70_reset_and_hazards.md R340; DESIGN CHOICE, log 1). -/
inductive Event where
  | wr (addr : Nat) (d : Word)
  | rd (addr : Nat)
  | engine
  | hardwareReset
  deriving DecidableEq, Repr

/-- The state. `cfg` holds the parameters, which no step writes (log 4). `agenda` (log 1) and `rdata` (log 3) are the
model's own. Every other field is an element of 10_state.md R30. -/
structure State where
  cfg : Config
  agenda : List Event
  rdata : Word
  win : List Byte
  eof : Bool
  busy : Bool
  pending : Word
  res : BitVec 4
  cmp : Bool
  err : BitVec 6
  cmdLast : Word
  hdrIn : Word
  hdrIn2 : Word
  winRaddr : BitVec 24
  totalParsed : BitVec 64
  freeFmt : BitVec 16
  foundCount : BitVec 32
  popCount : BitVec 24
  dec : DecodeRegs
  scan : ScanRegs
  id3 : Id3Regs
  trl : TrailerRegs
  deriving DecidableEq, Repr

/-- Why the machine stops. -/
inductive Fault where
  /-- Raised by the step where the engine's turn finds busy = 1 and a pending word that is no command. The spec gives
  no such state: ISSUE latches legal words only (40_window_port.md R145). Safe: no run reaches it (log 9). -/
  | illegalPending
  deriving DecidableEq, Repr

/-- Why an instruction has no meaning. -/
inductive Refusal where
  /-- Raised by an arm of `exec` whose instruction has no meaning yet. Safe. No arm raises it. -/
  | notModelled (mnemonic : String)
  deriving DecidableEq, Repr

/-- The state right after reset (70_reset_and_hazards.md R341), in the reference configuration (00_scope.md R6).
DESIGN CHOICE: an empty agenda (log 1), `rdata` 0 (log 3). -/
def State.reset : State where
  cfg := Config.reference
  agenda := []
  rdata := 0#32
  win := []
  eof := false
  busy := false
  pending := 0#32
  res := 0#4
  cmp := false
  err := 0#6
  cmdLast := 0#32
  hdrIn := 0#32
  hdrIn2 := 0#32
  winRaddr := 0#24
  totalParsed := 0#64
  freeFmt := 0#16
  foundCount := 0#32
  popCount := 0#24
  dec := { raw := 0#32, info := 0#24, bitrate := 0#16, freq := 0#16, framelen := 0#16, samples := 0#16 }
  scan := { off := 0#24, len := 0#16, pos := 0#64 }
  id3 := { checked := false, present := false, ver := 0#8, rev := 0#8, flags := 0#8, size := 0#28, skipRemain := 0#28 }
  trl := { v1 := false, ext := false, ape := false, len := 0#64 }

/-- What the step is to do: carry out an operation, take a hardware reset, or nothing. -/
inductive Fetched where
  | op (o : OpWord)
  | hardwareReset
  | idle
  deriving DecidableEq, Repr

/-- The result codes of 60_exceptions.md R301. -/
inductive ResultCode where
  | none | done | needMore | found | errCmd | errState
  deriving DecidableEq, Repr

/-- The sticky error bits of 60_exceptions.md R302. -/
inductive ErrBit where
  | ovf | pushEof | busyWr | badCmd | state | badAddr
  deriving DecidableEq, Repr

/-- A command under way: the state so far and `popped`, the count local to one command (20_memory.md R73). -/
structure Run where
  st : State
  popped : Nat
  deriving DecidableEq, Repr

end Sys2Proof.Machine
end

