-- ==== Sys2Proof/Machine/Flags.lean ====
section
/-! DEFINITION. Result codes (60_exceptions.md R301), error bits (R302) and the STATUS word (10_state.md R35). -/

namespace Sys2Proof.Machine

/-- A result code's value (60_exceptions.md R301). -/
def ResultCode.code : ResultCode → BitVec 4
  | .none => 0#4
  | .done => 1#4
  | .needMore => 2#4
  | .found => 3#4
  | .errCmd => 4#4
  | .errState => 5#4

/-- An error bit's place in `err` (60_exceptions.md R302). -/
def ErrBit.mask : ErrBit → BitVec 6
  | .ovf => 0b000001#6
  | .pushEof => 0b000010#6
  | .busyWr => 0b000100#6
  | .badCmd => 0b001000#6
  | .state => 0b010000#6
  | .badAddr => 0b100000#6

/-- STATUS.FULL: n = WIN_CAP (10_state.md R35). -/
def full (s : State) : Bool := s.win.length == s.cfg.winCap

/-- STATUS.EMPTY: n = 0 (10_state.md R35). -/
def empty (s : State) : Bool := s.win.length == 0

/-- STATUS.SKIP_ACTIVE: skip_remain ≠ 0 (10_state.md R35). -/
def skipActive (s : State) : Bool := s.id3.skipRemain != 0#28

/-- STATUS.ERR_ANY: err ≠ 0 (10_state.md R35). -/
def errAny (s : State) : Bool := s.err != 0#6

/-- The STATUS register, bit 31 first (10_state.md R35). -/
def statusWord (s : State) : Word :=
  0#19 ++ BitVec.ofBool (errAny s) ++ BitVec.ofBool s.cmp ++ BitVec.ofBool (skipActive s)
    ++ BitVec.ofBool s.id3.present ++ BitVec.ofBool s.id3.checked ++ s.res
    ++ BitVec.ofBool (empty s) ++ BitVec.ofBool (full s) ++ BitVec.ofBool s.eof ++ BitVec.ofBool s.busy

/-- Sets a sticky error bit (60_exceptions.md R302, R313). -/
def raise (b : ErrBit) (s : State) : State := { s with err := s.err ||| b.mask }

end Sys2Proof.Machine
end

