-- ==== Sys2Proof/Machine/Operands.lean ====
section
/-! DEFINITION. What operations read: window bytes and multi-byte window values (20_memory.md R75–R77), and the value
of every register of the map (10_state.md R31–R61). -/

namespace Sys2Proof.Machine

/-- Window byte W[j], and 0 at j ≥ n, which is what the read port gives there (40_window_port.md R150). -/
def byteAt (w : List Byte) (j : Nat) : Byte := w.getD j 0#8

/-- The k window bytes W[j] … W[j+k−1]. -/
def slice (w : List Byte) (j k : Nat) : List Byte := (w.drop j).take k

/-- The big-endian value of bytes (20_memory.md R75). -/
def bigEndian (bs : List Byte) : Nat := bs.foldl (fun v b => v * 256 + b.toNat) 0

/-- The little-endian value of bytes (20_memory.md R77). -/
def littleEndian (bs : List Byte) : Nat := bs.foldr (fun b v => b.toNat + 256 * v) 0

/-- `MemRead(j, k)` (20_memory.md R75), used where j + k ≤ n. -/
def memRead (w : List Byte) (j k : Nat) : Nat := bigEndian (slice w j k)

/-- `hdr(j)`, the header word at window offset j (20_memory.md R75). -/
def hdr (w : List Byte) (j : Nat) : Word := BitVec.ofNat 32 (memRead w j hdrSize)

/-- `LE32(j)` (00_scope.md R10, 20_memory.md R77), used where j + 4 ≤ n. -/
def le32 (w : List Byte) (j : Nat) : Nat := littleEndian (slice w j 4)

/-- The low seven bits of a byte: the top bit is masked, not checked (30_encoding.md R113). -/
def low7 (b : Byte) : BitVec 7 := b.extractLsb' 0 7

/-- Synchsafe assembly: four 7-bit groups, big-endian (20_memory.md R76, 30_encoding.md R113). -/
def synchsafe (b6 b7 b8 b9 : Byte) : BitVec 28 := low7 b6 ++ low7 b7 ++ low7 b8 ++ low7 b9

/-- The WIN_RDATA register (10_state.md R42, 40_window_port.md R150). -/
def winRdata (s : State) : Word :=
  if s.winRaddr.toNat < s.win.length then (byteAt s.win s.winRaddr.toNat).setWidth 32 else 0#32

/-- The ID3_HDR register (10_state.md R57). -/
def id3HdrWord (r : Id3Regs) : Word := 0#8 ++ r.flags ++ r.rev ++ r.ver

/-- The TRL_INFO register (10_state.md R60). -/
def trlInfoWord (r : TrailerRegs) : Word := 0#29 ++ BitVec.ofBool r.ape ++ BitVec.ofBool r.ext ++ BitVec.ofBool r.v1

/-- The value a read of each register returns (10_state.md R33–R61; DATA_IN reads 0, R38). -/
def readReg (s : State) : Reg → Word
  | .id => idValue
  | .ctrl => (BitVec.ofBool s.eof).setWidth 32
  | .status => statusWord s
  | .err => s.err.setWidth 32
  | .cmd => s.cmdLast
  | .dataIn => 0#32
  | .winLen => (BitVec.ofNat 24 s.win.length).setWidth 32
  | .winCap => (BitVec.ofNat 24 s.cfg.winCap).setWidth 32
  | .winRaddr => s.winRaddr.setWidth 32
  | .winRdata => winRdata s
  | .totalLo => s.totalParsed.extractLsb' 0 32
  | .totalHi => s.totalParsed.extractLsb' 32 32
  | .freeFmt => s.freeFmt.setWidth 32
  | .foundCount => s.foundCount
  | .popCount => s.popCount.setWidth 32
  | .hdrIn => s.hdrIn
  | .hdrIn2 => s.hdrIn2
  | .hdrRaw => s.dec.raw
  | .hdrInfo => s.dec.info.setWidth 32
  | .hdrBitrate => s.dec.bitrate.setWidth 32
  | .hdrFreq => s.dec.freq.setWidth 32
  | .hdrLen => s.dec.samples ++ s.dec.framelen
  | .scanOff => s.scan.off.setWidth 32
  | .scanLen => s.scan.len.setWidth 32
  | .scanPosLo => s.scan.pos.extractLsb' 0 32
  | .scanPosHi => s.scan.pos.extractLsb' 32 32
  | .id3Hdr => id3HdrWord s.id3
  | .id3Size => s.id3.size.setWidth 32
  | .id3Remain => s.id3.skipRemain.setWidth 32
  | .trlInfo => trlInfoWord s.trl
  | .trlLenLo => s.trl.len.extractLsb' 0 32
  | .trlLenHi => s.trl.len.extractLsb' 32 32

end Sys2Proof.Machine
end

