-- ==== Sys2Proof/Machine/Ops.lean ====
section
/-! DEFINITION. The operations the meanings share: the window's Push, Pop and CutTail (20_memory.md R72–R74), the
completion step's parts (40_window_port.md R145), reset (70_reset_and_hazards.md R340, R341), and fetching what the step
is to do. The block has no exception (60_exceptions.md R300): `raise` (Flags.lean), `Run.fail` and `badOperation` are
what stands in its place. -/

namespace Sys2Proof.Machine

/-- The outcome of one step. -/
abbrev Result := Host.Outcome State Fault Refusal

/-- The window's form: at most WIN_CAP bytes (20_memory.md R70). -/
def Memory.wf (cap : Nat) (w : List Byte) : Bool := decide (w.length ≤ cap)

/-- `Push(b)` (20_memory.md R72). -/
def push (b : Byte) (s : State) : State := { s with win := s.win ++ [b] }

/-- `Pop(k)`, with k ≤ n (20_memory.md R73). -/
def Run.pop (k : Nat) (r : Run) : Run where
  st := { r.st with win := r.st.win.drop k, totalParsed := r.st.totalParsed + BitVec.ofNat 64 k }
  popped := r.popped + k

/-- `CutTail(k)`, with k ≤ n (20_memory.md R74). -/
def Run.cutTail (k : Nat) (r : Run) : Run :=
  { r with st := { r.st with win := r.st.win.take (r.st.win.length - k) } }

/-- The start of a completion step: `popped <- 0` (40_window_port.md R145). -/
def Run.start (s : State) : Run := { st := s, popped := 0 }

/-- Writes the result code, the command's last act: the first half of `finish(code)` (00_scope.md R10). -/
def Run.finish (c : ResultCode) (r : Run) : Run := { r with st := { r.st with res := c.code } }

/-- `fail(ERR_STATE, STATE)`, the one failure a command can have (00_scope.md R10, 60_exceptions.md R304). -/
def Run.fail (r : Run) : Run := { r with st := { raise .state r.st with res := ResultCode.errState.code } }

/-- The end of a completion step: `pop_count <- popped` and `busy <- 0` (40_window_port.md R145). -/
def Run.complete (r : Run) : State := { r.st with popCount := BitVec.ofNat 24 r.popped, busy := false }

/-- A completion step: a command's rule between the step's start and its end (40_window_port.md R145). -/
def completion (rule : Run → Run) (s : State) : Result := .next (rule (Run.start s)).complete

/-- A busy-gated bus write (40_window_port.md R141, 60_exceptions.md R307). -/
def busyGated (effect : State → State) (s : State) : Result :=
  if s.busy then .next (raise .busyWr s) else .next (effect s)

/-- The reset state of every element of 10_state.md R30 (70_reset_and_hazards.md R341). The parameters, what the
outside will do and what it last read are no elements, and stay (log 14). -/
def resetState (s : State) : State :=
  { State.reset with cfg := s.cfg, agenda := s.agenda, rdata := s.rdata }

/-- What an operation that is no instruction does. A write to a read-only, unmapped or misaligned offset is ignored and
sets ERR.BAD_ADDR, busy or not (10_state.md R62, 60_exceptions.md R308). A pending word that is no command cannot arise
(40_window_port.md R145): a named fault (log 9). -/
def badOperation (e : DecodeError) (s : State) : Result :=
  match e with
  | .readOnlyWrite | .unmappedWrite | .misalignedWrite => .next (raise .badAddr s)
  | .reservedOp | .reservedArg => .fault .illegalPending

/-- The register-space offset of a system address: the 4 KiB from MFSD_BASE on (20_memory.md R82). -/
def offsetOf (cfg : Config) (addr : Nat) : Option Offset :=
  if cfg.mfsdBase ≤ addr ∧ addr < cfg.mfsdBase + 4096 then some (BitVec.ofNat 12 (addr - cfg.mfsdBase)) else none

/-- The system address of a register-space offset (20_memory.md R82). -/
def addressOf (cfg : Config) (off : Offset) : Nat := cfg.mfsdBase + off.toNat

/-- The engine's turn: the pending command if there is one, else no step (20_memory.md R84, 60_exceptions.md R318). -/
def engineTurn (s : State) : Fetched := if s.busy then .op (.cmd s.pending) else .idle

/-- What an event is to this block. An access outside its register space does not reach it (log 5). -/
def Event.fetched (s : State) : Event → Fetched
  | .wr addr d => match offsetOf s.cfg addr with
    | some off => .op (.wr off d)
    | none => .idle
  | .rd addr => match offsetOf s.cfg addr with
    | some off => .op (.rd off)
    | none => .idle
  | .engine => engineTurn s
  | .hardwareReset => .hardwareReset

/-- The next thing to do and the state once it is taken off the agenda. With no event left a pending command completes,
and an idle block waits (20_memory.md R84, 70_reset_and_hazards.md R343; DESIGN CHOICE, log 1). -/
def fetch (s : State) : Fetched × State :=
  match s.agenda with
  | [] => (engineTurn s, s)
  | e :: rest => (e.fetched s, { s with agenda := rest })

end Sys2Proof.Machine
end

