-- ==== Sys2Proof/Machine/Control.lean ====
section
/-! DEFINITION. The control commands (44_control.md). -/

namespace Sys2Proof.Machine

/-- NOP (44_control.md R290). -/
def execNop (s : State) : Result := completion (Run.finish .done) s

/-- RESET (44_control.md R291): every element of 10_state.md R30 at its reset value. -/
def execReset (s : State) : Result := .next (resetState s)

end Sys2Proof.Machine
end

