-- ==== Sys2Proof/Machine/Header.lean ====
section
/-! DEFINITION. The pure functions of the frame header decoder (42_header_decoder.md R210–R223), total over all header
words. -/

namespace Sys2Proof.Machine.Hdr

/-! Field extraction (42_header_decoder.md R210, 30_encoding.md R106). -/

def sync (H : Word) : BitVec 11 := H.extractLsb' 21 11
def ver (H : Word) : BitVec 2 := H.extractLsb' 19 2
def lay (H : Word) : BitVec 2 := H.extractLsb' 17 2
def prot (H : Word) : BitVec 1 := H.extractLsb' 16 1
def bri (H : Word) : BitVec 4 := H.extractLsb' 12 4
def sri (H : Word) : BitVec 2 := H.extractLsb' 10 2
def pad (H : Word) : BitVec 1 := H.extractLsb' 9 1
def priv (H : Word) : BitVec 1 := H.extractLsb' 8 1
def mode (H : Word) : BitVec 2 := H.extractLsb' 6 2
def modext (H : Word) : BitVec 2 := H.extractLsb' 4 2
def copyBit (H : Word) : BitVec 1 := H.extractLsb' 3 1
def orig (H : Word) : BitVec 1 := H.extractLsb' 2 1
def emph (H : Word) : BitVec 2 := H.extractLsb' 0 2

/-- MPEG 1 (42_header_decoder.md R211). -/
def mpeg1 (H : Word) : Bool := ver H == 0b11#2

/-- Lower sampling frequencies (42_header_decoder.md R211). -/
def lsf (H : Word) : Bool := ver H != 0b11#2

/-- The layer number 4 − lay(H) (42_header_decoder.md R212). Code 00, where the spec leaves it undefined, gives 4: every
use is guarded by `valid`, which excludes it (log 12). -/
def layer (H : Word) : Nat := 4 - (lay H).toNat

/-- Validity (42_header_decoder.md R213). -/
def valid (H : Word) : Bool :=
  sync H == 0x7FF#11 && ver H != 0b01#2 && lay H != 0b00#2 && bri H != 0b1111#4 && sri H != 0b11#2

/-- Free format (42_header_decoder.md R214). -/
def free (H : Word) : Bool := bri H == 0#4

/-- A CRC is present (42_header_decoder.md R214, 30_encoding.md R109). -/
def crc (H : Word) : Bool := prot H == 0#1

/-- The padding byte, 0 or 1 (42_header_decoder.md R214). -/
def p (H : Word) : Nat := (pad H).toNat

/-- The row of BITRATE_TABLE of a version and a layer (42_header_decoder.md R215). -/
def bitrateRow (t : BitrateTable) (isMpeg1 : Bool) (lyr : Nat) : List Nat :=
  match isMpeg1, lyr with
  | true, 1 => t.mpeg1Layer1
  | true, 2 => t.mpeg1Layer2
  | true, 3 => t.mpeg1Layer3
  | false, 1 => t.lsfLayer1
  | false, 2 => t.lsfLayer2
  | false, 3 => t.lsfLayer3
  | _, _ => []

/-- The bitrate in kbps of a valid header that is not free (42_header_decoder.md R215). -/
def bitrateKbps (cfg : Config) (H : Word) : Nat :=
  (bitrateRow cfg.bitrateTable (mpeg1 H) (layer H)).getD ((bri H).toNat - 1) 0

/-- The row of FREQ_TABLE of a version code (42_header_decoder.md R217, 30_encoding.md R107). -/
def freqRow (t : FreqTable) (v : BitVec 2) : List Nat :=
  if v = 0b11#2 then t.mpeg1 else if v = 0b10#2 then t.mpeg2 else if v = 0b00#2 then t.mpeg25 else []

/-- The sample frequency in Hz of a valid header (42_header_decoder.md R218). -/
def freq (cfg : Config) (H : Word) : Nat := (freqRow cfg.freqTable (ver H)).getD (sri H).toNat 0

/-- The frame length formulas, from the bitrate in bits per second and the frequency in Hz
(42_header_decoder.md R219). -/
def lengthFormula (isMpeg1 : Bool) (lyr br fs pd : Nat) : Nat :=
  match lyr with
  | 1 => 4 * ((12 * br) / fs + pd)
  | 2 => (144 * br) / fs + pd
  | 3 => (if isMpeg1 then (144 * br) / fs else (72 * br) / fs) + pd
  | _ => 0

/-- `frame_len(H, F)` of a valid header, in bytes (42_header_decoder.md R219). -/
def frameLen (cfg : Config) (H : Word) (F : Nat) : Nat :=
  if free H then (if F = 0 then 0 else F + p H)
  else lengthFormula (mpeg1 H) (layer H) (bitrateKbps cfg H * 1000) (freq cfg H) (p H)

/-- `samples(H)` of a valid header (42_header_decoder.md R220). -/
def samples (H : Word) : Nat :=
  match layer H with
  | 1 => 384
  | 2 => 1152
  | 3 => if mpeg1 H then 1152 else 576
  | _ => 0

/-- `info(H)`, bit 23 first (42_header_decoder.md R221, 10_state.md R50). -/
def info (H : Word) : BitVec 24 :=
  BitVec.ofBool (lsf H) ++ sri H ++ bri H ++ emph H ++ orig H ++ copyBit H ++ modext H ++ mode H
    ++ priv H ++ pad H ++ lay H ++ ver H ++ BitVec.ofBool (crc H) ++ BitVec.ofBool (free H) ++ BitVec.ofBool (valid H)

/-- `compare(H1, H2)` (42_header_decoder.md R222). -/
def compare (H1 H2 : Word) : Bool :=
  valid H2 && ver H1 == ver H2 && lay H1 == lay H2 && sri H1 == sri H2 && free H1 == free H2

/-- The decode registers that `load_decode(H, F)` writes (42_header_decoder.md R223). -/
def loadDecode (cfg : Config) (H : Word) (F : Nat) : DecodeRegs :=
  if valid H then
    { raw := H
      info := info H
      bitrate := if free H then 0#16 else BitVec.ofNat 16 (bitrateKbps cfg H)
      freq := BitVec.ofNat 16 (freq cfg H)
      framelen := BitVec.ofNat 16 (frameLen cfg H F)
      samples := BitVec.ofNat 16 (samples H) }
  else
    { raw := H, info := info H, bitrate := 0#16, freq := 0#16, framelen := 0#16, samples := 0#16 }

end Sys2Proof.Machine.Hdr
end

