-- ==== Sys2Proof/Machine/HeaderCommands.lean ====
section
/-! DEFINITION. DECODE and COMPARE (42_header_decoder.md R224, R225). -/

namespace Sys2Proof.Machine

/-- DECODE's rule: `load_decode(hdr_in, free_fmt)` and DONE (42_header_decoder.md R224). -/
def decodeRule (r : Run) : Run :=
  Run.finish .done { r with st := { r.st with dec := Hdr.loadDecode r.st.cfg r.st.hdrIn r.st.freeFmt.toNat } }

/-- DECODE (42_header_decoder.md R224). -/
def execDecode (s : State) : Result := completion decodeRule s

/-- COMPARE's rule: `cmp <- compare(hdr_in, hdr_in2)` and DONE (42_header_decoder.md R225). -/
def compareRule (r : Run) : Run :=
  Run.finish .done { r with st := { r.st with cmp := Hdr.compare r.st.hdrIn r.st.hdrIn2 } }

/-- COMPARE (42_header_decoder.md R225). -/
def execCompare (s : State) : Result := completion compareRule s

end Sys2Proof.Machine
end

