-- ==== Sys2Proof/Machine/Id3.lean ====
section
/-! DEFINITION. The ID3v2 skipper and the trailer measurer (41_id3_skipper.md R181–R187). -/

namespace Sys2Proof.Machine

/-- "ID3", "TAG", "TAG+" and "APETAGEX" (00_scope.md R11). -/
def id3Magic : List Byte := [0x49#8, 0x44#8, 0x33#8]
def tagMagic : List Byte := [0x54#8, 0x41#8, 0x47#8]
def tagPlusMagic : List Byte := [0x54#8, 0x41#8, 0x47#8, 0x2B#8]
def apeMagic : List Byte := [0x41#8, 0x50#8, 0x45#8, 0x54#8, 0x41#8, 0x47#8, 0x45#8, 0x58#8]

/-- The declared size S of the window's ID3v2 header (41_id3_skipper.md R181, 30_encoding.md R112, R113). -/
def id3TagSize (w : List Byte) : BitVec 28 := synchsafe (byteAt w 6) (byteAt w 7) (byteAt w 8) (byteAt w 9)

/-- The legal versions (41_id3_skipper.md R181). -/
def id3Version (b : Byte) : Bool := b == 2#8 || b == 3#8 || b == 4#8

/-- The tag predicate, used where n ≥ 10 (41_id3_skipper.md R181). -/
def id3Tag (w : List Byte) : Bool :=
  slice w 0 3 == id3Magic && id3Version (byteAt w 3) && id3TagSize w != 0#28

/-- The body-skip step and the end of ID3 (41_id3_skipper.md R182, R183). -/
def id3SkipStep (r : Run) : Run :=
  if r.st.id3.skipRemain = 0#28 then r.finish .done
  else
    let k := min r.st.win.length r.st.id3.skipRemain.toNat
    let left := r.st.id3.skipRemain - BitVec.ofNat 28 k
    let r' := r.pop k
    let r'' := { r' with st := { r'.st with id3 := { r'.st.id3 with skipRemain := left } } }
    r''.finish (if left = 0#28 then .done else .needMore)

/-- A detected tag: its fields are latched, its 10-byte header popped and its body left to skip
(41_id3_skipper.md R182). -/
def id3Detected (r : Run) : Run :=
  let w := r.st.win
  let r' := r.pop id3v2HdrSize
  { r' with
    st := { r'.st with
      id3 := { checked := true, present := true, ver := byteAt w 3, rev := byteAt w 4, flags := byteAt w 5,
               size := id3TagSize w, skipRemain := id3TagSize w } } }

/-- No tag: nothing is popped (41_id3_skipper.md R182). -/
def id3Absent (r : Run) : Run :=
  { r with st := { r.st with id3 := { r.st.id3 with checked := true, present := false } } }

/-- ID3's rule (41_id3_skipper.md R182). -/
def id3Rule (r : Run) : Run :=
  if r.st.id3.checked then id3SkipStep r
  else if r.st.totalParsed ≠ 0#64 then r.fail
  else if r.st.win.length < id3v2HdrSize then
    if r.st.eof then (id3Absent r).finish .done else r.finish .needMore
  else if id3Tag r.st.win then id3SkipStep (id3Detected r)
  else id3SkipStep (id3Absent r)

/-- ID3 (41_id3_skipper.md R182). -/
def execId3 (s : State) : Result := completion id3Rule s

/-- What `measure_trailer` finds; `len` is unclipped. -/
structure Trailer where
  v1 : Bool
  ext : Bool
  ape : Bool
  len : Nat
  deriving DecidableEq, Repr

/-- The length of the ID3v1 family at the window's end: a TAG block, with a TAG+ block before it or not
(41_id3_skipper.md R186). -/
def id3v1Length (w : List Byte) : Bool × Bool × Nat :=
  if 128 ≤ w.length ∧ slice w (w.length - 128) 3 = tagMagic then
    if 128 + 227 ≤ w.length ∧ slice w (w.length - 128 - 227) 4 = tagPlusMagic then (true, true, 128 + 227)
    else (true, false, 128)
  else (false, false, 0)

/-- Whether an APE footer stands directly before the last t bytes (41_id3_skipper.md R186). -/
def apeFooter (cfg : Config) (w : List Byte) (t : Nat) : Bool :=
  decide (t + cfg.apeFooterLen ≤ w.length) && slice w (w.length - t - cfg.apeFooterLen) 8 == apeMagic

/-- `measure_trailer()` (41_id3_skipper.md R186). -/
def measureTrailer (cfg : Config) (w : List Byte) : Trailer :=
  let (v1, ext, t) := id3v1Length w
  if v1 && apeFooter cfg w t then
    { v1 := v1, ext := ext, ape := true,
      len := t + le32 w (w.length - t - cfg.apeFooterLen + cfg.apeSizeOffset) + cfg.apeHeaderAdjust }
  else { v1 := v1, ext := ext, ape := false, len := t }

/-- TRAILER's rule (41_id3_skipper.md R185, R187). -/
def trailerRule (cut : Bool) (r : Run) : Run :=
  if !r.st.eof then r.fail
  else if skipActive r.st then r.fail
  else
    let m := measureTrailer r.st.cfg r.st.win
    let trl : TrailerRegs := { v1 := m.v1, ext := m.ext, ape := m.ape, len := BitVec.ofNat 64 m.len }
    let r' := { r with st := { r.st with trl := trl } }
    (if cut then r'.cutTail (min m.len r.st.win.length) else r').finish .done

/-- TRAILER (41_id3_skipper.md R185). -/
def execTrailer (cut : Bool) (s : State) : Result := completion (trailerRule cut) s

end Sys2Proof.Machine
end

