-- ==== Sys2Proof/Machine/Scan.lean ====
section
/-! DEFINITION. The frame sync scanner (43_sync_scanner.md R250–R262). The search functions read a `View`, what a SCAN
sees of the state: the window, eof and the parameters. -/

namespace Sys2Proof.Machine

/-- What the scanner reads besides F. -/
structure View where
  cfg : Config
  win : List Byte
  eof : Bool
  deriving DecidableEq, Repr

/-- The result of a candidate's evaluation (43_sync_scanner.md R254). -/
inductive Verdict where
  | accept (len : Nat)
  | reject
  | needMore
  deriving DecidableEq, Repr

/-- A verdict with F as the evaluation leaves it (43_sync_scanner.md R258). -/
structure Evaluation where
  verdict : Verdict
  F : Nat
  deriving DecidableEq, Repr

/-- How the candidate loop ends (43_sync_scanner.md R250), with F as it leaves it. -/
inductive ScanEnd where
  | found (i : Nat) (H : Word) (len F : Nat)
  | needMore (i F : Nat)
  | exhausted (i F : Nat)
  deriving DecidableEq, Repr

/-- What SCAN sees of a state. -/
def viewOf (s : State) : View := { cfg := s.cfg, win := s.win, eof := s.eof }

/-- `FINAL(i)` (43_sync_scanner.md R252). -/
def finalAt (v : View) (i : Nat) : Bool := v.eof || (i == 0 && v.win.length == v.cfg.winCap)

/-- The lone final frame (43_sync_scanner.md R256). -/
def loneFinal (v : View) (i len nxt : Nat) : Verdict :=
  if v.eof ∧ nxt = v.win.length then .accept len
  else if finalAt v i then .reject else .needMore

/-- The chain's loop (43_sync_scanner.md R255). `left` is what is left to the bound of 10 corroborations, m the
corroborations so far, j and lj the last frame's offset and length. -/
def chainLoop (v : View) (F i : Nat) (H : Word) (len : Nat) : (left m j lj : Nat) → Verdict
  | 0, _, _, _ => .accept len
  | left + 1, m, j, lj =>
    if j + lj + hdrSize > v.win.length then
      if 1 ≤ m then (if finalAt v i then .accept len else .needMore)
      else loneFinal v i len (j + lj)
    else if Hdr.compare H (hdr v.win (j + lj)) then
      chainLoop v F i H len left (m + 1) (j + lj) (Hdr.frameLen v.cfg (hdr v.win (j + lj)) F)
    else .reject

/-- `chain(i, H)` (43_sync_scanner.md R255). -/
def chain (v : View) (F i : Nat) (H : Word) : Verdict :=
  chainLoop v F i H (Hdr.frameLen v.cfg H F) maxFrameSyncMatches 0 i (Hdr.frameLen v.cfg H F)

/-- The free-format search's loop over k, `left` values of k being left (43_sync_scanner.md R257). -/
def freeLoop (v : View) (i : Nat) (H : Word) : (left k : Nat) → Evaluation
  | 0, _ => { verdict := .reject, F := 0 }
  | left + 1, k =>
    if i + k + hdrSize > v.win.length then { verdict := if finalAt v i then .reject else .needMore, F := 0 }
    else if Hdr.compare H (hdr v.win (i + k)) then
      let Fc := k - Hdr.p H
      let k2 := k + Fc + Hdr.p (hdr v.win (i + k))
      if i + k2 + hdrSize > v.win.length then
        if finalAt v i then freeLoop v i H left (k + 1) else { verdict := .needMore, F := 0 }
      else if Hdr.compare H (hdr v.win (i + k2)) then { verdict := .accept k, F := Fc }
      else freeLoop v i H left (k + 1)
    else freeLoop v i H left (k + 1)

/-- `free_search(i, H)`, k = 4 … 2303, run with F = 0 (43_sync_scanner.md R257). -/
def freeSearch (v : View) (i : Nat) (H : Word) : Evaluation :=
  freeLoop v i H (maxFreeFormatFrameSize - hdrSize) hdrSize

/-- `evaluate(i, H)` (43_sync_scanner.md R254, R258). -/
def evaluate (v : View) (F i : Nat) (H : Word) : Evaluation :=
  if Hdr.free H ∧ F = 0 then freeSearch v i H
  else
    let c := chain v F i H
    if c = .reject ∧ Hdr.free H then freeSearch v i H else { verdict := c, F := F }

/-- The candidate loop from offset i on (43_sync_scanner.md R250, R253). `fuel` bounds the candidates left. -/
def scanLoop (v : View) : (fuel F i : Nat) → ScanEnd
  | 0, F, i => .exhausted i F
  | fuel + 1, F, i =>
    if i + hdrSize ≤ v.win.length then
      let H := hdr v.win i
      if Hdr.valid H then
        let e := evaluate v F i H
        match e.verdict with
        | .accept len => .found i H len e.F
        | .needMore => .needMore i e.F
        | .reject => scanLoop v fuel e.F (i + 1)
      else scanLoop v fuel F (i + 1)
    else .exhausted i F

/-- The whole search: at most n candidates (43_sync_scanner.md R262). -/
def search (v : View) (F : Nat) : ScanEnd := scanLoop v v.win.length F 0

/-- F as the search leaves it (43_sync_scanner.md R258). -/
def ScanEnd.free : ScanEnd → Nat
  | .found _ _ _ F => F
  | .needMore _ F => F
  | .exhausted _ F => F

/-- `commit_found` (43_sync_scanner.md R259, R261), F already committed. -/
def commitFound (hold : Bool) (i : Nat) (H : Word) (len : Nat) (r : Run) : Run :=
  let s := r.st
  let r' : Run := { r with
    st := { s with
      scan := { off := BitVec.ofNat 24 i, len := BitVec.ofNat 16 len, pos := s.totalParsed + BitVec.ofNat 64 i }
      foundCount := s.foundCount + 1#32
      dec := Hdr.loadDecode s.cfg H s.freeFmt.toNat } }
  (r'.pop (if hold then i else i + len)).finish .found

/-- The three commits (43_sync_scanner.md R259, R260, R262), F already committed. -/
def commit (hold : Bool) (e : ScanEnd) (r : Run) : Run :=
  match e with
  | .found i H len _ => commitFound hold i H len r
  | .needMore i _ => (r.pop i).finish .needMore
  | .exhausted i _ => (r.pop (if r.st.eof then r.st.win.length else i)).finish .needMore

/-- SCAN's rule (43_sync_scanner.md R250, R251). -/
def scanRule (hold : Bool) (r : Run) : Run :=
  if skipActive r.st then r.fail
  else
    let e := search (viewOf r.st) r.st.freeFmt.toNat
    commit hold e { r with st := { r.st with freeFmt := BitVec.ofNat 16 e.free } }

/-- SCAN (43_sync_scanner.md R250). -/
def execScan (hold : Bool) (s : State) : Result := completion (scanRule hold) s

end Sys2Proof.Machine
end

