-- ==== Sys2Proof/Machine/WindowPort.lean ====
section
/-! DEFINITION. The host port and window operations (40_window_port.md R142–R151). -/

namespace Sys2Proof.Machine

/-- PUSH once the block is not busy: PUSH_EOF, then OVF, then the byte (40_window_port.md R142). -/
def pushEffect (d : Word) (s : State) : State :=
  if s.eof then raise .pushEof s
  else if s.win.length = s.cfg.winCap then raise .ovf s
  else push (d.extractLsb' 0 8) s

/-- PUSH (40_window_port.md R142). -/
def execPush (d : Word) (s : State) : Result := busyGated (pushEffect d) s

/-- SET_EOF once the block is not busy (40_window_port.md R143). -/
def setEofEffect (d : Word) (s : State) : State := if d.getLsbD 0 then { s with eof := true } else s

/-- SET_EOF (40_window_port.md R143). -/
def execSetEof (d : Word) (s : State) : Result := busyGated (setEofEffect d) s

/-- CLEAR_ERR (40_window_port.md R144), allowed while busy. -/
def execClearErr (d : Word) (s : State) : Result := .next { s with err := s.err &&& ~~~(d.extractLsb' 0 6) }

/-- The issue step once the block is not busy (40_window_port.md R145, 60_exceptions.md R303). -/
def issueEffect (d : Word) (s : State) : State :=
  match decodeCmd d with
  | .bad _ => { raise .badCmd s with res := ResultCode.errCmd.code }
  | .instr _ => { s with cmdLast := d, pending := d, busy := true }

/-- ISSUE (40_window_port.md R145). -/
def execIssue (d : Word) (s : State) : Result := busyGated (issueEffect d) s

/-- SET_HDR once the block is not busy (40_window_port.md R146). -/
def setHdrEffect (d : Word) (s : State) : State := { s with hdrIn := d }

/-- SET_HDR (40_window_port.md R146). -/
def execSetHdr (d : Word) (s : State) : Result := busyGated (setHdrEffect d) s

/-- SET_HDR2 once the block is not busy (40_window_port.md R147). -/
def setHdr2Effect (d : Word) (s : State) : State := { s with hdrIn2 := d }

/-- SET_HDR2 (40_window_port.md R147). -/
def execSetHdr2 (d : Word) (s : State) : Result := busyGated (setHdr2Effect d) s

/-- SET_RADDR (40_window_port.md R148), allowed while busy. -/
def execSetRaddr (d : Word) (s : State) : Result := .next { s with winRaddr := d.extractLsb' 0 24 }

/-- PEEK (40_window_port.md R150). -/
def execPeek (s : State) : Result := .next { s with rdata := winRdata s }

/-- READ (40_window_port.md R149): the register's value, or 0 and ERR.BAD_ADDR at an offset that has none
(10_state.md R62). -/
def execRead (off : Offset) (s : State) : Result :=
  match Reg.ofOffset off with
  | some r => .next { s with rdata := readReg s r }
  | none => .next { raise .badAddr s with rdata := 0#32 }

/-- CONSUME's rule (40_window_port.md R151). -/
def consumeRule (cnt : BitVec 24) (r : Run) : Run :=
  if skipActive r.st then r.fail
  else (r.pop (min cnt.toNat r.st.win.length)).finish .done

/-- CONSUME (40_window_port.md R151). -/
def execConsume (cnt : BitVec 24) (s : State) : Result := completion (consumeRule cnt) s

end Sys2Proof.Machine
end

