-- ==== Sys2Proof/Machine/Dispatch.lean ====
section
/-! DEFINITION. The meaning of every instruction: one arm per constructor of Instr. -/

namespace Sys2Proof.Machine

def exec (i : Instr) (s : State) : Host.Outcome State Fault Refusal :=
  match i with
  | .nop => Sys2Proof.Machine.execNop s
  | .reset => Sys2Proof.Machine.execReset s
  | .decode => Sys2Proof.Machine.execDecode s
  | .compare => Sys2Proof.Machine.execCompare s
  | .id3 => Sys2Proof.Machine.execId3 s
  | .scan hold => Sys2Proof.Machine.execScan hold s
  | .trailer cut => Sys2Proof.Machine.execTrailer cut s
  | .consume cnt => Sys2Proof.Machine.execConsume cnt s
  | .push d => Sys2Proof.Machine.execPush d s
  | .setEof d => Sys2Proof.Machine.execSetEof d s
  | .clearErr d => Sys2Proof.Machine.execClearErr d s
  | .issue d => Sys2Proof.Machine.execIssue d s
  | .setHdr d => Sys2Proof.Machine.execSetHdr d s
  | .setHdr2 d => Sys2Proof.Machine.execSetHdr2 d s
  | .setRaddr d => Sys2Proof.Machine.execSetRaddr d s
  | .peek => Sys2Proof.Machine.execPeek s
  | .read off => Sys2Proof.Machine.execRead off s

end Sys2Proof.Machine
end

