-- ==== Sys2Proof/Machine/Step.lean ====
section
/-! DEFINITION. One step of the machine: one host access, one completion of the engine, one hardware reset, or nothing
(20_memory.md R83, R84, 70_reset_and_hazards.md R340). -/

namespace Sys2Proof.Machine

/-- An operation carried out: the instruction it decodes to, or what a non-instruction does. -/
def runOp (o : OpWord) (s : State) : Host.Outcome State Fault Refusal :=
  match decode o with
  | .instr i => exec i s
  | .bad e => badOperation e s

/-- One step: what `fetch` finds, on the state with the event taken off the agenda. -/
def step (s : State) : Host.Outcome State Fault Refusal :=
  match fetch s with
  | (.op o, t) => runOp o t
  | (.hardwareReset, t) => .next (resetState t)
  | (.idle, t) => .next t

/-- The state with the instruction of a word of opcode_table.json where the step finds its next operation: a bus
operation at the head of the agenda, a command pending with the engine's turn at the head (log 2, log 10). -/
def State.withFetchWord (s : State) (nbits w : Nat) : State :=
  match tableOp nbits w with
  | some (.cmd c) => { s with busy := true, pending := c, agenda := .engine :: s.agenda }
  | some (.wr off d) => { s with agenda := .wr (addressOf s.cfg off) d :: s.agenda }
  | some (.rd off) => { s with agenda := .rd (addressOf s.cfg off) :: s.agenda }
  | none => s

end Sys2Proof.Machine
end

