-- ==== Sys2Proof/Safety.lean ====
section
/-! DEFINITION. Admissible parameters (00_scope.md R6, 42_header_decoder.md R216, R217, R226, 41_id3_skipper.md R186), the
invariants of 10_state.md R64, what a safe run is, and the scanner's rules in the terms of the statements: a candidate's
chain and free-format search as conditions on the window (43_sync_scanner.md R252–R257). -/

namespace Sys2Proof.Machine

/-- A row of a table: as many entries as it has columns, each in 1 … 65535 (42_header_decoder.md R216, R217). -/
def tableRow (columns : Nat) (row : List Nat) : Bool :=
  row.length == columns && row.all fun e => decide (1 ≤ e ∧ e ≤ 65535)

/-- Every length the formulas give for a bitrate of one row and a frequency of another is at least 1, the padding byte
left out (42_header_decoder.md R226). -/
def lengthsPositive (isMpeg1 : Bool) (lyr : Nat) (bitrates freqs : List Nat) : Bool :=
  bitrates.all fun br => freqs.all fun fs => decide (1 ≤ Hdr.lengthFormula isMpeg1 lyr (br * 1000) fs 0)

/-- The tables 42_header_decoder.md R216, R217 and R226 admit. -/
def tablesAdmissible (b : BitrateTable) (f : FreqTable) : Bool :=
  [b.mpeg1Layer1, b.mpeg1Layer2, b.mpeg1Layer3, b.lsfLayer1, b.lsfLayer2, b.lsfLayer3].all (tableRow 14)
    && [f.mpeg1, f.mpeg2, f.mpeg25].all (tableRow 3)
    && lengthsPositive true 1 b.mpeg1Layer1 f.mpeg1 && lengthsPositive true 2 b.mpeg1Layer2 f.mpeg1
    && lengthsPositive true 3 b.mpeg1Layer3 f.mpeg1
    && lengthsPositive false 1 b.lsfLayer1 (f.mpeg2 ++ f.mpeg25) && lengthsPositive false 2 b.lsfLayer2 (f.mpeg2 ++ f.mpeg25)
    && lengthsPositive false 3 b.lsfLayer3 (f.mpeg2 ++ f.mpeg25)

/-- The parameters the spec admits: WIN_CAP (00_scope.md R6), the tables, the APE geometry (41_id3_skipper.md R186) and a
4 KiB-aligned base (00_scope.md R6). -/
def admissible (cfg : Config) : Bool :=
  decide (4611 ≤ cfg.winCap ∧ cfg.winCap ≤ 16777215) && tablesAdmissible cfg.bitrateTable cfg.freqTable
    && decide (cfg.apeSizeOffset + 4 ≤ cfg.apeFooterLen ∧ cfg.apeFooterLen ≤ 16777216) && cfg.mfsdBase % 4096 == 0

/-- The invariants of 10_state.md R64, with the fact about `pending` that makes its (b) hold of the engine's turn. -/
structure Invariant (s : State) : Prop where
  /-- The parameters are admissible (00_scope.md R6). -/
  cfg : admissible s.cfg = true
  /-- R64(a): n ≤ WIN_CAP. -/
  win : Memory.wf s.cfg.winCap s.win = true
  /-- A pending command is legal (40_window_port.md R145). -/
  pending : s.busy = true → ∃ i, decodeCmd s.pending = .instr i
  /-- R64(c). -/
  skipping : s.id3.skipRemain ≠ 0#28 → s.id3.checked = true ∧ s.id3.present = true
  /-- R64(d): total_parsed + skip_remain = 10 + id3_size while a skip is active. -/
  accounting : s.id3.skipRemain ≠ 0#28 → s.totalParsed.toNat + s.id3.skipRemain.toNat = 10 + s.id3.size.toNat
  /-- R64(e). -/
  present : s.id3.present = true → s.id3.checked = true ∧ id3Version s.id3.ver = true ∧ s.id3.size ≠ 0#28
  /-- R64(f): F = 0 or 3 ≤ F ≤ 2303. -/
  free : s.freeFmt = 0#16 ∨ (3 ≤ s.freeFmt.toNat ∧ s.freeFmt.toNat ≤ 2303)
  /-- R64(g): res is one of the six codes. -/
  res : s.res.toNat ≤ 5

/-- A state right after reset, with admissible parameters and any events to come. -/
def Initial (s : State) : Prop :=
  admissible s.cfg = true ∧ s = { State.reset with cfg := s.cfg, agenda := s.agenda }

/-- A safe run: it never stops. No outcome of the block does (60_exceptions.md R300). -/
def Safe (s : State) : Prop := ∀ k, ∃ t, Host.Core.run Sys2Proof.core k s = .next t

/-! ### A SCAN candidate -/

/-- `FINAL(i)` (43_sync_scanner.md R252). -/
def Final (s : State) (i : Nat) : Prop := s.eof = true ∨ (i = 0 ∧ s.win.length = s.cfg.winCap)

/-- No ID3v2 skip is active, and the window's first valid header is H, at offset i (43_sync_scanner.md R251, R253). -/
def FirstCandidate (s : State) (i : Nat) (H : Word) : Prop :=
  s.id3.skipRemain = 0#28 ∧ (∀ j, j < i → Hdr.valid (hdr s.win j) = false) ∧ i + 4 ≤ s.win.length ∧
    H = hdr s.win i ∧ Hdr.valid H = true

/-- Where the frames' own lengths lead from offset i after a frames, under the free-format length F
(43_sync_scanner.md R255). -/
def chainOffset (s : State) (F i : Nat) : Nat → Nat
  | 0 => i
  | a + 1 => chainOffset s F i a + Hdr.frameLen s.cfg (hdr s.win (chainOffset s F i a)) F

/-- m corroborations: the m headers that follow lie in the window and compare equal to the candidate's
(43_sync_scanner.md R255). -/
def Corroborated (s : State) (F i m : Nat) : Prop :=
  ∀ a, 1 ≤ a → a ≤ m → chainOffset s F i a + 4 ≤ s.win.length ∧
    Hdr.compare (hdr s.win i) (hdr s.win (chainOffset s F i a)) = true

/-- The chain's REJECT: a mismatch before the tenth corroboration, or no corroboration in a final window, the frame not
ending exactly at the stream's end (43_sync_scanner.md R255, R256). -/
def ChainRejects (s : State) (F i : Nat) : Prop :=
  ∃ m, m < 10 ∧ Corroborated s F i m ∧
    (chainOffset s F i (m + 1) + 4 ≤ s.win.length ∧
        Hdr.compare (hdr s.win i) (hdr s.win (chainOffset s F i (m + 1))) = false ∨
      m = 0 ∧ s.win.length < chainOffset s F i 1 + 4 ∧ Final s i ∧
        ¬ (s.eof = true ∧ chainOffset s F i 1 = s.win.length))

/-- The chain's NEED_MORE: after fewer than ten corroborations, none included, the next header is not all in a window that is
not final (43_sync_scanner.md R255, R256). -/
def ChainRunsOut (s : State) (F i : Nat) : Prop :=
  ∃ m, m < 10 ∧ Corroborated s F i m ∧ s.win.length < chainOffset s F i (m + 1) + 4 ∧ ¬ Final s i

/-- Where the third occurrence stands, the second being k bytes after the candidate (43_sync_scanner.md R257). -/
def thirdOffset (s : State) (i k : Nat) : Nat := i + k + (k - Hdr.p (hdr s.win i)) + Hdr.p (hdr s.win (i + k))

/-- The free-format search tests k and goes on: no second occurrence, a third that does not match, or a third past a final
window (43_sync_scanner.md R257). -/
def FreePassesOver (s : State) (i k : Nat) : Prop :=
  i + k + 4 ≤ s.win.length ∧
    (Hdr.compare (hdr s.win i) (hdr s.win (i + k)) = false ∨
      thirdOffset s i k + 4 ≤ s.win.length ∧ Hdr.compare (hdr s.win i) (hdr s.win (thirdOffset s i k)) = false ∨
      s.win.length < thirdOffset s i k + 4 ∧ Final s i)

/-- The search's ACCEPT(k): k is the first value with a second and a third occurrence (43_sync_scanner.md R257). -/
def FreeAccepts (s : State) (i k : Nat) : Prop :=
  4 ≤ k ∧ k ≤ 2303 ∧ (∀ k', 4 ≤ k' → k' < k → FreePassesOver s i k') ∧
    Hdr.compare (hdr s.win i) (hdr s.win (i + k)) = true ∧
    thirdOffset s i k + 4 ≤ s.win.length ∧ Hdr.compare (hdr s.win i) (hdr s.win (thirdOffset s i k)) = true

/-- The search's REJECT: every value is passed over, up to the bound or to the end of a final window
(43_sync_scanner.md R257). -/
def FreeRejects (s : State) (i : Nat) : Prop :=
  (∀ k, 4 ≤ k → k ≤ 2303 → i + k + 4 ≤ s.win.length → FreePassesOver s i k) ∧
    (i + 2307 ≤ s.win.length ∨ Final s i)

/-- The search's NEED_MORE: in a window that is not final, the second or the third occurrence's place is not all in it
(43_sync_scanner.md R257). -/
def FreeRunsOut (s : State) (i : Nat) : Prop :=
  ¬ Final s i ∧ ∃ k, 4 ≤ k ∧ k ≤ 2303 ∧ (∀ k', 4 ≤ k' → k' < k → FreePassesOver s i k') ∧
    (s.win.length < i + k + 4 ∨
      Hdr.compare (hdr s.win i) (hdr s.win (i + k)) = true ∧ s.win.length < thirdOffset s i k + 4)

/-- The candidate's evaluation is the chain: its length is known (43_sync_scanner.md R254). -/
def KnownLength (s : State) (H : Word) : Prop := Hdr.free H = false ∨ s.freeFmt ≠ 0#16

/-- The candidate's evaluation is the free-format search: F is unknown, or does not fit the candidate
(43_sync_scanner.md R254, R258). -/
def SearchesFree (s : State) (i : Nat) (H : Word) : Prop :=
  Hdr.free H = true ∧ (s.freeFmt = 0#16 ∨ ChainRejects s s.freeFmt.toNat i)

/-- The state after `commit_found` of the frame of header H and length L at offset i, F being the free-format length by then:
its place, its length, the count, the decode registers and the pop, which with HOLD stops before the frame
(43_sync_scanner.md R259, R261). -/
def foundState (s : State) (hold : Bool) (i : Nat) (H : Word) (L : Nat) (F : BitVec 16) : State :=
  { s with
    freeFmt := F
    scan := { off := BitVec.ofNat 24 i, len := BitVec.ofNat 16 L, pos := s.totalParsed + BitVec.ofNat 64 i }
    foundCount := s.foundCount + 1#32
    dec := Hdr.loadDecode s.cfg H F.toNat
    win := s.win.drop (if hold then i else i + L)
    totalParsed := s.totalParsed + BitVec.ofNat 64 (if hold then i else i + L)
    popCount := BitVec.ofNat 24 (if hold then i else i + L)
    res := 3#4
    busy := false }

end Sys2Proof.Machine
end

