-- ==== Sys2Proof/Certificates/Slice0/Obligations.lean ====
section
/-! DEFINITION. The statements for the provers. Each docstring names the rules of the spec it formalises. A result is
stated with its frame: `t = { s with f := … }` says that every other field of the state, every byte of the window
included, is as before. -/

open Sys2Proof Sys2Proof.Machine

/-! ### Control and reset -/

/-- NOP completes with DONE on every state and pops nothing; nothing else changes. Issued while busy it is lost and sets
BUSY_WR (44_control.md R290). -/
def Obligations.NopCompletesWithDone : Prop :=
  ∀ s : State, exec .nop s = .next { s with res := 1#4, popCount := 0#24, busy := false } ∧
    (s.busy = true → exec (.issue 0#32) s = .next { s with err := s.err ||| 0b000100#6 })

/-- RESET sets every element of 10_state.md R30 to its reset value, in every state, as a hardware reset does; STATUS then
reads 8, a second RESET changes nothing, and one issued while busy is lost (44_control.md R291; 70_reset_and_hazards.md R342 is the spec's own inference).
The parameters, the events to come and the value last read are no elements and stay (log 14). -/
def Obligations.ResetCommandGivesResetState : Prop :=
  ∀ s : State, ∃ t, exec .reset s = .next t ∧
    t = { State.reset with cfg := s.cfg, agenda := s.agenda, rdata := s.rdata } ∧
    step { s with agenda := .hardwareReset :: s.agenda } = .next t ∧
    (s.cfg.winCap ≠ 0 → readReg t .status = 0x00000008#32) ∧ exec .reset t = .next t ∧
    (s.busy = true → exec (.issue 1#32) s = .next { s with err := s.err ||| 0b000100#6 })

/-- A hardware reset, at any time and with a command pending or not, gives the state the RESET command gives, and the
abandoned command leaves no effect (70_reset_and_hazards.md R340, R342). -/
def Obligations.HardwareResetEqualsResetCommand : Prop :=
  ∀ (s : State) (rest : List Event),
    step { s with agenda := .hardwareReset :: rest } = exec .reset { s with agenda := rest } ∧
    ∀ w : Word, step { s with agenda := .hardwareReset :: rest, busy := true, pending := w } =
      step { s with agenda := .hardwareReset :: rest }

/-- What every register reads right after reset, in the reference configuration (70_reset_and_hazards.md R341). -/
def Obligations.RegistersReadAfterReset : Prop :=
  readReg State.reset .id = 0x4D465344#32 ∧ readReg State.reset .winCap = 16384#32 ∧
  readReg State.reset .status = 0x00000008#32 ∧ State.reset.busy = false ∧ State.reset.pending = 0#32 ∧
  State.reset.win = [] ∧
  ∀ r : Reg, r ≠ .id → r ≠ .winCap → r ≠ .status → readReg State.reset r = 0#32

/-! ### Bus writes -/

/-- PUSH: BUSY_WR, then PUSH_EOF, then OVF, else the byte d[7:0] at offset n and nothing else changed; every other
window offset reads as before (40_window_port.md R142, 20_memory.md R72, 60_exceptions.md R305, R306). -/
def Obligations.PushStoresByteOrFlags : Prop :=
  ∀ (s : State) (d : Word),
    (s.busy = true → exec (.push d) s = .next { s with err := s.err ||| 0b000100#6 }) ∧
    (s.busy = false → s.eof = true → exec (.push d) s = .next { s with err := s.err ||| 0b000010#6 }) ∧
    (s.busy = false → s.eof = false → s.win.length = s.cfg.winCap →
      exec (.push d) s = .next { s with err := s.err ||| 0b000001#6 }) ∧
    (s.busy = false → s.eof = false → s.win.length ≠ s.cfg.winCap →
      ∃ t, exec (.push d) s = .next t ∧ t = { s with win := t.win } ∧ t.win.length = s.win.length + 1 ∧
        byteAt t.win s.win.length = d.extractLsb' 0 8 ∧
        ∀ j, j ≠ s.win.length → byteAt t.win j = byteAt s.win j)

/-- SET_EOF sets eof where d[0] = 1, changes nothing where d[0] = 0, and is busy-gated (40_window_port.md R143). -/
def Obligations.SetEofOnlySets : Prop :=
  ∀ (s : State) (d : Word),
    (s.busy = true → exec (.setEof d) s = .next { s with err := s.err ||| 0b000100#6 }) ∧
    (s.busy = false → d.toNat % 2 = 1 → exec (.setEof d) s = .next { s with eof := true }) ∧
    (s.busy = false → d.toNat % 2 = 0 → exec (.setEof d) s = .next s)

/-- CLEAR_ERR clears exactly the error bits whose bit of d is 1, busy or not (40_window_port.md R144, 10_state.md R36). -/
def Obligations.ClearErrClearsWrittenOnes : Prop :=
  ∀ (s : State) (d : Word), ∃ t, exec (.clearErr d) s = .next t ∧ t = { s with err := t.err } ∧
    ∀ b, b < 6 → t.err.getLsbD b = (s.err.getLsbD b && !d.getLsbD b)

/-- The legal command words, in numbers: OP 0 … 4 with ARG 0, OP 5 and 6 with ARG 0 or 1, OP 7 with any ARG
(30_encoding.md R102, R103, R104). -/
def Obligations.LegalCommandWords : Prop :=
  ∀ w : Word, (∃ i, decodeCmd w = .instr i) ↔
    (w.toNat ≤ 6 ∨ w.toNat = 0x105 ∨ w.toNat = 0x106 ∨ w.toNat % 256 = 7)

/-- ISSUE, the issue step: busy-gated; a legal word is latched in pending and cmd_last and busy set; an illegal one sets
BAD_CMD and RES = ERR_CMD and issues nothing. Nothing else changes, so the window and the results read as before the command
(40_window_port.md R145, 60_exceptions.md R303). -/
def Obligations.IssueLatchesOrRejects : Prop :=
  ∀ (s : State) (d : Word),
    (s.busy = true → exec (.issue d) s = .next { s with err := s.err ||| 0b000100#6 }) ∧
    (s.busy = false → (∃ i, decodeCmd d = .instr i) →
      exec (.issue d) s = .next { s with cmdLast := d, pending := d, busy := true }) ∧
    (s.busy = false → (¬ ∃ i, decodeCmd d = .instr i) →
      exec (.issue d) s = .next { s with err := s.err ||| 0b001000#6, res := 4#4 })

/-- SET_HDR and SET_HDR2 store the whole word, every value accepted, and are busy-gated (40_window_port.md R146, R147). -/
def Obligations.SetHdrStoresWord : Prop :=
  ∀ (s : State) (d : Word),
    (s.busy = true → exec (.setHdr d) s = .next { s with err := s.err ||| 0b000100#6 } ∧
      exec (.setHdr2 d) s = .next { s with err := s.err ||| 0b000100#6 }) ∧
    (s.busy = false → exec (.setHdr d) s = .next { s with hdrIn := d } ∧
      exec (.setHdr2 d) s = .next { s with hdrIn2 := d })

/-- SET_RADDR stores d[23:0], busy or not, and a read of WIN_RADDR then returns it (40_window_port.md R148, 10_state.md R41). -/
def Obligations.SetRaddrStoresLow24 : Prop :=
  ∀ (s : State) (d : Word), ∃ t, exec (.setRaddr d) s = .next t ∧ t = { s with winRaddr := t.winRaddr } ∧
    t.winRaddr.toNat = d.toNat % 16777216 ∧ readReg t .winRaddr = t.winRaddr.setWidth 32

/-- The busy gating of 40_window_port.md R141: while busy, a write to CMD, DATA_IN, CTRL, HDR_IN or HDR_IN2 changes nothing
but ERR.BUSY_WR, while a write to WIN_RADDR or ERR and every read does what it does when busy = 0, a read of STATUS alone
returning another value. -/
def Obligations.BusyGatesHostWrites : Prop :=
  ∀ (s : State) (d : Word) (off : Offset), s.busy = true →
    (∀ i, i ∈ [Instr.issue d, .push d, .setEof d, .setHdr d, .setHdr2 d] →
      exec i s = .next { s with err := s.err ||| 0b000100#6 }) ∧
    (∀ i, i ∈ [Instr.setRaddr d, .clearErr d] →
      ∃ t, exec i { s with busy := false } = .next t ∧ exec i s = .next { t with busy := true }) ∧
    (∀ i, i ∈ [Instr.peek, .read off] → ∀ t, exec i { s with busy := false } = .next t →
      ∃ u, exec i s = .next u ∧ u = { t with busy := true, rdata := u.rdata } ∧
        (i ≠ .read 0x008#12 → u.rdata = t.rdata))

/-! ### Bus reads and register views -/

/-- PEEK returns W[win_raddr] in bits 7:0, or 0 at or past n, sets no error and changes nothing else
(40_window_port.md R150, 10_state.md R42). -/
def Obligations.PeekReturnsWindowByte : Prop :=
  ∀ s : State, ∃ t, exec .peek s = .next t ∧ t = { s with rdata := t.rdata } ∧
    (∀ b, s.win[s.winRaddr.toNat]? = some b → t.rdata.toNat = b.toNat) ∧
    (s.win.length ≤ s.winRaddr.toNat → t.rdata = 0#32)

/-- READ returns the register's value and changes nothing else; at an unmapped or misaligned offset it returns 0 and sets
ERR.BAD_ADDR (40_window_port.md R149, 10_state.md R62). What each register reads is in StatusBits and RegisterViews. -/
def Obligations.ReadReturnsRegister : Prop :=
  (∀ (s : State) (r : Reg), exec (.read r.offset) s = .next { s with rdata := readReg s r }) ∧
  (∀ (s : State) (off : Offset), (off.toNat % 4 ≠ 0 ∨ 128 ≤ off.toNat) →
    exec (.read off) s = .next { s with rdata := 0#32, err := s.err ||| 0b100000#6 })

/-- The STATUS register bit by bit (10_state.md R35). -/
def Obligations.StatusBits : Prop :=
  ∀ s : State,
    (readReg s .status).getLsbD 0 = s.busy ∧ (readReg s .status).getLsbD 1 = s.eof ∧
    (readReg s .status).getLsbD 2 = decide (s.win.length = s.cfg.winCap) ∧
    (readReg s .status).getLsbD 3 = decide (s.win.length = 0) ∧
    (readReg s .status).extractLsb' 4 4 = s.res ∧
    (readReg s .status).getLsbD 8 = s.id3.checked ∧ (readReg s .status).getLsbD 9 = s.id3.present ∧
    (readReg s .status).getLsbD 10 = decide (s.id3.skipRemain ≠ 0#28) ∧ (readReg s .status).getLsbD 11 = s.cmp ∧
    (readReg s .status).getLsbD 12 = decide (s.err ≠ 0#6) ∧
    (readReg s .status).extractLsb' 13 19 = 0#19

/-- What every register but STATUS reads, in every state: the whole words of ID, CMD, FOUND_COUNT, HDR_IN, HDR_IN2 and HDR_RAW
(10_state.md R33, R37, R45, R47–R49); the zero-extended CTRL, ERR, FREE_FMT, POP_COUNT, WIN_RADDR, HDR_INFO, HDR_BITRATE,
HDR_FREQ, SCAN_OFF, SCAN_LEN, ID3_SIZE and ID3_REMAIN (R34, R36, R41, R44, R46, R50–R52, R54, R55, R58, R59); DATA_IN 0
(R38); WIN_LEN and WIN_CAP (R39, R40); WIN_RDATA (R42); the halves of TOTAL, SCAN_POS and TRL_LEN (R43, R56, R61); and the
packed HDR_LEN, ID3_HDR and TRL_INFO, their fields in numbers (R53, R57, R60). -/
def Obligations.RegisterViews : Prop :=
  ∀ s : State,
    readReg s .id = 0x4D465344#32 ∧ readReg s .cmd = s.cmdLast ∧ readReg s .foundCount = s.foundCount ∧
    readReg s .hdrIn = s.hdrIn ∧ readReg s .hdrIn2 = s.hdrIn2 ∧ readReg s .hdrRaw = s.dec.raw ∧
    readReg s .dataIn = 0#32 ∧
    (readReg s .ctrl).toNat = s.eof.toNat ∧ (readReg s .err).toNat = s.err.toNat ∧
    (readReg s .freeFmt).toNat = s.freeFmt.toNat ∧ (readReg s .popCount).toNat = s.popCount.toNat ∧
    (readReg s .winRaddr).toNat = s.winRaddr.toNat ∧ (readReg s .hdrInfo).toNat = s.dec.info.toNat ∧
    (readReg s .hdrBitrate).toNat = s.dec.bitrate.toNat ∧ (readReg s .hdrFreq).toNat = s.dec.freq.toNat ∧
    (readReg s .scanOff).toNat = s.scan.off.toNat ∧ (readReg s .scanLen).toNat = s.scan.len.toNat ∧
    (readReg s .id3Size).toNat = s.id3.size.toNat ∧ (readReg s .id3Remain).toNat = s.id3.skipRemain.toNat ∧
    (s.win.length < 16777216 → (readReg s .winLen).toNat = s.win.length) ∧
    (s.cfg.winCap < 16777216 → (readReg s .winCap).toNat = s.cfg.winCap) ∧
    (∀ b, s.win[s.winRaddr.toNat]? = some b → (readReg s .winRdata).toNat = b.toNat) ∧
    (s.win.length ≤ s.winRaddr.toNat → readReg s .winRdata = 0#32) ∧
    readReg s .totalHi ++ readReg s .totalLo = s.totalParsed ∧
    readReg s .scanPosHi ++ readReg s .scanPosLo = s.scan.pos ∧
    readReg s .trlLenHi ++ readReg s .trlLenLo = s.trl.len ∧
    (readReg s .hdrLen).toNat = s.dec.samples.toNat * 65536 + s.dec.framelen.toNat ∧
    (readReg s .id3Hdr).toNat = s.id3.flags.toNat * 65536 + s.id3.rev.toNat * 256 + s.id3.ver.toNat ∧
    (readReg s .trlInfo).toNat = s.trl.ape.toNat * 4 + s.trl.ext.toNat * 2 + s.trl.v1.toNat

/-- No read has a side effect but BAD_ADDR at an error offset, and every access but a DATA_IN or a CMD write is idempotent
(20_memory.md R81). -/
def Obligations.ReadsHaveNoSideEffect : Prop :=
  (∀ (s t : State), exec .peek s = .next t → t = { s with rdata := t.rdata }) ∧
  (∀ (s t : State) (off : Offset), exec (.read off) s = .next t →
    t = { s with rdata := t.rdata, err := t.err } ∧ ((∃ r : Reg, r.offset = off) → t.err = s.err)) ∧
  (∀ (s t : State) (i : Instr), i.isCommand = false → (∀ d, i ≠ .push d) → (∀ d, i ≠ .issue d) →
    exec i s = .next t → exec i t = .next t)

/-! ### Commands on header words -/

/-- The header fields stand where 30_encoding.md R106 places them: valid(H) in numbers (42_header_decoder.md R213). -/
def Obligations.ValidHeaderInNumbers : Prop :=
  ∀ H : Word, Hdr.valid H = true ↔
    (H.toNat / 2097152 = 2047 ∧ H.toNat / 524288 % 4 ≠ 1 ∧ H.toNat / 131072 % 4 ≠ 0 ∧
      H.toNat / 4096 % 16 ≠ 15 ∧ H.toNat / 1024 % 4 ≠ 3)

/-- The lookups of a valid header and what follows from them, by its version code (bits 20:19) and layer code (bits 18:17): a
header that is not free has the bitrate at entry bri − 1 of its row of BITRATE_TABLE, entry 0 being that of index 1, MPEG 2
and 2.5 sharing a row per layer; every header has the frequency at entry sri of its version's row of FREQ_TABLE; then the
frame length and the samples per frame (42_header_decoder.md R215, R217, R218, R219, R220). -/
def Obligations.LookupsFrameLengthAndSamples : Prop :=
  ∀ (cfg : Config) (H : Word) (F : Nat), Hdr.valid H = true →
    (∀ row : List Nat,
      (H.toNat / 524288 % 4 = 3 ∧ (H.toNat / 131072 % 4 = 3 ∧ row = cfg.bitrateTable.mpeg1Layer1 ∨
          H.toNat / 131072 % 4 = 2 ∧ row = cfg.bitrateTable.mpeg1Layer2 ∨
          H.toNat / 131072 % 4 = 1 ∧ row = cfg.bitrateTable.mpeg1Layer3) ∨
        H.toNat / 524288 % 4 ≠ 3 ∧ (H.toNat / 131072 % 4 = 3 ∧ row = cfg.bitrateTable.lsfLayer1 ∨
          H.toNat / 131072 % 4 = 2 ∧ row = cfg.bitrateTable.lsfLayer2 ∨
          H.toNat / 131072 % 4 = 1 ∧ row = cfg.bitrateTable.lsfLayer3)) →
      H.toNat / 4096 % 16 ≠ 0 → ∀ kbps, row[H.toNat / 4096 % 16 - 1]? = some kbps → Hdr.bitrateKbps cfg H = kbps) ∧
    (∀ row : List Nat,
      (H.toNat / 524288 % 4 = 3 ∧ row = cfg.freqTable.mpeg1 ∨ H.toNat / 524288 % 4 = 2 ∧ row = cfg.freqTable.mpeg2 ∨
        H.toNat / 524288 % 4 = 0 ∧ row = cfg.freqTable.mpeg25) →
      ∀ hz, row[H.toNat / 1024 % 4]? = some hz → Hdr.freq cfg H = hz) ∧
    (H.toNat / 4096 % 16 = 0 →
      Hdr.frameLen cfg H F = (if F = 0 then 0 else F + H.toNat / 512 % 2)) ∧
    (H.toNat / 4096 % 16 ≠ 0 →
      (H.toNat / 131072 % 4 = 3 → Hdr.frameLen cfg H F =
        4 * (12 * (Hdr.bitrateKbps cfg H * 1000) / Hdr.freq cfg H + H.toNat / 512 % 2)) ∧
      (H.toNat / 131072 % 4 = 2 → Hdr.frameLen cfg H F =
        144 * (Hdr.bitrateKbps cfg H * 1000) / Hdr.freq cfg H + H.toNat / 512 % 2) ∧
      (H.toNat / 131072 % 4 = 1 → H.toNat / 524288 % 4 = 3 → Hdr.frameLen cfg H F =
        144 * (Hdr.bitrateKbps cfg H * 1000) / Hdr.freq cfg H + H.toNat / 512 % 2) ∧
      (H.toNat / 131072 % 4 = 1 → H.toNat / 524288 % 4 ≠ 3 → Hdr.frameLen cfg H F =
        72 * (Hdr.bitrateKbps cfg H * 1000) / Hdr.freq cfg H + H.toNat / 512 % 2)) ∧
    (H.toNat / 131072 % 4 = 3 → Hdr.samples H = 384) ∧
    (H.toNat / 131072 % 4 = 2 → Hdr.samples H = 1152) ∧
    (H.toNat / 131072 % 4 = 1 → Hdr.samples H = if H.toNat / 524288 % 4 = 3 then 1152 else 576)

/-- A valid header that is not free has a frame length of 24 … 2881 bytes under the default tables, both bounds reached, and
of at least 1 under every admissible table (42_header_decoder.md R226, the spec's own inference). -/
def Obligations.FrameLengthBounds : Prop :=
  (∀ (H : Word) (F : Nat), Hdr.valid H = true → Hdr.free H = false →
    24 ≤ Hdr.frameLen Config.reference H F ∧ Hdr.frameLen Config.reference H F ≤ 2881) ∧
  Hdr.frameLen Config.reference 0xFFF31400#32 0 = 24 ∧ Hdr.frameLen Config.reference 0xFFE5EA00#32 0 = 2881 ∧
  ∀ (cfg : Config) (H : Word) (F : Nat), admissible cfg = true → Hdr.valid H = true → Hdr.free H = false →
    1 ≤ Hdr.frameLen cfg H F

/-- The packed field word holds every field of the header at the place 42_header_decoder.md R221 gives it, whether or not
the header is valid. -/
def Obligations.InfoWordFields : Prop :=
  ∀ H : Word,
    (Hdr.info H).getLsbD 0 = Hdr.valid H ∧ (Hdr.info H).getLsbD 1 = decide (H.extractLsb' 12 4 = 0#4) ∧
    (Hdr.info H).getLsbD 2 = !H.getLsbD 16 ∧ (Hdr.info H).extractLsb' 3 2 = H.extractLsb' 19 2 ∧
    (Hdr.info H).extractLsb' 5 2 = H.extractLsb' 17 2 ∧ (Hdr.info H).getLsbD 7 = H.getLsbD 9 ∧
    (Hdr.info H).getLsbD 8 = H.getLsbD 8 ∧ (Hdr.info H).extractLsb' 9 2 = H.extractLsb' 6 2 ∧
    (Hdr.info H).extractLsb' 11 2 = H.extractLsb' 4 2 ∧ (Hdr.info H).getLsbD 13 = H.getLsbD 3 ∧
    (Hdr.info H).getLsbD 14 = H.getLsbD 2 ∧ (Hdr.info H).extractLsb' 15 2 = H.extractLsb' 0 2 ∧
    (Hdr.info H).extractLsb' 17 4 = H.extractLsb' 12 4 ∧ (Hdr.info H).extractLsb' 21 2 = H.extractLsb' 10 2 ∧
    (Hdr.info H).getLsbD 23 = decide (H.extractLsb' 19 2 ≠ 0b11#2)

/-- DECODE completes with DONE on every state and writes the decode registers from hdr_in and F: all of them where the
header is valid, the raw word and its fields with zeros where it is not; nothing else changes
(42_header_decoder.md R223, R224). -/
def Obligations.DecodeLoadsHeaderRegisters : Prop :=
  ∀ s : State, ∃ t, exec .decode s = .next t ∧
    t = { s with dec := t.dec, res := 1#4, popCount := 0#24, busy := false } ∧
    t.dec.raw = s.hdrIn ∧ t.dec.info = Hdr.info s.hdrIn ∧
    (Hdr.valid s.hdrIn = true →
      t.dec.bitrate = (if Hdr.free s.hdrIn then 0#16 else BitVec.ofNat 16 (Hdr.bitrateKbps s.cfg s.hdrIn)) ∧
      t.dec.freq = BitVec.ofNat 16 (Hdr.freq s.cfg s.hdrIn) ∧
      t.dec.framelen = BitVec.ofNat 16 (Hdr.frameLen s.cfg s.hdrIn s.freeFmt.toNat) ∧
      t.dec.samples = BitVec.ofNat 16 (Hdr.samples s.hdrIn)) ∧
    (Hdr.valid s.hdrIn = false →
      t.dec.bitrate = 0#16 ∧ t.dec.freq = 0#16 ∧ t.dec.framelen = 0#16 ∧ t.dec.samples = 0#16)

/-- COMPARE completes with DONE on every state and writes CMP, nothing else: H2 valid, and equal version, layer,
sample-rate index and free-ness. H1 need not be valid (42_header_decoder.md R222, R225). -/
def Obligations.CompareWritesCmp : Prop :=
  ∀ s : State, ∃ t, exec .compare s = .next t ∧
    t = { s with cmp := t.cmp, res := 1#4, popCount := 0#24, busy := false } ∧
    (t.cmp = true ↔ Hdr.valid s.hdrIn2 = true ∧
      s.hdrIn.extractLsb' 19 2 = s.hdrIn2.extractLsb' 19 2 ∧ s.hdrIn.extractLsb' 17 2 = s.hdrIn2.extractLsb' 17 2 ∧
      s.hdrIn.extractLsb' 10 2 = s.hdrIn2.extractLsb' 10 2 ∧
      (s.hdrIn.extractLsb' 12 4 = 0#4 ↔ s.hdrIn2.extractLsb' 12 4 = 0#4))

/-! ### The window, CONSUME, ID3, TRAILER -/

/-- A header word is read big-endian, the first byte in bits 31:24, LE32 little-endian, and the synchsafe size as four 7-bit
groups with the top bits ignored (20_memory.md R75, R77, 30_encoding.md R113). -/
def Obligations.MultiByteReads : Prop :=
  (∀ a b c d : Byte, (synchsafe a b c d).toNat =
    a.toNat % 128 * 2097152 + b.toNat % 128 * 16384 + c.toNat % 128 * 128 + d.toNat % 128) ∧
  ∀ (w : List Byte) (j : Nat), j + 4 ≤ w.length →
    (hdr w j).toNat = (byteAt w j).toNat * 16777216 + (byteAt w (j + 1)).toNat * 65536 +
      (byteAt w (j + 2)).toNat * 256 + (byteAt w (j + 3)).toNat ∧
    le32 w j = (byteAt w j).toNat + (byteAt w (j + 1)).toNat * 256 + (byteAt w (j + 2)).toNat * 65536 +
      (byteAt w (j + 3)).toNat * 16777216

/-- CONSUME pops min(cnt, n) bytes from the front and completes with DONE, the byte at offset j + k moving to j; while an
ID3v2 skip is active it is refused (40_window_port.md R151, 20_memory.md R73). -/
def Obligations.ConsumePopsClamped : Prop :=
  ∀ (s : State) (cnt : BitVec 24),
    (s.id3.skipRemain ≠ 0#28 → exec (.consume cnt) s =
      .next { s with res := 5#4, err := s.err ||| 0b010000#6, popCount := 0#24, busy := false }) ∧
    (s.id3.skipRemain = 0#28 → ∃ t k, k = min cnt.toNat s.win.length ∧ exec (.consume cnt) s = .next t ∧
      t = { s with win := t.win, totalParsed := s.totalParsed + BitVec.ofNat 64 k, popCount := BitVec.ofNat 24 k,
                   res := 1#4, busy := false } ∧
      t.win.length = s.win.length - k ∧ ∀ j, byteAt t.win j = byteAt s.win (j + k))

/-- ID3 on an unchecked stream at its start whose window begins with a tag: the fields are latched, the header and as much
of the body as the window holds are popped, and DONE or NEED_MORE says whether the skip is over (41_id3_skipper.md R181,
R182, R183). -/
def Obligations.Id3DetectsAndSkipsTag : Prop :=
  ∀ (s : State) (v r f b6 b7 b8 b9 : Byte) (body : List Byte) (S k : Nat),
    s.id3.checked = false → s.totalParsed = 0#64 →
    s.win = [0x49#8, 0x44#8, 0x33#8, v, r, f, b6, b7, b8, b9] ++ body → (v = 2#8 ∨ v = 3#8 ∨ v = 4#8) →
    S = b6.toNat % 128 * 2097152 + b7.toNat % 128 * 16384 + b8.toNat % 128 * 128 + b9.toNat % 128 → S ≠ 0 →
    k = min body.length S →
    exec .id3 s = .next { s with
      id3 := { checked := true, present := true, ver := v, rev := r, flags := f, size := BitVec.ofNat 28 S,
               skipRemain := BitVec.ofNat 28 (S - k) }
      win := body.drop k
      totalParsed := BitVec.ofNat 64 (10 + k)
      popCount := BitVec.ofNat 24 (10 + k)
      res := if k = S then 1#4 else 2#4
      busy := false }

/-- ID3 on an unchecked stream at its start without a tag: nothing is popped. Ten bytes that are no tag, or a shorter
stream that has ended, complete with DONE and the tag absent; fewer than ten bytes otherwise give NEED_MORE and decide
nothing (41_id3_skipper.md R181, R182). -/
def Obligations.Id3WithoutTagPopsNothing : Prop :=
  ∀ s : State, s.id3.checked = false → s.totalParsed = 0#64 → s.id3.skipRemain = 0#28 →
    (10 ≤ s.win.length →
      (s.win.take 3 ≠ [0x49#8, 0x44#8, 0x33#8] ∨
        (byteAt s.win 3 ≠ 2#8 ∧ byteAt s.win 3 ≠ 3#8 ∧ byteAt s.win 3 ≠ 4#8) ∨
        (∀ j, 6 ≤ j → j ≤ 9 → (byteAt s.win j).toNat % 128 = 0)) →
      exec .id3 s = .next { s with
        id3 := { s.id3 with checked := true, present := false }, res := 1#4, popCount := 0#24, busy := false }) ∧
    (s.win.length < 10 → s.eof = true →
      exec .id3 s = .next { s with
        id3 := { s.id3 with checked := true, present := false }, res := 1#4, popCount := 0#24, busy := false }) ∧
    (s.win.length < 10 → s.eof = false →
      exec .id3 s = .next { s with res := 2#4, popCount := 0#24, busy := false })

/-- ID3 once detection has run: it pops min(n, skip_remain) body bytes, with DONE when none is left to skip and NEED_MORE
otherwise; with none to skip it pops nothing and completes with DONE (41_id3_skipper.md R182, R183). -/
def Obligations.Id3ContinuesBodySkip : Prop :=
  ∀ (s : State) (k : Nat), s.id3.checked = true → k = min s.win.length s.id3.skipRemain.toNat →
    exec .id3 s = .next { s with
      id3 := { s.id3 with skipRemain := BitVec.ofNat 28 (s.id3.skipRemain.toNat - k) }
      win := s.win.drop k
      totalParsed := s.totalParsed + BitVec.ofNat 64 k
      popCount := BitVec.ofNat 24 k
      res := if k = s.id3.skipRemain.toNat then 1#4 else 2#4
      busy := false }

/-- When ID3 ends a skip, total_parsed = 10 + S: the first audio byte is at stream offset 10 + S
(41_id3_skipper.md R184). -/
def Obligations.SkipEndsAtTenPlusSize : Prop :=
  ∀ s t : State, Invariant s → exec .id3 s = .next t → t.res = 1#4 →
    (s.id3.skipRemain ≠ 0#28 ∨ (s.id3.checked = false ∧ t.id3.present = true)) →
    t.id3.skipRemain = 0#28 ∧ t.totalParsed.toNat = 10 + t.id3.size.toNat

/-- TRAILER at the end of a stream with no skip active: what it finds, block by block from the end, its unclipped length,
and with CUT the clipped removal of the window's tail; it pops nothing (41_id3_skipper.md R185, R186, R187). -/
def Obligations.TrailerMeasuresAndCuts : Prop :=
  ∀ (s : State) (cut v1 ext ape : Bool) (t0 len : Nat),
    s.eof = true → s.id3.skipRemain = 0#28 →
    (v1 = true ↔ ∃ pre tag : List Byte, s.win = pre ++ tag ∧ tag.length = 128 ∧ tag.take 3 = [0x54#8, 0x41#8, 0x47#8]) →
    (ext = true ↔ ∃ pre e tag : List Byte, s.win = pre ++ e ++ tag ∧ tag.length = 128 ∧
      tag.take 3 = [0x54#8, 0x41#8, 0x47#8] ∧ e.length = 227 ∧ e.take 4 = [0x54#8, 0x41#8, 0x47#8, 0x2B#8]) →
    t0 = (if ext then 355 else if v1 then 128 else 0) →
    (ape = true ↔ v1 = true ∧ ∃ pre tail : List Byte, s.win = pre ++ tail ∧ tail.length = t0 + s.cfg.apeFooterLen ∧
      tail.take 8 = [0x41#8, 0x50#8, 0x45#8, 0x54#8, 0x41#8, 0x47#8, 0x45#8, 0x58#8]) →
    len = (if ape then t0 + le32 s.win (s.win.length - t0 - s.cfg.apeFooterLen + s.cfg.apeSizeOffset) +
      s.cfg.apeHeaderAdjust else t0) →
    exec (.trailer cut) s = .next { s with
      trl := { v1 := v1, ext := ext, ape := ape, len := BitVec.ofNat 64 len }
      win := if cut then s.win.take (s.win.length - min len s.win.length) else s.win
      res := 1#4
      popCount := 0#24
      busy := false }

/-! ### SCAN -/

/-- Wherever no ID3v2 skip is active, SCAN completes, with FOUND or NEED_MORE (43_sync_scanner.md R250, R262). F is then as it
was; or 0, where the chain of a free-format candidate was rejected under the F that was; or what the frame found taught, which
is then a free-format frame that the search accepted (R258). -/
def Obligations.ScanCompletesAndUpdatesFreeFormat : Prop :=
  ∀ (s : State) (hold : Bool), s.id3.skipRemain = 0#28 →
    ∃ t, exec (.scan hold) s = .next t ∧ (t.res = 3#4 ∨ t.res = 2#4) ∧
      (t.freeFmt = s.freeFmt ∨
        (t.freeFmt = 0#16 ∧ ∃ j, j + 4 ≤ s.win.length ∧ Hdr.valid (hdr s.win j) = true ∧ Hdr.free (hdr s.win j) = true ∧
          ChainRejects s s.freeFmt.toNat j) ∨
        (t.res = 3#4 ∧ ∃ i k, FreeAccepts s i k ∧ Hdr.valid (hdr s.win i) = true ∧ Hdr.free (hdr s.win i) = true ∧
          t.freeFmt.toNat = k - Hdr.p (hdr s.win i) ∧ t = foundState s hold i (hdr s.win i) k t.freeFmt))

/-- ACCEPT on corroborations: where the first valid header, of known length, has ten corroborations, or at least one and a final
window (at the end of the stream, or full with the candidate at its front) that ends before the next header does, SCAN
reports FOUND there with the length of its own header, loads the decode registers and pops the frame and the bytes before it,
the latter alone with HOLD (43_sync_scanner.md R252, R253, R255, R259, R261). -/
def Obligations.ScanAcceptsCorroboratedFrame : Prop :=
  ∀ (s : State) (hold : Bool) (i m : Nat) (H : Word), FirstCandidate s i H → KnownLength s H →
    Corroborated s s.freeFmt.toNat i m →
    (m = 10 ∨ 1 ≤ m ∧ m < 10 ∧ Final s i ∧ s.win.length < chainOffset s s.freeFmt.toNat i (m + 1) + 4) →
    exec (.scan hold) s = .next (foundState s hold i H (Hdr.frameLen s.cfg H s.freeFmt.toNat) s.freeFmt)

/-- The lone final frame: at the end of the stream the first valid header, of known length, is FOUND where its frame ends
exactly at the window's end, at whatever offset (43_sync_scanner.md R256). -/
def Obligations.ScanAcceptsLoneFinalFrame : Prop :=
  ∀ (s : State) (hold : Bool) (i : Nat) (H : Word), FirstCandidate s i H → KnownLength s H → s.eof = true →
    i + Hdr.frameLen s.cfg H s.freeFmt.toNat = s.win.length →
    exec (.scan hold) s = .next (foundState s hold i H (Hdr.frameLen s.cfg H s.freeFmt.toNat) s.freeFmt)

/-- The free-format search: with F = 0, or with an F whose chain rejects the candidate, the first valid header, free-format,
its second and third occurrence first both found at k, is FOUND with length k, and SCAN learns F = k − pad
(43_sync_scanner.md R253, R254, R257, R258). -/
def Obligations.ScanLearnsFreeFormatLength : Prop :=
  ∀ (s : State) (hold : Bool) (i k : Nat) (H : Word), FirstCandidate s i H → SearchesFree s i H → FreeAccepts s i k →
    exec (.scan hold) s = .next (foundState s hold i H k (BitVec.ofNat 16 (k - Hdr.p H)))

/-- NEED_MORE at the first valid header: in a window that is not final its chain runs out, after fewer than ten
corroborations, or its free-format search does, before the second or the third occurrence. SCAN pops the bytes before it and
changes nothing else but F, which is 0 where a chain was rejected before the search
(43_sync_scanner.md R252, R255, R256, R257, R258, R260). -/
def Obligations.ScanNeedsMoreForCandidate : Prop :=
  ∀ (s : State) (hold : Bool) (i : Nat) (H : Word) (F : BitVec 16), FirstCandidate s i H →
    (KnownLength s H ∧ ChainRunsOut s s.freeFmt.toNat i ∧ F = s.freeFmt ∨
      SearchesFree s i H ∧ FreeRunsOut s i ∧ F = 0#16) →
    exec (.scan hold) s = .next { s with
      freeFmt := F
      win := s.win.drop i
      totalParsed := s.totalParsed + BitVec.ofNat 64 i
      popCount := BitVec.ofNat 24 i
      res := 2#4
      busy := false }

/-- REJECT of the first valid header, by its chain where it is not free-format, by its free-format search where it is: SCAN goes
on one byte past it, as a SCAN of the window from there on would, with F = 0 after a rejected search. Places and counts are
those from the window's front, so the candidate is not what it reports
(43_sync_scanner.md R252, R253, R255, R256, R257, R258). -/
def Obligations.ScanGoesOnPastRejectedCandidate : Prop :=
  ∀ (s : State) (hold : Bool) (i : Nat) (H : Word) (F : BitVec 16),
    s.cfg.winCap ≤ 16777215 → Memory.wf s.cfg.winCap s.win = true → FirstCandidate s i H →
    (Hdr.free H = false ∧ ChainRejects s s.freeFmt.toNat i ∧ F = s.freeFmt ∨
      SearchesFree s i H ∧ FreeRejects s i ∧ F = 0#16) →
    ∃ t u, exec (.scan hold) s = .next t ∧
      exec (.scan hold) { s with
        freeFmt := F, win := s.win.drop (i + 1), totalParsed := s.totalParsed + BitVec.ofNat 64 (i + 1) } = .next u ∧
      t = { u with
        popCount := u.popCount + BitVec.ofNat 24 (i + 1)
        scan := if u.res = 3#4 then { u.scan with off := u.scan.off + BitVec.ofNat 24 (i + 1) } else s.scan } ∧
      i < t.popCount.toNat ∧ (t.res = 3#4 → i < t.scan.off.toNat)

/-- A window without a valid header gives NEED_MORE: all but its last up to three bytes are popped, or all of it at the
end of the stream (43_sync_scanner.md R262). -/
def Obligations.ScanExhaustsWindow : Prop :=
  ∀ (s : State) (hold : Bool) (k : Nat), s.id3.skipRemain = 0#28 →
    (∀ i, i + 4 ≤ s.win.length → Hdr.valid (hdr s.win i) = false) →
    k = (if s.eof then s.win.length else s.win.length - 3) →
    exec (.scan hold) s = .next { s with
      win := s.win.drop k
      totalParsed := s.totalParsed + BitVec.ofNat 64 k
      popCount := BitVec.ofNat 24 k
      res := 2#4
      busy := false }

/-- What FOUND reports: a frame that lies in the window, whose header is valid, whose length is that header's under the F
just committed, and which a compare-equal header follows at once or which ends at the stream's end. Position, length,
count, decode registers and pop are those of that frame (43_sync_scanner.md R259). A frame that is not free-format leaves F,
or F is 0 by a candidate rejected before it (R258; ScanCompletesAndUpdatesFreeFormat says when); a free-format frame has F
known (10_state.md R44). Under the invariant its length is not 0 (10_state.md R55), nor is SCAN_LEN where the length fits its 16
bits, as it does under the default tables, being at most 2881 (00_scope.md R7; 42_header_decoder.md R226, the spec's own
inference). That a longer one is stored modulo 2^16 is the model's choice (log 13). -/
def Obligations.FoundFrameIsCorroborated : Prop :=
  ∀ (s t : State) (hold : Bool), exec (.scan hold) s = .next t → t.res = 3#4 →
    ∃ i L, i + 4 ≤ s.win.length ∧ i + L ≤ s.win.length ∧ Hdr.valid (hdr s.win i) = true ∧
      L = Hdr.frameLen s.cfg (hdr s.win i) t.freeFmt.toNat ∧
      ((i + L + 4 ≤ s.win.length ∧ Hdr.compare (hdr s.win i) (hdr s.win (i + L)) = true) ∨
        (s.eof = true ∧ i + L = s.win.length)) ∧
      t = foundState s hold i (hdr s.win i) L t.freeFmt ∧
      (Hdr.free (hdr s.win i) = false → t.freeFmt = s.freeFmt ∨ t.freeFmt = 0#16) ∧
      (Hdr.free (hdr s.win i) = true → t.freeFmt ≠ 0#16) ∧
      (Invariant s → 1 ≤ L ∧ (L < 65536 → t.scan.len ≠ 0#16) ∧
        (s.cfg.bitrateTable = defaultBitrateTable → s.cfg.freqTable = defaultFreqTable → L ≤ 2881 ∧ t.scan.len ≠ 0#16))

/-- In a window that is not final, FOUND is a frame with ten corroborations under the F committed, or a free-format frame that the
search for a second and a third occurrence accepted (43_sync_scanner.md R252, R255, R257). -/
def Obligations.NonFinalFoundIsFullyCorroborated : Prop :=
  ∀ (s t : State) (hold : Bool), s.eof = false → s.win.length ≠ s.cfg.winCap →
    exec (.scan hold) s = .next t → t.res = 3#4 →
    ∃ i L, t = foundState s hold i (hdr s.win i) L t.freeFmt ∧
      (Corroborated s t.freeFmt.toNat i 10 ∧ L = Hdr.frameLen s.cfg (hdr s.win i) t.freeFmt.toNat ∨
        Hdr.free (hdr s.win i) = true ∧ FreeAccepts s i L ∧ t.freeFmt.toNat = L - Hdr.p (hdr s.win i))

/-- HOLD leaves the accepted frame at the window's front, and a second SCAN hold finds it again there: FOUND_COUNT goes up a
second time, SCAN_POS and SCAN_LEN stay (43_sync_scanner.md R261). The one case apart is a free-format frame whose chain,
under the F that the first SCAN committed, runs out of a window that is not final: by R255 the second SCAN then answers
NEED_MORE, popping nothing, which is the model's reading (log 15). -/
def Obligations.HoldFindsSameFrameAgain : Prop :=
  ∀ s t : State, exec (.scan true) s = .next t → t.res = 3#4 →
    hdr t.win 0 = t.dec.raw ∧
    (¬ ChainRunsOut t t.freeFmt.toNat 0 →
      exec (.scan true) t = .next { t with
        scan := { t.scan with off := 0#24 }, foundCount := t.foundCount + 1#32, popCount := 0#24 }) ∧
    (ChainRunsOut t t.freeFmt.toNat 0 → Hdr.free t.dec.raw = true ∧
      exec (.scan true) t = .next { t with res := 2#4, popCount := 0#24 })

/-- A SCAN on a partly filled window never takes a decision that more bytes would change: what it FINDS, it finds in every
longer window, at the end of the stream or not, with the same results (43_sync_scanner.md R263,
70_reset_and_hazards.md R354, the spec's own inferences). -/
def Obligations.MoreBytesKeepFoundFrame : Prop :=
  ∀ (s t : State) (hold e : Bool) (x : List Byte), s.eof = false → s.win.length ≠ s.cfg.winCap →
    exec (.scan hold) s = .next t → t.res = 3#4 →
    exec (.scan hold) { s with win := s.win ++ x, eof := e } = .next { t with win := t.win ++ x, eof := e }

/-- Chunk-size invariance of one SCAN: a SCAN that ends in NEED_MORE, followed by more bytes and a second SCAN, ends as one
SCAN on all the bytes at once does, but for SCAN_OFF and POP_COUNT, which count from the window's front
(43_sync_scanner.md R260, R262, and R263, the spec's own inference). -/
def Obligations.ScanResumesAsIfUninterrupted : Prop :=
  ∀ (s t : State) (hold e : Bool) (x : List Byte), s.eof = false → s.win.length ≠ s.cfg.winCap →
    s.win.length + x.length ≤ s.cfg.winCap →
    exec (.scan hold) s = .next t → t.res = 2#4 →
    ∃ u v, exec (.scan hold) { t with win := t.win ++ x, eof := e } = .next u ∧
      exec (.scan hold) { s with win := s.win ++ x, eof := e } = .next v ∧
      u = { v with popCount := u.popCount, scan := { v.scan with off := u.scan.off } }

/-- No deadlock: after NEED_MORE with eof = 0 there is room for a byte (70_reset_and_hazards.md R361, the spec's own inference). -/
def Obligations.NeedMoreLeavesRoomToPush : Prop :=
  ∀ (s t : State) (i : Instr), Invariant s → (i = .id3 ∨ ∃ hold, i = .scan hold) → exec i s = .next t →
    t.res = 2#4 → t.eof = false → t.win.length < t.cfg.winCap

/-! ### Errors and results, over all instructions -/

/-- A refused command changes nothing but RES, ERR.STATE, POP_COUNT and BUSY, and these are exactly the states in which a
command is refused: no command ends in ERR_STATE in another (60_exceptions.md R304). -/
def Obligations.RefusedCommandChangesNothing : Prop :=
  ∀ s r : State, r = { s with res := 5#4, err := s.err ||| 0b010000#6, popCount := 0#24, busy := false } →
    (s.id3.checked = false → s.totalParsed ≠ 0#64 → exec .id3 s = .next r) ∧
    (s.id3.skipRemain ≠ 0#28 → ∀ hold, exec (.scan hold) s = .next r) ∧
    (s.eof = false ∨ s.id3.skipRemain ≠ 0#28 → ∀ cut, exec (.trailer cut) s = .next r) ∧
    (s.id3.skipRemain ≠ 0#28 → ∀ cnt, exec (.consume cnt) s = .next r) ∧
    ∀ (i : Instr) (t : State), i.isCommand = true → exec i s = .next t → t.res = 5#4 →
      (i = .id3 ∧ s.id3.checked = false ∧ s.totalParsed ≠ 0#64) ∨
      (s.id3.skipRemain ≠ 0#28 ∧ ((∃ hold, i = .scan hold) ∨ ∃ cnt, i = .consume cnt)) ∨
      ((s.eof = false ∨ s.id3.skipRemain ≠ 0#28) ∧ ∃ cut, i = .trailer cut)

/-- The result codes each instruction can leave: the table of 60_exceptions.md R301, with ERR_STATE in exactly the states of
R304 and ERR_CMD only from a CMD write; no other bus operation writes res. -/
def Obligations.ResultCodesByInstruction : Prop :=
  ∀ s t : State,
    (∀ i, i ∈ [Instr.nop, .decode, .compare] → exec i s = .next t → t.res = 1#4) ∧
    (exec .reset s = .next t → t.res = 0#4) ∧
    (exec .id3 s = .next t → (s.id3.checked = true ∨ s.totalParsed = 0#64) → t.res = 1#4 ∨ t.res = 2#4) ∧
    (∀ hold, exec (.scan hold) s = .next t → s.id3.skipRemain = 0#28 → t.res = 2#4 ∨ t.res = 3#4) ∧
    (∀ cut, exec (.trailer cut) s = .next t → s.eof = true → s.id3.skipRemain = 0#28 → t.res = 1#4) ∧
    (∀ cnt, exec (.consume cnt) s = .next t → s.id3.skipRemain = 0#28 → t.res = 1#4) ∧
    (∀ d, exec (.issue d) s = .next t → t.res = s.res ∨ t.res = 4#4) ∧
    (∀ i, i.isCommand = false → (∀ d, i ≠ .issue d) → exec i s = .next t → t.res = s.res)

/-- Each host access sets at most one error bit, and a completion at most STATE (60_exceptions.md R309, R310). -/
def Obligations.OneErrorBitPerStep : Prop :=
  ∀ (i : Instr) (s t : State), i ≠ .reset → (∀ d, i ≠ .clearErr d) → exec i s = .next t →
    t.err = s.err ∨
    (i.isCommand = false ∧ ∃ b : ErrBit, b ≠ .state ∧ t.err = s.err ||| b.mask) ∨
    (i.isCommand = true ∧ t.err = s.err ||| ErrBit.state.mask ∧ t.res = 5#4)

/-- A write to a read-only, unmapped or misaligned offset is ignored and sets ERR.BAD_ADDR, busy or not; a read at an
unmapped or misaligned offset returns 0 and sets it; a read of DATA_IN returns 0 and sets no error bit
(10_state.md R62, 60_exceptions.md R308). -/
def Obligations.BadAccessesTouchNoRegister : Prop :=
  ∀ (s : State) (off : Offset) (d : Word) (rest : List Event),
    (off ∉ [0x004#12, 0x00C#12, 0x010#12, 0x014#12, 0x020#12, 0x03C#12, 0x040#12] →
      step { s with agenda := .wr (addressOf s.cfg off) d :: rest } =
        .next { s with agenda := rest, err := s.err ||| 0b100000#6 }) ∧
    (off.toNat % 4 ≠ 0 ∨ 128 ≤ off.toNat →
      step { s with agenda := .rd (addressOf s.cfg off) :: rest } =
        .next { s with agenda := rest, rdata := 0#32, err := s.err ||| 0b100000#6 }) ∧
    step { s with agenda := .rd (addressOf s.cfg 0x014#12) :: rest } = .next { s with agenda := rest, rdata := 0#32 }

/-- Each register has one writer: what each command leaves unchanged when it completes (10_state.md R44, R57, R65,
43_sync_scanner.md R258). -/
def Obligations.CommandsWriteOnlyTheirRegisters : Prop :=
  ∀ (i : Instr) (s t : State), i.isCommand = true → i ≠ .reset → exec i s = .next t →
    t.cfg = s.cfg ∧ t.agenda = s.agenda ∧ t.rdata = s.rdata ∧ t.eof = s.eof ∧ t.pending = s.pending ∧
    t.cmdLast = s.cmdLast ∧ t.hdrIn = s.hdrIn ∧ t.hdrIn2 = s.hdrIn2 ∧ t.winRaddr = s.winRaddr ∧ t.busy = false ∧
    (i ≠ .compare → t.cmp = s.cmp) ∧ (i ≠ .id3 → t.id3 = s.id3) ∧
    ((∀ cut, i ≠ .trailer cut) → t.trl = s.trl) ∧
    ((∀ hold, i ≠ .scan hold) → t.freeFmt = s.freeFmt ∧ t.scan = s.scan ∧ t.foundCount = s.foundCount) ∧
    ((∀ hold, i ≠ .scan hold) → i ≠ .decode → t.dec = s.dec) ∧
    (t.res ≠ 3#4 → t.scan = s.scan ∧ t.foundCount = s.foundCount ∧ (i ≠ .decode → t.dec = s.dec))

/-- What a bus operation can change: never a result register, the stream position, the ID3 or trailer state
(20_memory.md R85, 70_reset_and_hazards.md R357). -/
def Obligations.BusOperationsKeepResults : Prop :=
  ∀ (i : Instr) (s t : State), i.isCommand = false → exec i s = .next t →
    t = { s with rdata := t.rdata, win := t.win, eof := t.eof, busy := t.busy, pending := t.pending, res := t.res,
                 err := t.err, cmdLast := t.cmdLast, hdrIn := t.hdrIn, hdrIn2 := t.hdrIn2, winRaddr := t.winRaddr } ∧
    ((∀ d, i ≠ .push d) → t.win = s.win)

/-- POP_COUNT and TOTAL account for every byte a command takes from the window's front; TRAILER takes from the end only
(10_state.md R32, R46, 20_memory.md R73, R74). -/
def Obligations.PopAccounting : Prop :=
  ∀ (i : Instr) (s t : State), s.cfg.winCap ≤ 16777215 → Memory.wf s.cfg.winCap s.win = true →
    i.isCommand = true → i ≠ .reset → exec i s = .next t →
    t.totalParsed = s.totalParsed + t.popCount.setWidth 64 ∧
    ((∀ cut, i ≠ .trailer cut) → t.win = s.win.drop t.popCount.toNat) ∧
    (∀ cut, i = .trailer cut → t.popCount = 0#24 ∧ ∃ tail, s.win = t.win ++ tail)

/-- The pending command's result does not depend on what the host does between issue and completion, but for ERR,
WIN_RADDR and the value the host read (20_memory.md R85, the spec's own inference). -/
def Obligations.CompletionIgnoresHostAccesses : Prop :=
  ∀ (s t u : State) (i c : Instr), s.busy = true → decodeCmd s.pending = .instr c → i.isCommand = false →
    exec i s = .next t → exec c s = .next u →
    t.busy = true ∧ t.pending = s.pending ∧
    ∃ v, exec c t = .next v ∧ v = { u with err := v.err, winRaddr := v.winRaddr, rdata := t.rdata }

/-! ### Decoding, the step and the whole machine -/

/-- Decode of encode is the instruction, for every well-formed instruction with every operand value
(30_encoding.md R100–R105, R117). -/
def Obligations.DecodeOfEncode : Prop :=
  ∀ i : Instr, i.wf = true → decode (encode i) = .instr i

/-- Encode of decode is the operation: no two operations are one instruction and no bit is dropped
(30_encoding.md R104, R117). -/
def Obligations.EncodeOfDecode : Prop :=
  ∀ (o : OpWord) (i : Instr), decode o = .instr i → encode i = o ∧ i.wf = true

/-- A few words written out from 30_encoding.md R101, R102 and 10_state.md R31 decode to what they stand for. -/
def Obligations.WrittenWordsDecode : Prop :=
  decode (.cmd 0x00000002#32) = .instr .decode ∧ decode (.cmd 0x00000105#32) = .instr (.scan true) ∧
  decode (.cmd 0x00000006#32) = .instr (.trailer false) ∧ decode (.cmd 0xABCDEF07#32) = .instr (.consume 0xABCDEF#24) ∧
  decode (.cmd 0x00000205#32) = .bad .reservedArg ∧ decode (.cmd 0x00000008#32) = .bad .reservedOp ∧
  decode (.wr 0x014#12 0x1FF#32) = .instr (.push 0x1FF#32) ∧ decode (.wr 0x010#12 5#32) = .instr (.issue 5#32) ∧
  decode (.rd 0x024#12) = .instr .peek ∧ decode (.rd 0x008#12) = .instr (.read 0x008#12) ∧
  decode (.wr 0x000#12 0#32) = .bad .readOnlyWrite

/-- A step runs the decoded instruction: a bus operation at the head of the agenda, or the pending command at the engine's
turn, with the event taken off the agenda and nothing else around it (20_memory.md R83, R84). How the next event is chosen
is the model's (log 1). -/
def Obligations.StepRunsDecodedInstruction : Prop :=
  ∀ (s : State) (rest : List Event) (i : Instr),
    (∀ off d, decode (.wr off d) = .instr i →
      step { s with agenda := .wr (addressOf s.cfg off) d :: rest } = exec i { s with agenda := rest }) ∧
    (∀ off, decode (.rd off) = .instr i →
      step { s with agenda := .rd (addressOf s.cfg off) :: rest } = exec i { s with agenda := rest }) ∧
    (s.busy = true → decode (.cmd s.pending) = .instr i →
      step { s with agenda := .engine :: rest } = exec i { s with agenda := rest } ∧
      step { s with agenda := [] } = exec i { s with agenda := [] })

/-- The engine takes no step between commands (60_exceptions.md R318). That an idle block with no event to come stays as it is,
is the model's choice (log 1); that an access outside the block's 4 KiB (20_memory.md R82) does not reach it, is the model's
inference (log 5). -/
def Obligations.IdleBlockIsQuiescent : Prop :=
  ∀ (s : State) (rest : List Event),
    (s.busy = false → step { s with agenda := .engine :: rest } = .next { s with agenda := rest } ∧
      step { s with agenda := [] } = .next { s with agenda := [] }) ∧
    (∀ addr d, addr < s.cfg.mfsdBase ∨ s.cfg.mfsdBase + 4096 ≤ addr →
      step { s with agenda := .wr addr d :: rest } = .next { s with agenda := rest } ∧
      step { s with agenda := .rd addr :: rest } = .next { s with agenda := rest })

/-- While busy = 0, `pending` is not read: changing it changes nothing else of the next state (10_state.md R64(b), the spec's own
inference). -/
def Obligations.PendingUnreadWhileIdle : Prop :=
  ∀ (s t : State) (w : Word), s.busy = false → step s = .next t →
    ∃ u, step { s with pending := w } = .next u ∧ u = { t with pending := u.pending }

/-- The invariants of 10_state.md R64 (the spec's own inference) hold right after reset, whatever events are to come. -/
def Obligations.InvariantsHoldAtReset : Prop := ∀ s : State, Initial s → Invariant s

/-- From every state that meets the invariants of 10_state.md R64 (the spec's own inference) the machine takes a step, and the next state meets them;
the parameters stay. -/
def Obligations.EveryStepKeepsInvariants : Prop :=
  ∀ s : State, Invariant s → ∃ t, step s = .next t ∧ Invariant t ∧ t.cfg = s.cfg

/-- No outcome stops the machine: from every state that meets the invariants, every run goes on, and each of its states meets
them (60_exceptions.md R300, 10_state.md R64). -/
def Obligations.RunsNeverStop : Prop :=
  ∀ s : State, Invariant s → Safe s ∧ ∀ k t, Host.Core.run Sys2Proof.core k s = .next t → Invariant t
end

