-- ==== Sys2Proof/Laws/State.lean ====
section
/-! SUPPORT. One lemma per field per shared update, true by rfl: later proofs never unfold a record update. -/

namespace Sys2Proof.Machine

/-! `raise` -/

@[simp] theorem raise_cfg (b : ErrBit) (s : State) : (raise b s).cfg = s.cfg := rfl
@[simp] theorem raise_agenda (b : ErrBit) (s : State) : (raise b s).agenda = s.agenda := rfl
@[simp] theorem raise_rdata (b : ErrBit) (s : State) : (raise b s).rdata = s.rdata := rfl
@[simp] theorem raise_win (b : ErrBit) (s : State) : (raise b s).win = s.win := rfl
@[simp] theorem raise_eof (b : ErrBit) (s : State) : (raise b s).eof = s.eof := rfl
@[simp] theorem raise_busy (b : ErrBit) (s : State) : (raise b s).busy = s.busy := rfl
@[simp] theorem raise_pending (b : ErrBit) (s : State) : (raise b s).pending = s.pending := rfl
@[simp] theorem raise_res (b : ErrBit) (s : State) : (raise b s).res = s.res := rfl
@[simp] theorem raise_cmp (b : ErrBit) (s : State) : (raise b s).cmp = s.cmp := rfl
@[simp] theorem raise_err (b : ErrBit) (s : State) : (raise b s).err = s.err ||| b.mask := rfl
@[simp] theorem raise_cmdLast (b : ErrBit) (s : State) : (raise b s).cmdLast = s.cmdLast := rfl
@[simp] theorem raise_hdrIn (b : ErrBit) (s : State) : (raise b s).hdrIn = s.hdrIn := rfl
@[simp] theorem raise_hdrIn2 (b : ErrBit) (s : State) : (raise b s).hdrIn2 = s.hdrIn2 := rfl
@[simp] theorem raise_winRaddr (b : ErrBit) (s : State) : (raise b s).winRaddr = s.winRaddr := rfl
@[simp] theorem raise_totalParsed (b : ErrBit) (s : State) : (raise b s).totalParsed = s.totalParsed := rfl
@[simp] theorem raise_freeFmt (b : ErrBit) (s : State) : (raise b s).freeFmt = s.freeFmt := rfl
@[simp] theorem raise_foundCount (b : ErrBit) (s : State) : (raise b s).foundCount = s.foundCount := rfl
@[simp] theorem raise_popCount (b : ErrBit) (s : State) : (raise b s).popCount = s.popCount := rfl
@[simp] theorem raise_dec (b : ErrBit) (s : State) : (raise b s).dec = s.dec := rfl
@[simp] theorem raise_scan (b : ErrBit) (s : State) : (raise b s).scan = s.scan := rfl
@[simp] theorem raise_id3 (b : ErrBit) (s : State) : (raise b s).id3 = s.id3 := rfl
@[simp] theorem raise_trl (b : ErrBit) (s : State) : (raise b s).trl = s.trl := rfl

/-! `push` -/

@[simp] theorem push_cfg (b : Byte) (s : State) : (push b s).cfg = s.cfg := rfl
@[simp] theorem push_agenda (b : Byte) (s : State) : (push b s).agenda = s.agenda := rfl
@[simp] theorem push_rdata (b : Byte) (s : State) : (push b s).rdata = s.rdata := rfl
@[simp] theorem push_win (b : Byte) (s : State) : (push b s).win = s.win ++ [b] := rfl
@[simp] theorem push_eof (b : Byte) (s : State) : (push b s).eof = s.eof := rfl
@[simp] theorem push_busy (b : Byte) (s : State) : (push b s).busy = s.busy := rfl
@[simp] theorem push_pending (b : Byte) (s : State) : (push b s).pending = s.pending := rfl
@[simp] theorem push_res (b : Byte) (s : State) : (push b s).res = s.res := rfl
@[simp] theorem push_cmp (b : Byte) (s : State) : (push b s).cmp = s.cmp := rfl
@[simp] theorem push_err (b : Byte) (s : State) : (push b s).err = s.err := rfl
@[simp] theorem push_cmdLast (b : Byte) (s : State) : (push b s).cmdLast = s.cmdLast := rfl
@[simp] theorem push_hdrIn (b : Byte) (s : State) : (push b s).hdrIn = s.hdrIn := rfl
@[simp] theorem push_hdrIn2 (b : Byte) (s : State) : (push b s).hdrIn2 = s.hdrIn2 := rfl
@[simp] theorem push_winRaddr (b : Byte) (s : State) : (push b s).winRaddr = s.winRaddr := rfl
@[simp] theorem push_totalParsed (b : Byte) (s : State) : (push b s).totalParsed = s.totalParsed := rfl
@[simp] theorem push_freeFmt (b : Byte) (s : State) : (push b s).freeFmt = s.freeFmt := rfl
@[simp] theorem push_foundCount (b : Byte) (s : State) : (push b s).foundCount = s.foundCount := rfl
@[simp] theorem push_popCount (b : Byte) (s : State) : (push b s).popCount = s.popCount := rfl
@[simp] theorem push_dec (b : Byte) (s : State) : (push b s).dec = s.dec := rfl
@[simp] theorem push_scan (b : Byte) (s : State) : (push b s).scan = s.scan := rfl
@[simp] theorem push_id3 (b : Byte) (s : State) : (push b s).id3 = s.id3 := rfl
@[simp] theorem push_trl (b : Byte) (s : State) : (push b s).trl = s.trl := rfl

/-! `Run.pop` -/

@[simp] theorem pop_cfg (k : Nat) (r : Run) : ((r.pop k).st).cfg = r.st.cfg := rfl
@[simp] theorem pop_agenda (k : Nat) (r : Run) : ((r.pop k).st).agenda = r.st.agenda := rfl
@[simp] theorem pop_rdata (k : Nat) (r : Run) : ((r.pop k).st).rdata = r.st.rdata := rfl
@[simp] theorem pop_win (k : Nat) (r : Run) : ((r.pop k).st).win = r.st.win.drop k := rfl
@[simp] theorem pop_eof (k : Nat) (r : Run) : ((r.pop k).st).eof = r.st.eof := rfl
@[simp] theorem pop_busy (k : Nat) (r : Run) : ((r.pop k).st).busy = r.st.busy := rfl
@[simp] theorem pop_pending (k : Nat) (r : Run) : ((r.pop k).st).pending = r.st.pending := rfl
@[simp] theorem pop_res (k : Nat) (r : Run) : ((r.pop k).st).res = r.st.res := rfl
@[simp] theorem pop_cmp (k : Nat) (r : Run) : ((r.pop k).st).cmp = r.st.cmp := rfl
@[simp] theorem pop_err (k : Nat) (r : Run) : ((r.pop k).st).err = r.st.err := rfl
@[simp] theorem pop_cmdLast (k : Nat) (r : Run) : ((r.pop k).st).cmdLast = r.st.cmdLast := rfl
@[simp] theorem pop_hdrIn (k : Nat) (r : Run) : ((r.pop k).st).hdrIn = r.st.hdrIn := rfl
@[simp] theorem pop_hdrIn2 (k : Nat) (r : Run) : ((r.pop k).st).hdrIn2 = r.st.hdrIn2 := rfl
@[simp] theorem pop_winRaddr (k : Nat) (r : Run) : ((r.pop k).st).winRaddr = r.st.winRaddr := rfl
@[simp] theorem pop_totalParsed (k : Nat) (r : Run) : ((r.pop k).st).totalParsed = r.st.totalParsed + BitVec.ofNat 64 k := rfl
@[simp] theorem pop_freeFmt (k : Nat) (r : Run) : ((r.pop k).st).freeFmt = r.st.freeFmt := rfl
@[simp] theorem pop_foundCount (k : Nat) (r : Run) : ((r.pop k).st).foundCount = r.st.foundCount := rfl
@[simp] theorem pop_popCount (k : Nat) (r : Run) : ((r.pop k).st).popCount = r.st.popCount := rfl
@[simp] theorem pop_dec (k : Nat) (r : Run) : ((r.pop k).st).dec = r.st.dec := rfl
@[simp] theorem pop_scan (k : Nat) (r : Run) : ((r.pop k).st).scan = r.st.scan := rfl
@[simp] theorem pop_id3 (k : Nat) (r : Run) : ((r.pop k).st).id3 = r.st.id3 := rfl
@[simp] theorem pop_trl (k : Nat) (r : Run) : ((r.pop k).st).trl = r.st.trl := rfl

/-! `Run.cutTail` -/

@[simp] theorem cutTail_cfg (k : Nat) (r : Run) : ((r.cutTail k).st).cfg = r.st.cfg := rfl
@[simp] theorem cutTail_agenda (k : Nat) (r : Run) : ((r.cutTail k).st).agenda = r.st.agenda := rfl
@[simp] theorem cutTail_rdata (k : Nat) (r : Run) : ((r.cutTail k).st).rdata = r.st.rdata := rfl
@[simp] theorem cutTail_win (k : Nat) (r : Run) : ((r.cutTail k).st).win = r.st.win.take (r.st.win.length - k) := rfl
@[simp] theorem cutTail_eof (k : Nat) (r : Run) : ((r.cutTail k).st).eof = r.st.eof := rfl
@[simp] theorem cutTail_busy (k : Nat) (r : Run) : ((r.cutTail k).st).busy = r.st.busy := rfl
@[simp] theorem cutTail_pending (k : Nat) (r : Run) : ((r.cutTail k).st).pending = r.st.pending := rfl
@[simp] theorem cutTail_res (k : Nat) (r : Run) : ((r.cutTail k).st).res = r.st.res := rfl
@[simp] theorem cutTail_cmp (k : Nat) (r : Run) : ((r.cutTail k).st).cmp = r.st.cmp := rfl
@[simp] theorem cutTail_err (k : Nat) (r : Run) : ((r.cutTail k).st).err = r.st.err := rfl
@[simp] theorem cutTail_cmdLast (k : Nat) (r : Run) : ((r.cutTail k).st).cmdLast = r.st.cmdLast := rfl
@[simp] theorem cutTail_hdrIn (k : Nat) (r : Run) : ((r.cutTail k).st).hdrIn = r.st.hdrIn := rfl
@[simp] theorem cutTail_hdrIn2 (k : Nat) (r : Run) : ((r.cutTail k).st).hdrIn2 = r.st.hdrIn2 := rfl
@[simp] theorem cutTail_winRaddr (k : Nat) (r : Run) : ((r.cutTail k).st).winRaddr = r.st.winRaddr := rfl
@[simp] theorem cutTail_totalParsed (k : Nat) (r : Run) : ((r.cutTail k).st).totalParsed = r.st.totalParsed := rfl
@[simp] theorem cutTail_freeFmt (k : Nat) (r : Run) : ((r.cutTail k).st).freeFmt = r.st.freeFmt := rfl
@[simp] theorem cutTail_foundCount (k : Nat) (r : Run) : ((r.cutTail k).st).foundCount = r.st.foundCount := rfl
@[simp] theorem cutTail_popCount (k : Nat) (r : Run) : ((r.cutTail k).st).popCount = r.st.popCount := rfl
@[simp] theorem cutTail_dec (k : Nat) (r : Run) : ((r.cutTail k).st).dec = r.st.dec := rfl
@[simp] theorem cutTail_scan (k : Nat) (r : Run) : ((r.cutTail k).st).scan = r.st.scan := rfl
@[simp] theorem cutTail_id3 (k : Nat) (r : Run) : ((r.cutTail k).st).id3 = r.st.id3 := rfl
@[simp] theorem cutTail_trl (k : Nat) (r : Run) : ((r.cutTail k).st).trl = r.st.trl := rfl

/-! `Run.finish` -/

@[simp] theorem finish_cfg (c : ResultCode) (r : Run) : ((r.finish c).st).cfg = r.st.cfg := rfl
@[simp] theorem finish_agenda (c : ResultCode) (r : Run) : ((r.finish c).st).agenda = r.st.agenda := rfl
@[simp] theorem finish_rdata (c : ResultCode) (r : Run) : ((r.finish c).st).rdata = r.st.rdata := rfl
@[simp] theorem finish_win (c : ResultCode) (r : Run) : ((r.finish c).st).win = r.st.win := rfl
@[simp] theorem finish_eof (c : ResultCode) (r : Run) : ((r.finish c).st).eof = r.st.eof := rfl
@[simp] theorem finish_busy (c : ResultCode) (r : Run) : ((r.finish c).st).busy = r.st.busy := rfl
@[simp] theorem finish_pending (c : ResultCode) (r : Run) : ((r.finish c).st).pending = r.st.pending := rfl
@[simp] theorem finish_res (c : ResultCode) (r : Run) : ((r.finish c).st).res = c.code := rfl
@[simp] theorem finish_cmp (c : ResultCode) (r : Run) : ((r.finish c).st).cmp = r.st.cmp := rfl
@[simp] theorem finish_err (c : ResultCode) (r : Run) : ((r.finish c).st).err = r.st.err := rfl
@[simp] theorem finish_cmdLast (c : ResultCode) (r : Run) : ((r.finish c).st).cmdLast = r.st.cmdLast := rfl
@[simp] theorem finish_hdrIn (c : ResultCode) (r : Run) : ((r.finish c).st).hdrIn = r.st.hdrIn := rfl
@[simp] theorem finish_hdrIn2 (c : ResultCode) (r : Run) : ((r.finish c).st).hdrIn2 = r.st.hdrIn2 := rfl
@[simp] theorem finish_winRaddr (c : ResultCode) (r : Run) : ((r.finish c).st).winRaddr = r.st.winRaddr := rfl
@[simp] theorem finish_totalParsed (c : ResultCode) (r : Run) : ((r.finish c).st).totalParsed = r.st.totalParsed := rfl
@[simp] theorem finish_freeFmt (c : ResultCode) (r : Run) : ((r.finish c).st).freeFmt = r.st.freeFmt := rfl
@[simp] theorem finish_foundCount (c : ResultCode) (r : Run) : ((r.finish c).st).foundCount = r.st.foundCount := rfl
@[simp] theorem finish_popCount (c : ResultCode) (r : Run) : ((r.finish c).st).popCount = r.st.popCount := rfl
@[simp] theorem finish_dec (c : ResultCode) (r : Run) : ((r.finish c).st).dec = r.st.dec := rfl
@[simp] theorem finish_scan (c : ResultCode) (r : Run) : ((r.finish c).st).scan = r.st.scan := rfl
@[simp] theorem finish_id3 (c : ResultCode) (r : Run) : ((r.finish c).st).id3 = r.st.id3 := rfl
@[simp] theorem finish_trl (c : ResultCode) (r : Run) : ((r.finish c).st).trl = r.st.trl := rfl

/-! `Run.fail` -/

@[simp] theorem fail_cfg (r : Run) : (r.fail.st).cfg = r.st.cfg := rfl
@[simp] theorem fail_agenda (r : Run) : (r.fail.st).agenda = r.st.agenda := rfl
@[simp] theorem fail_rdata (r : Run) : (r.fail.st).rdata = r.st.rdata := rfl
@[simp] theorem fail_win (r : Run) : (r.fail.st).win = r.st.win := rfl
@[simp] theorem fail_eof (r : Run) : (r.fail.st).eof = r.st.eof := rfl
@[simp] theorem fail_busy (r : Run) : (r.fail.st).busy = r.st.busy := rfl
@[simp] theorem fail_pending (r : Run) : (r.fail.st).pending = r.st.pending := rfl
@[simp] theorem fail_res (r : Run) : (r.fail.st).res = 5#4 := rfl
@[simp] theorem fail_cmp (r : Run) : (r.fail.st).cmp = r.st.cmp := rfl
@[simp] theorem fail_err (r : Run) : (r.fail.st).err = r.st.err ||| 0b010000#6 := rfl
@[simp] theorem fail_cmdLast (r : Run) : (r.fail.st).cmdLast = r.st.cmdLast := rfl
@[simp] theorem fail_hdrIn (r : Run) : (r.fail.st).hdrIn = r.st.hdrIn := rfl
@[simp] theorem fail_hdrIn2 (r : Run) : (r.fail.st).hdrIn2 = r.st.hdrIn2 := rfl
@[simp] theorem fail_winRaddr (r : Run) : (r.fail.st).winRaddr = r.st.winRaddr := rfl
@[simp] theorem fail_totalParsed (r : Run) : (r.fail.st).totalParsed = r.st.totalParsed := rfl
@[simp] theorem fail_freeFmt (r : Run) : (r.fail.st).freeFmt = r.st.freeFmt := rfl
@[simp] theorem fail_foundCount (r : Run) : (r.fail.st).foundCount = r.st.foundCount := rfl
@[simp] theorem fail_popCount (r : Run) : (r.fail.st).popCount = r.st.popCount := rfl
@[simp] theorem fail_dec (r : Run) : (r.fail.st).dec = r.st.dec := rfl
@[simp] theorem fail_scan (r : Run) : (r.fail.st).scan = r.st.scan := rfl
@[simp] theorem fail_id3 (r : Run) : (r.fail.st).id3 = r.st.id3 := rfl
@[simp] theorem fail_trl (r : Run) : (r.fail.st).trl = r.st.trl := rfl

/-! `Run.complete` -/

@[simp] theorem complete_cfg (r : Run) : (r.complete).cfg = r.st.cfg := rfl
@[simp] theorem complete_agenda (r : Run) : (r.complete).agenda = r.st.agenda := rfl
@[simp] theorem complete_rdata (r : Run) : (r.complete).rdata = r.st.rdata := rfl
@[simp] theorem complete_win (r : Run) : (r.complete).win = r.st.win := rfl
@[simp] theorem complete_eof (r : Run) : (r.complete).eof = r.st.eof := rfl
@[simp] theorem complete_busy (r : Run) : (r.complete).busy = false := rfl
@[simp] theorem complete_pending (r : Run) : (r.complete).pending = r.st.pending := rfl
@[simp] theorem complete_res (r : Run) : (r.complete).res = r.st.res := rfl
@[simp] theorem complete_cmp (r : Run) : (r.complete).cmp = r.st.cmp := rfl
@[simp] theorem complete_err (r : Run) : (r.complete).err = r.st.err := rfl
@[simp] theorem complete_cmdLast (r : Run) : (r.complete).cmdLast = r.st.cmdLast := rfl
@[simp] theorem complete_hdrIn (r : Run) : (r.complete).hdrIn = r.st.hdrIn := rfl
@[simp] theorem complete_hdrIn2 (r : Run) : (r.complete).hdrIn2 = r.st.hdrIn2 := rfl
@[simp] theorem complete_winRaddr (r : Run) : (r.complete).winRaddr = r.st.winRaddr := rfl
@[simp] theorem complete_totalParsed (r : Run) : (r.complete).totalParsed = r.st.totalParsed := rfl
@[simp] theorem complete_freeFmt (r : Run) : (r.complete).freeFmt = r.st.freeFmt := rfl
@[simp] theorem complete_foundCount (r : Run) : (r.complete).foundCount = r.st.foundCount := rfl
@[simp] theorem complete_popCount (r : Run) : (r.complete).popCount = BitVec.ofNat 24 r.popped := rfl
@[simp] theorem complete_dec (r : Run) : (r.complete).dec = r.st.dec := rfl
@[simp] theorem complete_scan (r : Run) : (r.complete).scan = r.st.scan := rfl
@[simp] theorem complete_id3 (r : Run) : (r.complete).id3 = r.st.id3 := rfl
@[simp] theorem complete_trl (r : Run) : (r.complete).trl = r.st.trl := rfl

/-! `resetState` -/

@[simp] theorem resetState_cfg (s : State) : (resetState s).cfg = s.cfg := rfl
@[simp] theorem resetState_agenda (s : State) : (resetState s).agenda = s.agenda := rfl
@[simp] theorem resetState_rdata (s : State) : (resetState s).rdata = s.rdata := rfl
@[simp] theorem resetState_win (s : State) : (resetState s).win = State.reset.win := rfl
@[simp] theorem resetState_eof (s : State) : (resetState s).eof = State.reset.eof := rfl
@[simp] theorem resetState_busy (s : State) : (resetState s).busy = State.reset.busy := rfl
@[simp] theorem resetState_pending (s : State) : (resetState s).pending = State.reset.pending := rfl
@[simp] theorem resetState_res (s : State) : (resetState s).res = State.reset.res := rfl
@[simp] theorem resetState_cmp (s : State) : (resetState s).cmp = State.reset.cmp := rfl
@[simp] theorem resetState_err (s : State) : (resetState s).err = State.reset.err := rfl
@[simp] theorem resetState_cmdLast (s : State) : (resetState s).cmdLast = State.reset.cmdLast := rfl
@[simp] theorem resetState_hdrIn (s : State) : (resetState s).hdrIn = State.reset.hdrIn := rfl
@[simp] theorem resetState_hdrIn2 (s : State) : (resetState s).hdrIn2 = State.reset.hdrIn2 := rfl
@[simp] theorem resetState_winRaddr (s : State) : (resetState s).winRaddr = State.reset.winRaddr := rfl
@[simp] theorem resetState_totalParsed (s : State) : (resetState s).totalParsed = State.reset.totalParsed := rfl
@[simp] theorem resetState_freeFmt (s : State) : (resetState s).freeFmt = State.reset.freeFmt := rfl
@[simp] theorem resetState_foundCount (s : State) : (resetState s).foundCount = State.reset.foundCount := rfl
@[simp] theorem resetState_popCount (s : State) : (resetState s).popCount = State.reset.popCount := rfl
@[simp] theorem resetState_dec (s : State) : (resetState s).dec = State.reset.dec := rfl
@[simp] theorem resetState_scan (s : State) : (resetState s).scan = State.reset.scan := rfl
@[simp] theorem resetState_id3 (s : State) : (resetState s).id3 = State.reset.id3 := rfl
@[simp] theorem resetState_trl (s : State) : (resetState s).trl = State.reset.trl := rfl

/-! The count `popped` and the start of a completion. -/

@[simp] theorem start_st (s : State) : (Run.start s).st = s := rfl
@[simp] theorem start_popped (s : State) : (Run.start s).popped = 0 := rfl
@[simp] theorem pop_popped (k : Nat) (r : Run) : (r.pop k).popped = r.popped + k := rfl
@[simp] theorem cutTail_popped (k : Nat) (r : Run) : (r.cutTail k).popped = r.popped := rfl
@[simp] theorem finish_popped (c : ResultCode) (r : Run) : (r.finish c).popped = r.popped := rfl
@[simp] theorem fail_popped (r : Run) : r.fail.popped = r.popped := rfl

end Sys2Proof.Machine
end

