-- ==== Sys2Proof/Laws/Ops.lean ====
section
/-! SUPPORT. What the shared operations can do, said once: busy gating, completions, the register map, decoding, fetching. -/

namespace Sys2Proof.Machine

theorem busyGated_busy {f : State → State} {s : State} (h : s.busy = true) :
    busyGated f s = .next (raise .busyWr s) := if_pos h

theorem busyGated_idle {f : State → State} {s : State} (h : s.busy = false) : busyGated f s = .next (f s) := by
  rw [busyGated, h]; rfl

/-- A busy-gated write answers next: the error where busy, its effect where not. -/
theorem busyGated_cases {f : State → State} {s t : State} (h : busyGated f s = .next t) :
    (s.busy = true ∧ t = raise .busyWr s) ∨ (s.busy = false ∧ t = f s) := by
  cases hb : s.busy
  · rw [busyGated_idle hb] at h; cases h; exact .inr ⟨rfl, rfl⟩
  · rw [busyGated_busy hb] at h; cases h; exact .inl ⟨rfl, rfl⟩

/-- A completion answers next, with the rule's run completed. -/
theorem completion_cases {rule : Run → Run} {s t : State} (h : completion rule s = .next t) :
    t = (rule (Run.start s)).complete := by
  cases h; rfl

theorem ofOffset_offset (r : Reg) : Reg.ofOffset r.offset = some r := by cases r <;> rfl

/-- A register is found at its own offset only. -/
theorem ofOffset_eq_some {off : Offset} {r : Reg} (h : Reg.ofOffset off = some r) : r.offset = off := by
  simpa using List.find?_some h

/-- No register lies at a misaligned offset or at 0x80 and beyond. -/
theorem ofOffset_eq_none {off : Offset} (h : off.toNat % 4 ≠ 0 ∨ 128 ≤ off.toNat) : Reg.ofOffset off = none := by
  rw [Reg.ofOffset, List.find?_eq_none]
  intro r _ hr
  have := eq_of_beq hr; subst this
  cases r <;> simp [Reg.offset] at h

/-- READ answers next: the register's value, or the error at an offset that has none. -/
theorem execRead_cases {off : Offset} {s t : State} (h : execRead off s = .next t) :
    (∃ r, Reg.ofOffset off = some r ∧ t = { s with rdata := readReg s r }) ∨
    (Reg.ofOffset off = none ∧ t = { raise .badAddr s with rdata := 0#32 }) := by
  unfold execRead at h
  split at h
  · rename_i r hr; cases h; exact .inl ⟨r, hr, rfl⟩
  · rename_i hr; cases h; exact .inr ⟨hr, rfl⟩

/-- The issue step answers one of two states. -/
theorem issueEffect_cases (d : Word) (s : State) :
    ((∃ i, decodeCmd d = .instr i) ∧ issueEffect d s = { s with cmdLast := d, pending := d, busy := true }) ∨
    ((¬ ∃ i, decodeCmd d = .instr i) ∧ issueEffect d s = { raise .badCmd s with res := ResultCode.errCmd.code }) := by
  unfold issueEffect
  split
  · rename_i e he; exact .inr ⟨(by rintro ⟨i, hi⟩; rw [he] at hi; cases hi), rfl⟩
  · rename_i i hi; exact .inl ⟨⟨i, hi⟩, rfl⟩

/-- PUSH's effect is one of three. -/
theorem pushEffect_cases (d : Word) (s : State) :
    (s.eof = true ∧ pushEffect d s = raise .pushEof s) ∨
    (s.eof = false ∧ s.win.length = s.cfg.winCap ∧ pushEffect d s = raise .ovf s) ∨
    (s.eof = false ∧ s.win.length ≠ s.cfg.winCap ∧ pushEffect d s = push (d.extractLsb' 0 8) s) := by
  unfold pushEffect
  cases s.eof
  · by_cases h : s.win.length = s.cfg.winCap
    · exact .inr (.inl ⟨rfl, h, by simp [h]⟩)
    · exact .inr (.inr ⟨rfl, h, by simp [h]⟩)
  · exact .inl ⟨rfl, rfl⟩

/-- SET_EOF's effect is one of two. -/
theorem setEofEffect_cases (d : Word) (s : State) :
    (d.getLsbD 0 = true ∧ setEofEffect d s = { s with eof := true }) ∨
    (d.getLsbD 0 = false ∧ setEofEffect d s = s) := by
  unfold setEofEffect
  cases d.getLsbD 0
  · exact .inr ⟨rfl, rfl⟩
  · exact .inl ⟨rfl, rfl⟩

/-- A system address of the register space gives its offset back. -/
theorem offsetOf_addressOf (cfg : Config) (off : Offset) : offsetOf cfg (addressOf cfg off) = some off := by
  have h := off.isLt
  unfold offsetOf
  rw [if_pos (by unfold addressOf; omega)]
  simp [addressOf]

/-- An address outside the 4 KiB has no offset. -/
theorem offsetOf_outside {cfg : Config} {addr : Nat} (h : addr < cfg.mfsdBase ∨ cfg.mfsdBase + 4096 ≤ addr) :
    offsetOf cfg addr = none := if_neg (by omega)

/-- A command word that decodes, decodes to a command. -/
theorem decodeCmd_isCommand {w : Word} {i : Instr} (h : decodeCmd w = .instr i) : i.isCommand = true := by
  simp only [decodeCmd, withoutArg, withFlagArg] at h
  repeat' split at h
  all_goals first | (cases h; rfl) | cases h

/-- A bus operation that decodes, decodes to no command. -/
theorem decodeWrite_isCommand {off : Offset} {d : Word} {i : Instr} (h : decodeWrite off d = .instr i) :
    i.isCommand = false := by
  simp only [decodeWrite] at h
  repeat' split at h
  all_goals first | (cases h; rfl) | cases h

theorem decodeRead_isCommand {off : Offset} {i : Instr} (h : decodeRead off = .instr i) : i.isCommand = false := by
  simp only [decodeRead] at h
  split at h <;> cases h <;> rfl

/-- The windows of the block keep their form under Push where there is room, Pop and CutTail. -/
theorem wf_push {cap : Nat} {w : List Byte} (b : Byte) (h : Memory.wf cap w = true) (hc : w.length ≠ cap) :
    Memory.wf cap (w ++ [b]) = true := by
  simp only [Memory.wf, decide_eq_true_eq, List.length_append, List.length_singleton] at *; omega

theorem wf_drop {cap : Nat} {w : List Byte} (k : Nat) (h : Memory.wf cap w = true) : Memory.wf cap (w.drop k) = true := by
  simp only [Memory.wf, decide_eq_true_eq, List.length_drop] at *; omega

theorem wf_take {cap : Nat} {w : List Byte} (k : Nat) (h : Memory.wf cap w = true) : Memory.wf cap (w.take k) = true := by
  simp only [Memory.wf, decide_eq_true_eq, List.length_take] at *; omega

/-- Push, Pop and CutTail keep the window's form (20_memory.md R70, R72–R74). -/
theorem wf_push_op {s : State} (b : Byte) (h : Memory.wf s.cfg.winCap s.win = true) (hc : s.win.length ≠ s.cfg.winCap) :
    Memory.wf (push b s).cfg.winCap (push b s).win = true := wf_push b h hc

theorem wf_pop_op {r : Run} (k : Nat) (h : Memory.wf r.st.cfg.winCap r.st.win = true) :
    Memory.wf (r.pop k).st.cfg.winCap (r.pop k).st.win = true := wf_drop k h

theorem wf_cutTail_op {r : Run} (k : Nat) (h : Memory.wf r.st.cfg.winCap r.st.win = true) :
    Memory.wf (r.cutTail k).st.cfg.winCap (r.cutTail k).st.win = true := wf_take _ h

theorem wf_reset : Memory.wf State.reset.cfg.winCap State.reset.win = true := by decide

end Sys2Proof.Machine
end

