-- ==== Sys2Proof/Laws/Window.lean ====
section
/-! SUPPORT. Reading the window: how bytes, slices and header words of a window read in a longer window and in one whose
front is popped. -/

namespace Sys2Proof.Machine

theorem byteAt_of_lt {w : List Byte} {j : Nat} (h : j < w.length) : byteAt w j = w[j] := by
  simp [byteAt, h]

/-- Past the window's end a byte reads 0. -/
theorem byteAt_of_le {w : List Byte} {j : Nat} (h : w.length ≤ j) : byteAt w j = 0#8 := by
  simp [byteAt, h]

theorem byteAt_drop (w : List Byte) (k j : Nat) : byteAt (w.drop k) j = byteAt w (k + j) := by
  simp [byteAt]

/-- More bytes at the end leave the bytes that are there. -/
theorem byteAt_append_left {w : List Byte} (x : List Byte) {j : Nat} (h : j < w.length) :
    byteAt (w ++ x) j = byteAt w j := by
  simp only [byteAt, List.getD_eq_getElem?_getD]
  rw [List.getElem?_append_left h]

theorem slice_drop (w : List Byte) (d j k : Nat) : slice (w.drop d) j k = slice w (d + j) k := by
  simp [slice]

theorem slice_append_left {w : List Byte} (x : List Byte) {j k : Nat} (h : j + k ≤ w.length) :
    slice (w ++ x) j k = slice w j k := by
  unfold slice
  rw [List.drop_append_of_le_length (by omega), List.take_append_of_le_length (by simp; omega)]

/-- A slice that lies in the window is its bytes. -/
theorem slice_four {w : List Byte} {j : Nat} (h : j + 4 ≤ w.length) :
    slice w j 4 = [byteAt w j, byteAt w (j + 1), byteAt w (j + 2), byteAt w (j + 3)] := by
  apply List.ext_getElem
  · simp [slice]; omega
  · intro i h1 h2
    simp only [List.length_cons, List.length_nil] at h2
    interval_cases i <;> simp [slice] <;> rw [byteAt_of_lt (by omega)]

theorem hdr_drop (w : List Byte) (d j : Nat) : hdr (w.drop d) j = hdr w (d + j) := by
  simp only [hdr, memRead, slice_drop]

theorem hdr_append_left {w : List Byte} (x : List Byte) {j : Nat} (h : j + hdrSize ≤ w.length) :
    hdr (w ++ x) j = hdr w j := by
  simp only [hdr, memRead, slice_append_left x h]

end Sys2Proof.Machine
end

