-- ==== Sys2Proof/Laws/Scan.lean ====
section
/-! SUPPORT. What the scanner's searches can answer, said once: what an ACCEPT and a NEED_MORE mean, how a search reads in a
longer window and in one whose front is popped. -/

namespace Sys2Proof.Machine

/-! ### The three ways of an evaluation -/

theorem evaluate_unknown {v : View} {F i : Nat} {H : Word} (h : Hdr.free H = true ∧ F = 0) :
    evaluate v F i H = freeSearch v i H := by
  unfold evaluate; rw [if_pos h]

theorem evaluate_research {v : View} {F i : Nat} {H : Word} (h : ¬ (Hdr.free H = true ∧ F = 0))
    (hc : chain v F i H = .reject ∧ Hdr.free H = true) : evaluate v F i H = freeSearch v i H := by
  unfold evaluate; rw [if_neg h]; exact if_pos hc

theorem evaluate_chain {v : View} {F i : Nat} {H : Word} (h : ¬ (Hdr.free H = true ∧ F = 0))
    (hc : ¬ (chain v F i H = .reject ∧ Hdr.free H = true)) :
    evaluate v F i H = { verdict := chain v F i H, F := F } := by
  unfold evaluate; rw [if_neg h]; exact if_neg hc

/-! ### Accepted and needed -/

theorem chainLoop_accept {v : View} {F i : Nat} {H : Word} {len : Nat} {left m j lj L : Nat}
    (h : chainLoop v F i H len left m j lj = .accept L) : L = len := by
  induction left generalizing m j lj with
  | zero => simp only [chainLoop] at h; cases h; rfl
  | succ left ih =>
    simp only [chainLoop, loneFinal] at h
    split at h
    · repeat' split at h
      all_goals first | (cases h; rfl) | cases h
    · split at h
      · exact ih h
      · cases h

/-- A chain's NEED_MORE comes from a window that is not final. -/
theorem chainLoop_needMore {v : View} {F i : Nat} {H : Word} {len : Nat} {left m j lj : Nat}
    (h : chainLoop v F i H len left m j lj = .needMore) : finalAt v i = false := by
  induction left generalizing m j lj with
  | zero => simp only [chainLoop] at h; cases h
  | succ left ih =>
    simp only [chainLoop, loneFinal] at h
    split at h
    · repeat' split at h
      all_goals first | exact Bool.eq_false_iff.2 ‹¬ finalAt v i = true› | cases h
    · split at h
      · exact ih h
      · cases h

/-- What the free-format search accepts: a first occurrence at the accepted length, which lies among the k searched. -/
theorem freeLoop_accept {v : View} {i : Nat} {H : Word} {left k L : Nat}
    (h : (freeLoop v i H left k).verdict = .accept L) :
    k ≤ L ∧ L < k + left ∧ (freeLoop v i H left k).F = L - Hdr.p H ∧ i + L + hdrSize ≤ v.win.length ∧
      Hdr.compare H (hdr v.win (i + L)) = true := by
  induction left generalizing k with
  | zero => simp [freeLoop] at h
  | succ left ih =>
    simp only [freeLoop] at h ⊢
    have step : ∀ {e : Evaluation}, e = freeLoop v i H left (k + 1) → e.verdict = .accept L →
        k ≤ L ∧ L < k + (left + 1) ∧ e.F = L - Hdr.p H ∧ i + L + hdrSize ≤ v.win.length ∧
          Hdr.compare H (hdr v.win (i + L)) = true := by
      rintro e rfl he
      obtain ⟨h1, h2, h3⟩ := ih he
      exact ⟨by omega, by omega, h3⟩
    split at h
    · rename_i hc; rw [if_pos hc]; split at h <;> cases h
    · rename_i hc; rw [if_neg hc]
      split at h
      · rename_i hk; rw [if_pos hk]
        split at h
        · rename_i h2; rw [if_pos h2]
          split at h
          · rename_i hf; rw [if_pos hf]; exact step rfl h
          · cases h
        · rename_i h2; rw [if_neg h2]
          split at h
          · rename_i h3; rw [if_pos h3]; cases h
            exact ⟨by omega, by omega, rfl, by omega, hk⟩
          · rename_i h3; rw [if_neg h3]; exact step rfl h
      · rename_i hk; rw [if_neg hk]; exact step rfl h

/-- The free-format search's NEED_MORE comes from a window that is not final. -/
theorem freeLoop_needMore {v : View} {i : Nat} {H : Word} {left k : Nat}
    (h : (freeLoop v i H left k).verdict = .needMore) : finalAt v i = false := by
  induction left generalizing k with
  | zero => simp [freeLoop] at h
  | succ left ih =>
    simp only [freeLoop] at h
    repeat' split at h
    all_goals first | exact ih h | simp_all

/-- F is 0 after a free-format search that does not accept. -/
theorem freeLoop_F {v : View} {i : Nat} {H : Word} {left k : Nat}
    (h : ∀ L, (freeLoop v i H left k).verdict ≠ .accept L) : (freeLoop v i H left k).F = 0 := by
  induction left generalizing k with
  | zero => rfl
  | succ left ih =>
    simp only [freeLoop] at h ⊢
    have step : ∀ {e : Evaluation}, e = freeLoop v i H left (k + 1) → (∀ L, e.verdict ≠ .accept L) → e.F = 0 := by
      rintro e rfl he; exact ih he
    split at h
    · rename_i hc; rw [if_pos hc]
    · rename_i hc; rw [if_neg hc]
      split at h
      · rename_i hk; rw [if_pos hk]
        split at h
        · rename_i h2; rw [if_pos h2]
          split at h
          · rename_i hf; rw [if_pos hf]; exact step rfl h
          · rename_i hf; rw [if_neg hf]
        · rename_i h2; rw [if_neg h2]
          split at h
          · exact absurd rfl (h k)
          · rename_i h3; rw [if_neg h3]; exact step rfl h
      · rename_i hk; rw [if_neg hk]; exact step rfl h

/-- The free-format search leaves F at 0 or in 3 … 2303 (10_state.md R64(f)). -/
theorem freeSearch_F (v : View) (i : Nat) (H : Word) :
    (freeSearch v i H).F = 0 ∨ (3 ≤ (freeSearch v i H).F ∧ (freeSearch v i H).F ≤ 2303) := by
  by_cases h : ∃ L, (freeSearch v i H).verdict = .accept L
  · obtain ⟨L, h⟩ := h
    obtain ⟨h1, h2, h3, _⟩ := freeLoop_accept h
    have hp : Hdr.p H < 2 := (Hdr.pad H).isLt
    simp only [maxFreeFormatFrameSize, hdrSize] at h1 h2
    refine .inr ?_
    unfold freeSearch
    rw [h3]; omega
  · exact .inl (freeLoop_F fun L hL => h ⟨L, hL⟩)

/-- An evaluation leaves F as it was, at 0 or in 3 … 2303. -/
theorem evaluate_F (v : View) (F i : Nat) (H : Word) :
    (evaluate v F i H).F = F ∨ (evaluate v F i H).F = 0 ∨
      (3 ≤ (evaluate v F i H).F ∧ (evaluate v F i H).F ≤ 2303) := by
  simp only [evaluate]
  split
  · exact .inr (freeSearch_F v i H)
  · split
    · exact .inr (freeSearch_F v i H)
    · exact .inl rfl

/-- An evaluation's NEED_MORE comes from a window that is not final (43_sync_scanner.md R252). -/
theorem evaluate_needMore {v : View} {F i : Nat} {H : Word} (h : (evaluate v F i H).verdict = .needMore) :
    finalAt v i = false := by
  simp only [evaluate] at h
  split at h
  · exact freeLoop_needMore h
  · split at h
    · exact freeLoop_needMore h
    · exact chainLoop_needMore h

/-- A chain that accepts has its first corroboration, or ends exactly at the stream's end. -/
theorem chain_accept {v : View} {F i : Nat} {H : Word} {L : Nat} (h : chain v F i H = .accept L) :
    L = Hdr.frameLen v.cfg H F ∧
    ((i + L + hdrSize ≤ v.win.length ∧ Hdr.compare H (hdr v.win (i + L)) = true) ∨
      (v.eof = true ∧ i + L = v.win.length)) := by
  have hL := chainLoop_accept h
  refine ⟨hL, ?_⟩
  unfold chain at h
  rw [← hL, show maxFrameSyncMatches = 9 + 1 from rfl, chainLoop] at h
  simp only [loneFinal] at h
  split at h
  · repeat' split at h
    all_goals first | omega | exact .inr ‹_ ∧ _› | cases h
  · rename_i hc
    split at h
    · rename_i hk; exact .inl ⟨by omega, hk⟩
    · cases h

/-- What an accepted candidate is (43_sync_scanner.md R254–R257). -/
theorem evaluate_accept {v : View} {F i : Nat} {H : Word} {L : Nat} (h : (evaluate v F i H).verdict = .accept L) :
    L = Hdr.frameLen v.cfg H (evaluate v F i H).F ∧
    ((i + L + hdrSize ≤ v.win.length ∧ Hdr.compare H (hdr v.win (i + L)) = true) ∨
      (v.eof = true ∧ i + L = v.win.length)) := by
  have free : ∀ {e : Evaluation}, e = freeSearch v i H → Hdr.free H = true → e.verdict = .accept L →
      L = Hdr.frameLen v.cfg H e.F ∧
      ((i + L + hdrSize ≤ v.win.length ∧ Hdr.compare H (hdr v.win (i + L)) = true) ∨
        (v.eof = true ∧ i + L = v.win.length)) := by
    rintro e rfl hfree he
    obtain ⟨h1, h2, h3, h4⟩ := freeLoop_accept he
    refine ⟨?_, .inl h4⟩
    have hp : Hdr.p H < 2 := (Hdr.pad H).isLt
    simp only [hdrSize] at h1
    unfold freeSearch
    rw [h3]
    simp only [Hdr.frameLen, hfree, if_true]
    rw [if_neg (by omega)]; omega
  simp only [evaluate] at h ⊢
  split at h
  · rename_i hc; rw [if_pos hc]; exact free rfl hc.1 h
  · rename_i hc; rw [if_neg hc]
    split at h
    · rename_i hd; rw [if_pos hd]; exact free rfl hd.2 h
    · rename_i hd; rw [if_neg hd]; exact chain_accept h

/-! ### The candidate loop -/

/-- What an end of the candidate loop from offset i on says. -/
def ScanEnd.Sound (v : View) (i : Nat) : ScanEnd → Prop
  | .found j H L F' => i ≤ j ∧ j + hdrSize ≤ v.win.length ∧ H = hdr v.win j ∧ Hdr.valid H = true ∧
      ∃ F, (evaluate v F j H).verdict = .accept L ∧ F' = (evaluate v F j H).F
  | .needMore j F' => i ≤ j ∧ j + hdrSize ≤ v.win.length ∧ Hdr.valid (hdr v.win j) = true ∧
      ∃ F, (evaluate v F j (hdr v.win j)).verdict = .needMore ∧ F' = (evaluate v F j (hdr v.win j)).F
  | .exhausted j _ => i ≤ j ∧ (j = i ∨ j + 3 ≤ v.win.length)

theorem ScanEnd.Sound.weaken {v : View} {i : Nat} {e : ScanEnd} (hi : i + hdrSize ≤ v.win.length)
    (h : e.Sound v (i + 1)) : e.Sound v i := by
  cases e <;> simp only [ScanEnd.Sound, hdrSize] at * <;> refine ⟨by omega, ?_⟩
  · exact h.2
  · exact h.2
  · omega

/-- The candidate loop's end is sound. -/
theorem scanLoop_sound (v : View) (fuel F i : Nat) : (scanLoop v fuel F i).Sound v i := by
  induction fuel generalizing F i with
  | zero => exact ⟨le_rfl, .inl rfl⟩
  | succ fuel ih =>
    simp only [scanLoop]
    by_cases hi : i + hdrSize ≤ v.win.length
    · rw [if_pos hi]
      by_cases hv : Hdr.valid (hdr v.win i) = true
      · rw [if_pos hv]
        cases he : (evaluate v F i (hdr v.win i)).verdict with
        | accept L => exact ⟨le_rfl, hi, rfl, hv, F, he, rfl⟩
        | needMore => exact ⟨le_rfl, hi, hv, F, he, rfl⟩
        | reject => exact (ih _ _).weaken hi
      · rw [if_neg hv]; exact (ih _ _).weaken hi
    · rw [if_neg hi]; exact ⟨le_rfl, .inl rfl⟩

/-- A loop with fuel for every candidate ends exhausted only where no header fits any more (43_sync_scanner.md R253). -/
theorem scanLoop_exhausted {v : View} {fuel F i j F' : Nat} (hf : v.win.length ≤ i + fuel)
    (h : scanLoop v fuel F i = .exhausted j F') : v.win.length < j + hdrSize := by
  induction fuel generalizing F i with
  | zero => simp only [scanLoop, ScanEnd.exhausted.injEq] at h; simp only [hdrSize]; omega
  | succ fuel ih =>
    simp only [scanLoop] at h
    split at h
    · split at h
      · split at h
        · cases h
        · cases h
        · exact ih (by omega) h
      · exact ih (by omega) h
    · cases h; omega

/-- The loop leaves F as it was, at 0 or in 3 … 2303 (10_state.md R64(f)). -/
theorem scanLoop_F (v : View) (fuel F i : Nat) :
    (scanLoop v fuel F i).free = F ∨ (scanLoop v fuel F i).free = 0 ∨
      (3 ≤ (scanLoop v fuel F i).free ∧ (scanLoop v fuel F i).free ≤ 2303) := by
  induction fuel generalizing F i with
  | zero => exact .inl rfl
  | succ fuel ih =>
    simp only [scanLoop]
    by_cases hi : i + hdrSize ≤ v.win.length
    · rw [if_pos hi]
      by_cases hv : Hdr.valid (hdr v.win i) = true
      · rw [if_pos hv]
        have he := evaluate_F v F i (hdr v.win i)
        cases (evaluate v F i (hdr v.win i)).verdict with
        | accept L => exact he
        | needMore => exact he
        | reject =>
          have := ih (evaluate v F i (hdr v.win i)).F (i + 1)
          simp only; omega
      · rw [if_neg hv]; exact ih _ _
    · rw [if_neg hi]; exact .inl rfl

/-! ### A window whose front is popped -/

/-- The view with d bytes popped from the window's front. -/
def View.pop (d : Nat) (v : View) : View := { v with win := v.win.drop d }

@[simp] theorem View.pop_cfg (d : Nat) (v : View) : (v.pop d).cfg = v.cfg := rfl
@[simp] theorem View.pop_eof (d : Nat) (v : View) : (v.pop d).eof = v.eof := rfl
@[simp] theorem View.pop_win (d : Nat) (v : View) : (v.pop d).win = v.win.drop d := rfl

/-- Finality is by eof alone where the window is not full. -/
theorem finalAt_of_not_full {v : View} (h : v.win.length ≠ v.cfg.winCap) (i : Nat) : finalAt v i = v.eof := by
  simp [finalAt, h]

/-- Finality is by eof alone away from offset 0. -/
theorem finalAt_succ (v : View) (i : Nat) : finalAt v (i + 1) = v.eof := by
  simp [finalAt]

theorem chainLoop_pop {v : View} {d i : Nat} (hf : finalAt (v.pop d) i = finalAt v (d + i)) (F : Nat) (H : Word)
    (len left m j lj : Nat) (hd : d ≤ v.win.length) :
    chainLoop (v.pop d) F i H len left m j lj = chainLoop v F (d + i) H len left m (d + j) lj := by
  induction left generalizing m j lj with
  | zero => rfl
  | succ left ih =>
    simp only [chainLoop, loneFinal, hf, ih, View.pop_cfg, View.pop_eof, View.pop_win, hdr_drop, List.length_drop,
      ← Nat.add_assoc]
    have h1 : (j + lj + hdrSize > v.win.length - d) ↔ (d + j + lj + hdrSize > v.win.length) := by
      simp only [hdrSize]; omega
    have h2 : (j + lj = v.win.length - d) ↔ (d + j + lj = v.win.length) := by omega
    simp only [h1, h2]

theorem freeLoop_pop {v : View} {d i : Nat} (hf : finalAt (v.pop d) i = finalAt v (d + i)) (H : Word)
    (left k : Nat) (hd : d ≤ v.win.length) :
    freeLoop (v.pop d) i H left k = freeLoop v (d + i) H left k := by
  induction left generalizing k with
  | zero => rfl
  | succ left ih =>
    simp only [freeLoop, hf, ih, View.pop_win, hdr_drop, List.length_drop, ← Nat.add_assoc]
    have h1 : (i + k + hdrSize > v.win.length - d) ↔ (d + i + k + hdrSize > v.win.length) := by
      simp only [hdrSize]; omega
    have h2 : ∀ x y, (i + k + x + y + hdrSize > v.win.length - d) ↔ (d + i + k + x + y + hdrSize > v.win.length) := by
      intro x y; simp only [hdrSize]; omega
    simp only [h1, h2]

/-- A candidate is evaluated the same once the bytes before it are popped, where finality is the same. -/
theorem evaluate_pop {v : View} {d i : Nat} (hf : finalAt (v.pop d) i = finalAt v (d + i)) (F : Nat) (H : Word)
    (hd : d ≤ v.win.length) : evaluate (v.pop d) F i H = evaluate v F (d + i) H := by
  have hs : freeSearch (v.pop d) i H = freeSearch v (d + i) H := freeLoop_pop hf H _ _ hd
  have hc : chain (v.pop d) F i H = chain v F (d + i) H := chainLoop_pop hf F H _ _ _ _ _ hd
  by_cases h0 : Hdr.free H = true ∧ F = 0
  · rw [evaluate_unknown h0, evaluate_unknown h0, hs]
  · by_cases hr : chain v F (d + i) H = .reject ∧ Hdr.free H = true
    · rw [evaluate_research h0 (by rwa [hc]), evaluate_research h0 hr, hs]
    · rw [evaluate_chain h0 (by rwa [hc]), evaluate_chain h0 hr, hc]

/-! ### A longer window -/

/-- The view with bytes x pushed and eof set or not. -/
def View.extend (x : List Byte) (e : Bool) (v : View) : View := { v with win := v.win ++ x, eof := e }

@[simp] theorem View.extend_cfg (x : List Byte) (e : Bool) (v : View) : (v.extend x e).cfg = v.cfg := rfl
@[simp] theorem View.extend_eof (x : List Byte) (e : Bool) (v : View) : (v.extend x e).eof = e := rfl
@[simp] theorem View.extend_win (x : List Byte) (e : Bool) (v : View) : (v.extend x e).win = v.win ++ x := rfl

/-- Without finality, what a chain decides it decides in every longer window (43_sync_scanner.md R263). -/
theorem chainLoop_extend {v : View} {i : Nat} (hf : finalAt v i = false) (x : List Byte) (e : Bool) {F : Nat} {H : Word}
    {len left m j lj : Nat} (h : chainLoop v F i H len left m j lj ≠ .needMore) :
    chainLoop (v.extend x e) F i H len left m j lj = chainLoop v F i H len left m j lj := by
  have he : v.eof = false := by simp only [finalAt, Bool.or_eq_false_iff] at hf; exact hf.1
  induction left generalizing m j lj with
  | zero => rfl
  | succ left ih =>
    by_cases hx : j + lj + hdrSize > v.win.length
    · exact absurd (by simp [chainLoop, loneFinal, hx, hf, he]) h
    · have hx' : ¬ j + lj + hdrSize > (v.extend x e).win.length := by
        simp only [View.extend_win, List.length_append]; omega
      have hh : hdr (v.extend x e).win (j + lj) = hdr v.win (j + lj) := hdr_append_left x (by omega)
      simp only [chainLoop, if_neg hx, if_neg hx', hh, View.extend_cfg] at h ⊢
      split
      · rename_i hk; rw [if_pos hk] at h; exact ih h
      · rfl

/-- Without finality, what a free-format search decides it decides in every longer window. -/
theorem freeLoop_extend {v : View} {i : Nat} (hf : finalAt v i = false) (x : List Byte) (e : Bool) {H : Word}
    {left k : Nat} (h : (freeLoop v i H left k).verdict ≠ .needMore) :
    freeLoop (v.extend x e) i H left k = freeLoop v i H left k := by
  induction left generalizing k with
  | zero => rfl
  | succ left ih =>
    by_cases hx : i + k + hdrSize > v.win.length
    · exact absurd (by simp [freeLoop, hx, hf]) h
    · have hx' : ¬ i + k + hdrSize > (v.extend x e).win.length := by
        simp only [View.extend_win, List.length_append]; omega
      have hh : hdr (v.extend x e).win (i + k) = hdr v.win (i + k) := hdr_append_left x (by omega)
      simp only [freeLoop, if_neg hx, if_neg hx', hh] at h ⊢
      split
      · rename_i hk
        rw [if_pos hk] at h
        by_cases h2 : i + (k + (k - Hdr.p H) + Hdr.p (hdr v.win (i + k))) + hdrSize > v.win.length
        · exact absurd (by simp [h2, hf]) h
        · have h2' : ¬ i + (k + (k - Hdr.p H) + Hdr.p (hdr v.win (i + k))) + hdrSize > (v.extend x e).win.length := by
            simp only [View.extend_win, List.length_append]; omega
          have hh2 : hdr (v.extend x e).win (i + (k + (k - Hdr.p H) + Hdr.p (hdr v.win (i + k)))) =
              hdr v.win (i + (k + (k - Hdr.p H) + Hdr.p (hdr v.win (i + k)))) := hdr_append_left x (by omega)
          rw [if_neg h2] at h
          rw [if_neg h2, if_neg h2', hh2]
          split
          · rfl
          · rename_i h3; rw [if_neg h3] at h; exact ih h
      · rename_i hk; rw [if_neg hk] at h; exact ih h

/-- Without finality, what an evaluation decides it decides in every longer window (43_sync_scanner.md R263). -/
theorem evaluate_extend {v : View} {i : Nat} (hf : finalAt v i = false) (x : List Byte) (e : Bool) {F : Nat} {H : Word}
    (h : (evaluate v F i H).verdict ≠ .needMore) : evaluate (v.extend x e) F i H = evaluate v F i H := by
  have hs : (freeSearch v i H).verdict ≠ .needMore → freeSearch (v.extend x e) i H = freeSearch v i H :=
    freeLoop_extend hf x e
  have hc : chain v F i H ≠ .needMore → chain (v.extend x e) F i H = chain v F i H := chainLoop_extend hf x e
  by_cases h0 : Hdr.free H = true ∧ F = 0
  · rw [evaluate_unknown h0] at h ⊢
    rw [evaluate_unknown h0, hs h]
  · by_cases hr : chain v F i H = .reject ∧ Hdr.free H = true
    · rw [evaluate_research h0 hr] at h ⊢
      rw [evaluate_research h0 (by rw [hc (by rw [hr.1]; simp)]; exact hr), hs h]
    · rw [evaluate_chain h0 hr] at h ⊢
      rw [evaluate_chain h0 (by rw [hc h]; exact hr), hc h]

/-! ### Resuming -/

/-- More fuel than candidates changes nothing. -/
theorem scanLoop_fuel {v : View} {fuel fuel' F i : Nat} (h : v.win.length ≤ i + fuel) (h' : v.win.length ≤ i + fuel') :
    scanLoop v fuel F i = scanLoop v fuel' F i := by
  induction fuel generalizing fuel' F i with
  | zero =>
    cases fuel' with
    | zero => rfl
    | succ fuel' => simp only [scanLoop]; rw [if_neg (by simp only [hdrSize]; omega)]
  | succ fuel ih =>
    cases fuel' with
    | zero => simp only [scanLoop]; rw [if_neg (by simp only [hdrSize]; omega)]
    | succ fuel' =>
      have ih' : ∀ F', scanLoop v fuel F' (i + 1) = scanLoop v fuel' F' (i + 1) := fun F' =>
        ih (by omega) (by omega)
      simp only [scanLoop, ih']

/-- The ends shifted by d offsets. -/
def ScanEnd.shift (d : Nat) : ScanEnd → ScanEnd
  | .found i H L F => .found (d + i) H L F
  | .needMore i F => .needMore (d + i) F
  | .exhausted i F => .exhausted (d + i) F

@[simp] theorem ScanEnd.shift_free (d : Nat) (e : ScanEnd) : (e.shift d).free = e.free := by cases e <;> rfl

/-- A search finds the same once the bytes before it are popped, at offsets counted from the new front. -/
theorem scanLoop_pop {v : View} {d : Nat} (hd : d ≤ v.win.length) (fuel F i : Nat)
    (hf : ∀ j, i ≤ j → finalAt (v.pop d) j = finalAt v (d + j)) :
    scanLoop v fuel F (d + i) = (scanLoop (v.pop d) fuel F i).shift d := by
  induction fuel generalizing F i with
  | zero => rfl
  | succ fuel ih =>
    have h1 : (i + hdrSize ≤ v.win.length - d) ↔ (d + i + hdrSize ≤ v.win.length) := by
      simp only [hdrSize]; omega
    have ih' : ∀ F', scanLoop v fuel F' (d + i + 1) = (scanLoop (v.pop d) fuel F' (i + 1)).shift d := fun F' => by
      rw [Nat.add_assoc]; exact ih F' (i + 1) fun j hj => hf j (by omega)
    simp only [scanLoop, View.pop_win, hdr_drop, List.length_drop, h1, evaluate_pop (hf i le_rfl) F _ hd, ih']
    split
    · split
      · cases (evaluate v F (d + i) (hdr v.win (d + i))).verdict <;> rfl
      · rfl
    · rfl

/-- An evaluation that ends in NEED_MORE, taken up again in a longer window from the F it left, is the evaluation of the
longer window from the F it began with (43_sync_scanner.md R258, R260). -/
theorem evaluate_resume {v : View} {F i : Nat} {H : Word} (x : List Byte) (e : Bool)
    (h : (evaluate v F i H).verdict = .needMore) :
    evaluate (v.extend x e) (evaluate v F i H).F i H = evaluate (v.extend x e) F i H := by
  have hf := evaluate_needMore h
  have hs0 : (freeSearch v i H).verdict = .needMore → (freeSearch v i H).F = 0 := fun hs =>
    freeLoop_F fun L hL => by unfold freeSearch at hs; rw [hs] at hL; cases hL
  by_cases h0 : Hdr.free H = true ∧ F = 0
  · rw [evaluate_unknown h0] at h ⊢
    rw [hs0 h, h0.2]
  · by_cases hr : chain v F i H = .reject ∧ Hdr.free H = true
    · rw [evaluate_research h0 hr] at h ⊢
      have hc : chain (v.extend x e) F i H = chain v F i H := chainLoop_extend hf x e (by
        show chain v F i H ≠ _; rw [hr.1]; simp)
      rw [hs0 h, evaluate_unknown ⟨hr.2, rfl⟩, evaluate_research h0 (by rw [hc]; exact hr)]
    · rw [evaluate_chain h0 hr]

/-- What a search of a window that is not final decides, and where the search of a longer window goes on from
(43_sync_scanner.md R260, R262, R263). -/
theorem scanLoop_extend {v : View} (hf : ∀ i, finalAt v i = false) (x : List Byte) (e : Bool) {fuel fuel' F i : Nat}
    (h : (v.extend x e).win.length ≤ i + fuel') :
    match scanLoop v fuel F i with
    | .found j H L F' => scanLoop (v.extend x e) fuel' F i = .found j H L F'
    | .needMore j F' => scanLoop (v.extend x e) fuel' F i = scanLoop (v.extend x e) fuel' F' j
    | .exhausted j F' => scanLoop (v.extend x e) fuel' F i = scanLoop (v.extend x e) fuel' F' j := by
  induction fuel generalizing F i with
  | zero => rfl
  | succ fuel ih =>
    by_cases hi : i + hdrSize ≤ v.win.length
    · have hi' : i + hdrSize ≤ (v.extend x e).win.length := by
        simp only [View.extend_win, List.length_append]; omega
      have hh : hdr (v.extend x e).win i = hdr v.win i := hdr_append_left x hi
      obtain ⟨g, rfl⟩ : ∃ g, fuel' = g + 1 := ⟨fuel' - 1, by simp only [hdrSize] at hi'; omega⟩
      have next : ∀ F', scanLoop (v.extend x e) g F' (i + 1) = scanLoop (v.extend x e) (g + 1) F' (i + 1) := fun F' =>
        scanLoop_fuel (by omega) (by omega)
      have here : ∀ F', scanLoop (v.extend x e) (g + 1) F' i =
          if Hdr.valid (hdr v.win i) = true then
            match (evaluate (v.extend x e) F' i (hdr v.win i)).verdict with
            | .accept len => .found i (hdr v.win i) len (evaluate (v.extend x e) F' i (hdr v.win i)).F
            | .needMore => .needMore i (evaluate (v.extend x e) F' i (hdr v.win i)).F
            | .reject => scanLoop (v.extend x e) (g + 1) (evaluate (v.extend x e) F' i (hdr v.win i)).F (i + 1)
          else scanLoop (v.extend x e) (g + 1) F' (i + 1) := by
        intro F'
        rw [scanLoop, if_pos hi', hh]
        simp only [next]
        all_goals rfl
      rw [scanLoop, if_pos hi]
      simp only
      by_cases hv : Hdr.valid (hdr v.win i) = true
      · rw [if_pos hv]
        cases he : (evaluate v F i (hdr v.win i)).verdict with
        | accept L =>
          have := evaluate_extend (hf i) x e (F := F) (H := hdr v.win i) (by rw [he]; simp)
          simp only [here, if_pos hv, this, he]
        | needMore =>
          simp only [here, if_pos hv, evaluate_resume x e he]
        | reject =>
          have := evaluate_extend (hf i) x e (F := F) (H := hdr v.win i) (by rw [he]; simp)
          simp only [here, if_pos hv, this, he]
          exact ih (by omega)
      · rw [if_neg hv]
        simp only [here, if_neg hv]
        exact ih (by omega)
    · rw [scanLoop, if_neg hi]

end Sys2Proof.Machine
end

