-- ==== Sys2Proof/Laws/Rules.lean ====
section
/-! SUPPORT. What a command's rule can do, said once: SCAN by how its search ends, ID3 by what it finds, the others by
their guards. -/

namespace Sys2Proof.Machine

theorem skipActive_iff {s : State} : skipActive s = true ↔ s.id3.skipRemain ≠ 0#28 := by simp [skipActive]

theorem skipActive_eq_false {s : State} : skipActive s = false ↔ s.id3.skipRemain = 0#28 := by simp [skipActive]

/-! ### SCAN -/

theorem scanRule_refused {hold : Bool} {r : Run} (h : r.st.id3.skipRemain ≠ 0#28) : scanRule hold r = r.fail := by
  unfold scanRule; rw [if_pos (skipActive_iff.2 h)]

theorem scanRule_runs {hold : Bool} {r : Run} (h : r.st.id3.skipRemain = 0#28) :
    scanRule hold r = commit hold (search (viewOf r.st) r.st.freeFmt.toNat)
      { r with st := { r.st with freeFmt := BitVec.ofNat 16 (search (viewOf r.st) r.st.freeFmt.toNat).free } } := by
  unfold scanRule; rw [if_neg (by simp [skipActive_eq_false.2 h])]

/-- SCAN where the search accepts a frame (43_sync_scanner.md R259, R261). -/
theorem execScan_found {s : State} {hold : Bool} {i L F : Nat} {H : Word} (h : s.id3.skipRemain = 0#28)
    (hs : search (viewOf s) s.freeFmt.toNat = .found i H L F) :
    execScan hold s = .next { s with
      freeFmt := BitVec.ofNat 16 F
      scan := { off := BitVec.ofNat 24 i, len := BitVec.ofNat 16 L, pos := s.totalParsed + BitVec.ofNat 64 i }
      foundCount := s.foundCount + 1#32
      dec := Hdr.loadDecode s.cfg H (BitVec.ofNat 16 F).toNat
      win := s.win.drop (if hold then i else i + L)
      totalParsed := s.totalParsed + BitVec.ofNat 64 (if hold then i else i + L)
      popCount := BitVec.ofNat 24 (if hold then i else i + L)
      res := 3#4
      busy := false } := by
  unfold execScan completion
  rw [scanRule_runs (show (Run.start s).st.id3.skipRemain = 0#28 from h)]
  simp only [Run.start, hs, commit, commitFound, Run.pop, Run.finish, Run.complete, ResultCode.code, ScanEnd.free,
    Nat.zero_add]

/-- SCAN where a candidate needs more bytes (43_sync_scanner.md R260). -/
theorem execScan_needMore {s : State} {hold : Bool} {i F : Nat} (h : s.id3.skipRemain = 0#28)
    (hs : search (viewOf s) s.freeFmt.toNat = .needMore i F) :
    execScan hold s = .next { s with
      freeFmt := BitVec.ofNat 16 F
      win := s.win.drop i
      totalParsed := s.totalParsed + BitVec.ofNat 64 i
      popCount := BitVec.ofNat 24 i
      res := 2#4
      busy := false } := by
  unfold execScan completion
  rw [scanRule_runs (show (Run.start s).st.id3.skipRemain = 0#28 from h)]
  simp only [Run.start, hs, commit, Run.pop, Run.finish, Run.complete, ResultCode.code, ScanEnd.free, Nat.zero_add]

/-- SCAN where no candidate is left (43_sync_scanner.md R262). -/
theorem execScan_exhausted {s : State} {hold : Bool} {i F : Nat} (h : s.id3.skipRemain = 0#28)
    (hs : search (viewOf s) s.freeFmt.toNat = .exhausted i F) :
    execScan hold s = .next { s with
      freeFmt := BitVec.ofNat 16 F
      win := s.win.drop (if s.eof then s.win.length else i)
      totalParsed := s.totalParsed + BitVec.ofNat 64 (if s.eof then s.win.length else i)
      popCount := BitVec.ofNat 24 (if s.eof then s.win.length else i)
      res := 2#4
      busy := false } := by
  unfold execScan completion
  rw [scanRule_runs (show (Run.start s).st.id3.skipRemain = 0#28 from h)]
  simp only [Run.start, hs, commit, Run.pop, Run.finish, Run.complete, ResultCode.code, ScanEnd.free, Nat.zero_add]
  rfl

/-- The search of a state is sound. -/
theorem search_sound (v : View) (F : Nat) : (search v F).Sound v 0 := scanLoop_sound v _ F 0

/-- The F a search leaves fits its register, where the F it began with does. -/
theorem search_F_lt (v : View) (F : BitVec 16) : (search v F.toNat).free < 65536 := by
  have h := scanLoop_F v v.win.length F.toNat 0
  have := F.isLt
  unfold search; omega

theorem search_F_toNat (v : View) (F : BitVec 16) :
    (BitVec.ofNat 16 (search v F.toNat).free).toNat = (search v F.toNat).free := by
  rw [BitVec.toNat_ofNat, Nat.mod_eq_of_lt (search_F_lt v F)]

/-- An exhausted search stops at max(0, n − 3) (43_sync_scanner.md R253). -/
theorem search_exhausted {v : View} {F i F' : Nat} (h : search v F = .exhausted i F') : i = v.win.length - 3 := by
  have h1 := search_sound v F
  have h2 := scanLoop_exhausted (v := v) (fuel := v.win.length) (by omega) h
  rw [h] at h1
  simp only [ScanEnd.Sound, hdrSize] at h1 h2
  omega

/-! ### CONSUME and TRAILER -/

theorem consumeRule_refused {cnt : BitVec 24} {r : Run} (h : r.st.id3.skipRemain ≠ 0#28) :
    consumeRule cnt r = r.fail := by
  unfold consumeRule; rw [if_pos (skipActive_iff.2 h)]

theorem consumeRule_runs {cnt : BitVec 24} {r : Run} (h : r.st.id3.skipRemain = 0#28) :
    consumeRule cnt r = (r.pop (min cnt.toNat r.st.win.length)).finish .done := by
  unfold consumeRule; rw [if_neg (by simp [skipActive_eq_false.2 h])]

theorem trailerRule_refused {cut : Bool} {r : Run} (h : r.st.eof = false ∨ r.st.id3.skipRemain ≠ 0#28) :
    trailerRule cut r = r.fail := by
  unfold trailerRule
  rcases h with h | h
  · rw [h]; rfl
  · rw [if_pos (skipActive_iff.2 h)]; split <;> rfl

/-- TRAILER at the end of a stream with no skip active (41_id3_skipper.md R185, R187). -/
theorem execTrailer_runs {s : State} {cut : Bool} (he : s.eof = true) (h : s.id3.skipRemain = 0#28) :
    execTrailer cut s = .next { s with
      trl := { v1 := (measureTrailer s.cfg s.win).v1, ext := (measureTrailer s.cfg s.win).ext,
               ape := (measureTrailer s.cfg s.win).ape, len := BitVec.ofNat 64 (measureTrailer s.cfg s.win).len }
      win := if cut then s.win.take (s.win.length - min (measureTrailer s.cfg s.win).len s.win.length) else s.win
      res := 1#4
      popCount := 0#24
      busy := false } := by
  unfold execTrailer completion trailerRule
  have hk : skipActive s = false := skipActive_eq_false.2 h
  cases cut <;>
    simp [Run.start, he, hk, Run.cutTail, Run.finish, Run.complete, ResultCode.code]

/-! ### ID3 -/

/-- The rule's three beginnings: refused, decided or undecided without a skip step, or ending in the skip step
(41_id3_skipper.md R182). -/
theorem id3Rule_cases (r : Run) :
    (r.st.id3.checked = true ∧ id3Rule r = id3SkipStep r) ∨
    (r.st.id3.checked = false ∧ r.st.totalParsed ≠ 0#64 ∧ id3Rule r = r.fail) ∨
    (r.st.id3.checked = false ∧ r.st.totalParsed = 0#64 ∧ r.st.win.length < 10 ∧
      ((r.st.eof = true ∧ id3Rule r = (id3Absent r).finish .done) ∨
        (r.st.eof = false ∧ id3Rule r = r.finish .needMore))) ∨
    (r.st.id3.checked = false ∧ r.st.totalParsed = 0#64 ∧ 10 ≤ r.st.win.length ∧
      ((id3Tag r.st.win = true ∧ id3Rule r = id3SkipStep (id3Detected r)) ∨
        (id3Tag r.st.win = false ∧ id3Rule r = id3SkipStep (id3Absent r)))) := by
  cases hc : r.st.id3.checked
  · right
    by_cases ht : r.st.totalParsed = 0#64
    · right
      by_cases hn : r.st.win.length < 10
      · left
        refine ⟨rfl, ht, hn, ?_⟩
        cases he : r.st.eof
        · exact .inr ⟨rfl, by unfold id3Rule; simp [hc, ht, id3v2HdrSize, hn, he]⟩
        · exact .inl ⟨rfl, by unfold id3Rule; simp [hc, ht, id3v2HdrSize, hn, he]⟩
      · right
        refine ⟨rfl, ht, by omega, ?_⟩
        cases hg : id3Tag r.st.win
        · exact .inr ⟨rfl, by unfold id3Rule; simp [hc, ht, id3v2HdrSize, hn, hg]⟩
        · exact .inl ⟨rfl, by unfold id3Rule; simp [hc, ht, id3v2HdrSize, hn, hg]⟩
    · exact .inl ⟨rfl, ht, by unfold id3Rule; simp [hc, ht]⟩
  · exact .inl ⟨rfl, by unfold id3Rule; simp [hc]⟩

/-- The skip step pops min(n, skip_remain) bytes and says whether the skip is over; with none to skip it pops nothing
(41_id3_skipper.md R183). -/
theorem id3SkipStep_eq (r : Run) {k : Nat} (hk : k = min r.st.win.length r.st.id3.skipRemain.toNat) :
    id3SkipStep r =
      { st := { r.st with
          id3 := { r.st.id3 with skipRemain := BitVec.ofNat 28 (r.st.id3.skipRemain.toNat - k) }
          win := r.st.win.drop k
          totalParsed := r.st.totalParsed + BitVec.ofNat 64 k
          res := if k = r.st.id3.skipRemain.toNat then 1#4 else 2#4 }
        popped := r.popped + k } := by
  have hS := r.st.id3.skipRemain.isLt
  unfold id3SkipStep
  by_cases h0 : r.st.id3.skipRemain = 0#28
  · rw [if_pos h0]
    have : k = 0 := by rw [h0] at hk; simpa using hk
    subst this
    have hs : BitVec.ofNat 28 (r.st.id3.skipRemain.toNat - 0) = r.st.id3.skipRemain := by simp
    have hz : (if 0 = r.st.id3.skipRemain.toNat then 1#4 else 2#4) = 1#4 := by rw [h0]; rfl
    rw [hs, hz]
    simp [Run.finish, ResultCode.code]
  · rw [if_neg h0]
    have hsub : r.st.id3.skipRemain - BitVec.ofNat 28 k = BitVec.ofNat 28 (r.st.id3.skipRemain.toNat - k) := by
      apply BitVec.eq_of_toNat_eq
      rw [BitVec.toNat_sub_of_le]
      · simp only [BitVec.toNat_ofNat]; rw [Nat.mod_eq_of_lt (by omega), Nat.mod_eq_of_lt (by omega)]
      · simp only [BitVec.le_def, BitVec.toNat_ofNat]; rw [Nat.mod_eq_of_lt (by omega)]; omega
    have hz : BitVec.ofNat 28 (r.st.id3.skipRemain.toNat - k) = 0#28 ↔ k = r.st.id3.skipRemain.toNat := by
      rw [← BitVec.toNat_inj]; simp only [BitVec.toNat_ofNat]; rw [Nat.mod_eq_of_lt (by omega)]; omega
    simp only [← hk, Run.pop, Run.finish, hsub]
    by_cases he : k = r.st.id3.skipRemain.toNat
    · simp [he, ResultCode.code]
    · simp [hz.not.2 he, he, ResultCode.code]

/-- The state after a refused command (60_exceptions.md R304). -/
def refusedState (s : State) : State :=
  { s with res := 5#4, err := s.err ||| 0b010000#6, popCount := 0#24, busy := false }

theorem complete_fail (s : State) : (Run.start s).fail.complete = refusedState s := rfl

/-- The ID3 registers the skip step begins with, and how many bytes were popped before it: none where detection has run or
finds no tag, the header's ten where it finds one (41_id3_skipper.md R182). -/
def Id3Begins (s : State) (d : Id3Regs) (a : Nat) : Prop :=
  (s.id3.checked = true ∧ a = 0 ∧ d = s.id3) ∨
  (s.id3.checked = false ∧ s.totalParsed = 0#64 ∧ a = 10 ∧ id3Tag s.win = true ∧
    d = { checked := true, present := true, ver := byteAt s.win 3, rev := byteAt s.win 4, flags := byteAt s.win 5,
          size := id3TagSize s.win, skipRemain := id3TagSize s.win }) ∨
  (s.id3.checked = false ∧ s.totalParsed = 0#64 ∧ a = 0 ∧ 10 ≤ s.win.length ∧ id3Tag s.win = false ∧
    d = { s.id3 with checked := true, present := false })

/-- Everything ID3 can do. -/
theorem execId3_cases {s t : State} (h : execId3 s = .next t) :
    (s.id3.checked = false ∧ s.totalParsed ≠ 0#64 ∧ t = refusedState s) ∨
    (s.id3.checked = false ∧ s.totalParsed = 0#64 ∧ s.win.length < 10 ∧ s.eof = false ∧
      t = { s with res := 2#4, popCount := 0#24, busy := false }) ∨
    (s.id3.checked = false ∧ s.totalParsed = 0#64 ∧ s.win.length < 10 ∧ s.eof = true ∧
      t = { s with
        id3 := { s.id3 with checked := true, present := false }, res := 1#4, popCount := 0#24, busy := false }) ∨
    ∃ (d : Id3Regs) (a k : Nat), k = min (s.win.length - a) d.skipRemain.toNat ∧ a ≤ s.win.length ∧ Id3Begins s d a ∧
      t = { s with
        id3 := { d with skipRemain := BitVec.ofNat 28 (d.skipRemain.toNat - k) }
        win := s.win.drop (a + k)
        totalParsed := s.totalParsed + BitVec.ofNat 64 (a + k)
        res := if k = d.skipRemain.toNat then 1#4 else 2#4
        popCount := BitVec.ofNat 24 (a + k)
        busy := false } := by
  have := completion_cases h; subst this
  rcases id3Rule_cases (Run.start s) with
    ⟨a, h1⟩ | ⟨a, b, h1⟩ | ⟨a, b, h2, ⟨c, h1⟩ | ⟨c, h1⟩⟩ | ⟨a, b, h2, ⟨c, h1⟩ | ⟨c, h1⟩⟩ <;> rw [h1]
  · right; right; right
    refine ⟨s.id3, 0, _, rfl, by omega, .inl ⟨a, rfl, rfl⟩, ?_⟩
    rw [id3SkipStep_eq _ rfl]; simp [Run.start, Run.complete]
  · exact .inl ⟨a, b, rfl⟩
  · exact .inr (.inr (.inl ⟨a, b, h2, c, rfl⟩))
  · exact .inr (.inl ⟨a, b, h2, c, rfl⟩)
  · right; right; right
    refine ⟨_, 10, _, rfl, h2, .inr (.inl ⟨a, b, rfl, c, rfl⟩), ?_⟩
    rw [id3SkipStep_eq _ rfl]
    simp [Run.start, Run.complete, id3Detected, Run.pop, id3v2HdrSize, BitVec.ofNat_add, BitVec.add_assoc]
  · right; right; right
    refine ⟨_, 0, _, rfl, by omega, .inr (.inr ⟨a, b, rfl, h2, c, rfl⟩), ?_⟩
    rw [id3SkipStep_eq _ rfl]; simp [Run.start, Run.complete, id3Absent]

/-- Everything SCAN can do. -/
theorem execScan_cases {s t : State} {hold : Bool} (h : execScan hold s = .next t) :
    (s.id3.skipRemain ≠ 0#28 ∧ t = refusedState s) ∨
    (s.id3.skipRemain = 0#28 ∧ ∃ (i L F : Nat) (H : Word) (k : Nat),
      search (viewOf s) s.freeFmt.toNat = .found i H L F ∧ k = (if hold then i else i + L) ∧
      t = { s with
        freeFmt := BitVec.ofNat 16 F
        scan := { off := BitVec.ofNat 24 i, len := BitVec.ofNat 16 L, pos := s.totalParsed + BitVec.ofNat 64 i }
        foundCount := s.foundCount + 1#32
        dec := Hdr.loadDecode s.cfg H (BitVec.ofNat 16 F).toNat
        win := s.win.drop k
        totalParsed := s.totalParsed + BitVec.ofNat 64 k
        popCount := BitVec.ofNat 24 k
        res := 3#4
        busy := false }) ∨
    (s.id3.skipRemain = 0#28 ∧ ∃ i F k : Nat,
      (search (viewOf s) s.freeFmt.toNat = .needMore i F ∧ k = i ∨
        search (viewOf s) s.freeFmt.toNat = .exhausted i F ∧ k = (if s.eof then s.win.length else i)) ∧
      t = { s with
        freeFmt := BitVec.ofNat 16 F
        win := s.win.drop k
        totalParsed := s.totalParsed + BitVec.ofNat 64 k
        popCount := BitVec.ofNat 24 k
        res := 2#4
        busy := false }) := by
  by_cases hk : s.id3.skipRemain = 0#28
  · right
    cases hs : search (viewOf s) s.freeFmt.toNat with
    | found i H L F => rw [execScan_found hk hs] at h; cases h; exact .inl ⟨hk, i, L, F, H, _, rfl, rfl, rfl⟩
    | needMore i F => rw [execScan_needMore hk hs] at h; cases h; exact .inr ⟨hk, i, F, _, .inl ⟨rfl, rfl⟩, rfl⟩
    | exhausted i F => rw [execScan_exhausted hk hs] at h; cases h; exact .inr ⟨hk, i, F, _, .inr ⟨rfl, rfl⟩, rfl⟩
  · have := completion_cases h
    rw [scanRule_refused (by exact hk)] at this
    exact .inl ⟨hk, this⟩

/-- Everything TRAILER can do to the registers it does not write and to the window. -/
theorem execTrailer_cases {s t : State} {cut : Bool} (h : execTrailer cut s = .next t) :
    ((s.eof = false ∨ s.id3.skipRemain ≠ 0#28) ∧ t = refusedState s) ∨
    (s.eof = true ∧ s.id3.skipRemain = 0#28 ∧ ∃ k,
      t = { s with trl := t.trl, win := s.win.take k, res := 1#4, popCount := 0#24, busy := false }) := by
  by_cases hk : s.eof = false ∨ s.id3.skipRemain ≠ 0#28
  · have := completion_cases h
    rw [trailerRule_refused (by exact hk)] at this
    exact .inl ⟨hk, this⟩
  · simp only [not_or, Bool.not_eq_false, not_not] at hk
    rw [execTrailer_runs hk.1 hk.2] at h
    cases h
    cases cut
    · exact .inr ⟨hk.1, hk.2, s.win.length, by simp⟩
    · exact .inr ⟨hk.1, hk.2, _, rfl⟩

/-- Everything CONSUME can do. -/
theorem execConsume_cases {s t : State} {cnt : BitVec 24} (h : execConsume cnt s = .next t) :
    (s.id3.skipRemain ≠ 0#28 ∧ t = refusedState s) ∨
    (s.id3.skipRemain = 0#28 ∧ ∃ k, k = min cnt.toNat s.win.length ∧
      t = { s with
        win := s.win.drop k
        totalParsed := s.totalParsed + BitVec.ofNat 64 k
        res := 1#4
        popCount := BitVec.ofNat 24 k
        busy := false }) := by
  have ht := completion_cases h
  by_cases hk : s.id3.skipRemain = 0#28
  · rw [consumeRule_runs (by exact hk)] at ht
    exact .inr ⟨hk, _, rfl, by simp [ht, Run.start, Run.pop, Run.finish, Run.complete, ResultCode.code]⟩
  · rw [consumeRule_refused (by exact hk)] at ht
    exact .inl ⟨hk, ht⟩

/-- Everything a bus operation can do while a command is pending: write ERR, WIN_RADDR and the value read
(40_window_port.md R141). -/
theorem exec_bus_busy {s t : State} {i : Instr} (hb : s.busy = true) (hi : i.isCommand = false)
    (h : exec i s = .next t) : ∃ e w d, t = { s with err := e, winRaddr := w, rdata := d } := by
  have gated : ∀ {f : State → State}, busyGated f s = .next t →
      ∃ e w d, t = { s with err := e, winRaddr := w, rdata := d } := by
    intro f hg
    rcases busyGated_cases hg with ⟨_, rfl⟩ | ⟨hn, _⟩
    · exact ⟨_, s.winRaddr, s.rdata, rfl⟩
    · rw [hb] at hn; cases hn
  cases i with
  | push d => exact gated h
  | setEof d => exact gated h
  | issue d => exact gated h
  | setHdr d => exact gated h
  | setHdr2 d => exact gated h
  | clearErr d => cases h; exact ⟨_, s.winRaddr, s.rdata, rfl⟩
  | setRaddr d => cases h; exact ⟨s.err, _, s.rdata, rfl⟩
  | peek => cases h; exact ⟨s.err, s.winRaddr, _, rfl⟩
  | read off =>
    rcases execRead_cases h with ⟨_, _, rfl⟩ | ⟨_, rfl⟩
    · exact ⟨s.err, s.winRaddr, _, rfl⟩
    · exact ⟨_, s.winRaddr, _, rfl⟩
  | nop | reset | decode | compare | id3 | scan _ | trailer _ | consume _ => cases hi

end Sys2Proof.Machine
end

