-- ==== Sys2Proof/Laws/Candidate.lean ====
section
/-! SUPPORT. The scanner's searches meet the conditions of Safety.lean: the chain and the free-format search by what they
answer, and SCAN by what its first candidate comes to. -/

namespace Sys2Proof.Machine

theorem finalAt_iff {s : State} {i : Nat} : finalAt (viewOf s) i = true ↔ Final s i := by
  simp [finalAt, viewOf, Final]

theorem finalAt_eq_false {s : State} {i : Nat} : finalAt (viewOf s) i = false ↔ ¬ Final s i := by
  rw [← finalAt_iff, Bool.not_eq_true]

@[simp] theorem viewOf_win (s : State) : (viewOf s).win = s.win := rfl
@[simp] theorem viewOf_eof (s : State) : (viewOf s).eof = s.eof := rfl
@[simp] theorem viewOf_cfg (s : State) : (viewOf s).cfg = s.cfg := rfl

theorem Final.of_eof {s : State} (h : s.eof = true) (i : Nat) : Final s i := .inl h

/-! ### The chain -/

theorem Corroborated.zero (s : State) (F i : Nat) : Corroborated s F i 0 := fun _ h1 h2 => by omega

theorem Corroborated.succ {s : State} {F i m : Nat} (h : Corroborated s F i m)
    (hn : chainOffset s F i (m + 1) + 4 ≤ s.win.length)
    (hc : Hdr.compare (hdr s.win i) (hdr s.win (chainOffset s F i (m + 1))) = true) : Corroborated s F i (m + 1) := by
  intro a h1 h2
  rcases Nat.lt_or_eq_of_le h2 with h3 | rfl
  · exact h a h1 (by omega)
  · exact ⟨hn, hc⟩

theorem Corroborated.mono {s : State} {F i m k : Nat} (h : Corroborated s F i m) (hk : k ≤ m) : Corroborated s F i k :=
  fun a h1 h2 => h a h1 (by omega)

/-- The chain after m corroborations. -/
def chainFrom (s : State) (F i m : Nat) : Verdict :=
  chainLoop (viewOf s) F i (hdr s.win i) (Hdr.frameLen s.cfg (hdr s.win i) F) (10 - m) m (chainOffset s F i m)
    (Hdr.frameLen s.cfg (hdr s.win (chainOffset s F i m)) F)

/-- One turn of the chain's loop. -/
theorem chainFrom_step {s : State} {F i m : Nat} (hm : m < 10) : chainFrom s F i m =
    if s.win.length < chainOffset s F i (m + 1) + 4 then
      if 1 ≤ m then (if finalAt (viewOf s) i then .accept (Hdr.frameLen s.cfg (hdr s.win i) F) else .needMore)
      else loneFinal (viewOf s) i (Hdr.frameLen s.cfg (hdr s.win i) F) (chainOffset s F i (m + 1))
    else if Hdr.compare (hdr s.win i) (hdr s.win (chainOffset s F i (m + 1))) then chainFrom s F i (m + 1)
    else .reject := by
  rw [chainFrom, show 10 - m = (10 - (m + 1)) + 1 by omega, chainLoop]
  rfl

theorem chain_eq_chainFrom {s : State} {F i m : Nat} (h : Corroborated s F i m) (hm : m ≤ 10) :
    chain (viewOf s) F i (hdr s.win i) = chainFrom s F i m := by
  induction m with
  | zero => rfl
  | succ m ih =>
    have := h (m + 1) (by omega) le_rfl
    rw [ih (h.mono (by omega)) (by omega), chainFrom_step (by omega), if_neg (by omega), if_pos this.2]

/-- The chain's ACCEPT on corroborations: ten, or at least one where a final window ends (43_sync_scanner.md R255). -/
theorem chain_corroborated {s : State} {F i m : Nat} (h : Corroborated s F i m)
    (hm : m = 10 ∨ 1 ≤ m ∧ m < 10 ∧ Final s i ∧ s.win.length < chainOffset s F i (m + 1) + 4) :
    chain (viewOf s) F i (hdr s.win i) = .accept (Hdr.frameLen s.cfg (hdr s.win i) F) := by
  rcases hm with rfl | ⟨h1, h2, h3, h4⟩
  · rw [chain_eq_chainFrom h le_rfl]; rfl
  · rw [chain_eq_chainFrom h h2.le, chainFrom_step h2, if_pos h4, if_pos h1, if_pos (finalAt_iff.2 h3)]

/-- The chain's ACCEPT of the lone final frame (43_sync_scanner.md R256). -/
theorem chain_lone {s : State} {F i : Nat} (he : s.eof = true)
    (hn : i + Hdr.frameLen s.cfg (hdr s.win i) F = s.win.length) :
    chain (viewOf s) F i (hdr s.win i) = .accept (Hdr.frameLen s.cfg (hdr s.win i) F) := by
  have h1 : chainOffset s F i 1 = s.win.length := hn
  rw [chain_eq_chainFrom (Corroborated.zero s F i) (by omega), chainFrom_step (by omega), Nat.zero_add, if_pos (by omega),
    if_neg (by omega), loneFinal, if_pos ⟨he, h1⟩]

theorem chain_rejects {s : State} {F i : Nat} (h : ChainRejects s F i) :
    chain (viewOf s) F i (hdr s.win i) = .reject := by
  obtain ⟨m, hm, hc, ⟨h1, h2⟩ | ⟨rfl, h1, h2, h3⟩⟩ := h
  · rw [chain_eq_chainFrom hc hm.le, chainFrom_step hm, if_neg (by omega), if_neg (by rw [h2]; simp)]
  · rw [chain_eq_chainFrom hc hm.le, chainFrom_step hm, Nat.zero_add, if_pos h1, if_neg (by omega), loneFinal,
      viewOf_eof, viewOf_win, if_neg h3, if_pos (finalAt_iff.2 h2)]

theorem chain_runsOut {s : State} {F i : Nat} (h : ChainRunsOut s F i) :
    chain (viewOf s) F i (hdr s.win i) = .needMore := by
  obtain ⟨m, hm, hc, h1, h2⟩ := h
  have hf : ¬ finalAt (viewOf s) i = true := fun h => h2 (finalAt_iff.1 h)
  have he : ¬ (s.eof = true ∧ chainOffset s F i (m + 1) = s.win.length) := fun h => h2 (.of_eof h.1 i)
  rw [chain_eq_chainFrom hc hm.le, chainFrom_step hm, if_pos h1, loneFinal, viewOf_eof, viewOf_win, if_neg he, if_neg hf,
    if_neg hf, ite_self]

/-- Every chain comes to one of these ends (43_sync_scanner.md R255, R256). -/
theorem chain_cases (s : State) (F i : Nat) :
    (∃ m, Corroborated s F i m ∧
      (m = 10 ∨ 1 ≤ m ∧ m < 10 ∧ Final s i ∧ s.win.length < chainOffset s F i (m + 1) + 4)) ∨
    (s.eof = true ∧ i + Hdr.frameLen s.cfg (hdr s.win i) F = s.win.length) ∨
    ChainRejects s F i ∨ ChainRunsOut s F i := by
  suffices ∀ d m, m + d = 10 → Corroborated s F i m → _ from this 10 0 rfl (Corroborated.zero s F i)
  intro d
  induction d with
  | zero => intro m hm hc; exact .inl ⟨m, hc, .inl hm⟩
  | succ d ih =>
    intro m hm hc
    by_cases hn : s.win.length < chainOffset s F i (m + 1) + 4
    · by_cases hf : Final s i
      · rcases Nat.eq_zero_or_pos m with rfl | h0
        · by_cases hl : s.eof = true ∧ chainOffset s F i 1 = s.win.length
          · exact .inr (.inl hl)
          · exact .inr (.inr (.inl ⟨0, by omega, hc, .inr ⟨rfl, hn, hf, hl⟩⟩))
        · exact .inl ⟨m, hc, .inr ⟨h0, by omega, hf, hn⟩⟩
      · exact .inr (.inr (.inr ⟨m, by omega, hc, hn, hf⟩))
    · cases hk : Hdr.compare (hdr s.win i) (hdr s.win (chainOffset s F i (m + 1))) with
      | true => exact ih (m + 1) (by omega) (hc.succ (by omega) hk)
      | false => exact .inr (.inr (.inl ⟨m, by omega, hc, .inl ⟨by omega, hk⟩⟩))

theorem chain_eq_reject {s : State} {F i : Nat} : chain (viewOf s) F i (hdr s.win i) = .reject ↔ ChainRejects s F i := by
  refine ⟨fun h => ?_, chain_rejects⟩
  rcases chain_cases s F i with ⟨m, h1, h2⟩ | ⟨h1, h2⟩ | h1 | h1
  · rw [chain_corroborated h1 h2] at h; cases h
  · rw [chain_lone h1 h2] at h; cases h
  · exact h1
  · rw [chain_runsOut h1] at h; cases h

theorem chain_eq_needMore {s : State} {F i : Nat} :
    chain (viewOf s) F i (hdr s.win i) = .needMore ↔ ChainRunsOut s F i := by
  refine ⟨fun h => ?_, chain_runsOut⟩
  rcases chain_cases s F i with ⟨m, h1, h2⟩ | ⟨h1, h2⟩ | h1 | h1
  · rw [chain_corroborated h1 h2] at h; cases h
  · rw [chain_lone h1 h2] at h; cases h
  · rw [chain_rejects h1] at h; cases h
  · exact h1

/-! ### The free-format search -/

/-- The free-format search from k on. -/
def freeFrom (s : State) (i k : Nat) : Evaluation := freeLoop (viewOf s) i (hdr s.win i) (2304 - k) k

/-- One turn of the search's loop. -/
theorem freeFrom_step {s : State} {i k : Nat} (hk : k < 2304) : freeFrom s i k =
    if s.win.length < i + k + 4 then { verdict := if finalAt (viewOf s) i then .reject else .needMore, F := 0 }
    else if Hdr.compare (hdr s.win i) (hdr s.win (i + k)) then
      if s.win.length < thirdOffset s i k + 4 then
        if finalAt (viewOf s) i then freeFrom s i (k + 1) else { verdict := .needMore, F := 0 }
      else if Hdr.compare (hdr s.win i) (hdr s.win (thirdOffset s i k)) then
        { verdict := .accept k, F := k - Hdr.p (hdr s.win i) }
      else freeFrom s i (k + 1)
    else freeFrom s i (k + 1) := by
  have ht : i + (k + (k - Hdr.p (hdr s.win i)) + Hdr.p (hdr s.win (i + k))) = thirdOffset s i k := by
    simp only [thirdOffset]; omega
  rw [freeFrom, show 2304 - k = (2304 - (k + 1)) + 1 by omega, freeLoop]
  simp only [viewOf_win, ht]
  rfl

theorem freeSearch_from {s : State} {i k : Nat} (h4 : 4 ≤ k) (hk : k ≤ 2304)
    (h : ∀ k', 4 ≤ k' → k' < k → FreePassesOver s i k') :
    freeSearch (viewOf s) i (hdr s.win i) = freeFrom s i k := by
  induction k with
  | zero => omega
  | succ k ih =>
    rcases Nat.lt_or_eq_of_le h4 with h5 | h5
    · rw [ih (by omega) (by omega) fun k' a b => h k' a (by omega)]
      obtain ⟨h1, h2⟩ := h k (by omega) (by omega)
      rw [freeFrom_step (by omega), if_neg (by omega)]
      rcases h2 with h2 | ⟨h2, h3⟩ | ⟨h2, h3⟩
      · rw [if_neg (by rw [h2]; simp)]
      · rw [if_neg (show ¬ s.win.length < thirdOffset s i k + 4 by omega),
          if_neg (show ¬ Hdr.compare (hdr s.win i) (hdr s.win (thirdOffset s i k)) = true by rw [h3]; simp), ite_self]
      · rw [if_pos h2, if_pos (finalAt_iff.2 h3), ite_self]
    · obtain rfl : k = 3 := by omega
      rfl

theorem freeSearch_accepts {s : State} {i k : Nat} (h : FreeAccepts s i k) :
    freeSearch (viewOf s) i (hdr s.win i) = { verdict := .accept k, F := k - Hdr.p (hdr s.win i) } := by
  obtain ⟨h4, hk, hp, h1, h2, h3⟩ := h
  have : i + k ≤ thirdOffset s i k := by simp only [thirdOffset]; omega
  rw [freeSearch_from h4 (by omega) hp, freeFrom_step (by omega), if_neg (by omega), if_pos h1, if_neg (by omega), if_pos h3]

theorem freeSearch_runsOut {s : State} {i : Nat} (h : FreeRunsOut s i) :
    freeSearch (viewOf s) i (hdr s.win i) = { verdict := .needMore, F := 0 } := by
  obtain ⟨hf, k, h4, hk, hp, h⟩ := h
  have hf : ¬ finalAt (viewOf s) i = true := fun h => hf (finalAt_iff.1 h)
  rw [freeSearch_from h4 (by omega) hp, freeFrom_step (by omega), if_neg hf, if_neg hf]
  by_cases hn : s.win.length < i + k + 4
  · rw [if_pos hn]
  · obtain ⟨h1, h2⟩ := h.resolve_left hn
    rw [if_neg hn, if_pos h1, if_pos h2]

theorem freeSearch_rejects {s : State} {i : Nat} (h : FreeRejects s i) :
    freeSearch (viewOf s) i (hdr s.win i) = { verdict := .reject, F := 0 } := by
  obtain ⟨hp, hn⟩ := h
  by_cases hl : i + 2307 ≤ s.win.length
  · rw [freeSearch_from (k := 2304) (by omega) le_rfl fun k' a b => hp k' a (by omega) (by omega)]
    rfl
  · have hf := finalAt_iff.2 (hn.resolve_left hl)
    obtain ⟨k, h4, hk, hw, hpk⟩ : ∃ k, 4 ≤ k ∧ k < 2304 ∧ s.win.length < i + k + 4 ∧
        ∀ k', k' < k → 4 ≤ k' → i + k' + 4 ≤ s.win.length := by
      by_cases h8 : s.win.length < i + 8
      · exact ⟨4, by omega, by omega, by omega, fun _ _ _ => by omega⟩
      · exact ⟨s.win.length - i - 3, by omega, by omega, by omega, fun _ _ _ => by omega⟩
    rw [freeSearch_from h4 hk.le fun k' a b => hp k' a (by omega) (hpk k' b a), freeFrom_step hk, if_pos hw, if_pos hf]

/-- Every free-format search comes to one of these ends (43_sync_scanner.md R257). -/
theorem freeSearch_cases (s : State) (i : Nat) : (∃ k, FreeAccepts s i k) ∨ FreeRejects s i ∨ FreeRunsOut s i := by
  suffices ∀ d k, k + d = 2304 → 4 ≤ k → (∀ k', 4 ≤ k' → k' < k → FreePassesOver s i k') → _ from
    this 2300 4 rfl le_rfl fun _ h1 h2 => by omega
  intro d
  induction d with
  | zero =>
    intro k hk h4 hp
    have := (hp 2303 (by omega) (by omega)).1
    exact .inr (.inl ⟨fun k' a b _ => hp k' a (by omega), .inl (by omega)⟩)
  | succ d ih =>
    intro k hk h4 hp
    by_cases hn : s.win.length < i + k + 4
    · by_cases hf : Final s i
      · exact .inr (.inl ⟨fun k' a b c => hp k' a (by omega), .inr hf⟩)
      · exact .inr (.inr ⟨hf, k, h4, by omega, hp, .inl hn⟩)
    · have next : FreePassesOver s i k → _ := fun h => ih (k + 1) (by omega) (by omega) fun k' a b => by
        rcases Nat.lt_or_eq_of_le (Nat.le_of_lt_succ b) with c | rfl
        · exact hp k' a c
        · exact h
      cases hc : Hdr.compare (hdr s.win i) (hdr s.win (i + k)) with
      | false => exact next ⟨by omega, .inl hc⟩
      | true =>
        by_cases ht : s.win.length < thirdOffset s i k + 4
        · by_cases hf : Final s i
          · exact next ⟨by omega, .inr (.inr ⟨ht, hf⟩)⟩
          · exact .inr (.inr ⟨hf, k, h4, by omega, hp, .inr ⟨hc, ht⟩⟩)
        · cases h3 : Hdr.compare (hdr s.win i) (hdr s.win (thirdOffset s i k)) with
          | false => exact next ⟨by omega, .inr (.inl ⟨by omega, h3⟩)⟩
          | true => exact .inl ⟨k, h4, by omega, hp, hc, by omega, h3⟩

/-! ### An evaluation -/

theorem evaluate_known {s : State} {F i : Nat} (h : Hdr.free (hdr s.win i) = false ∨ F ≠ 0)
    (hr : Hdr.free (hdr s.win i) = false ∨ ¬ ChainRejects s F i) :
    evaluate (viewOf s) F i (hdr s.win i) = { verdict := chain (viewOf s) F i (hdr s.win i), F := F } := by
  refine evaluate_chain ?_ ?_
  · rintro ⟨a, b⟩; rcases h with h | h
    · rw [a] at h; cases h
    · exact h b
  · rintro ⟨a, b⟩; rcases hr with h | h
    · rw [b] at h; cases h
    · exact h (chain_eq_reject.1 a)

theorem evaluate_searches {s : State} {F i : Nat} (hfree : Hdr.free (hdr s.win i) = true)
    (h : F = 0 ∨ ChainRejects s F i) :
    evaluate (viewOf s) F i (hdr s.win i) = freeSearch (viewOf s) i (hdr s.win i) := by
  by_cases h0 : F = 0
  · exact evaluate_unknown ⟨hfree, h0⟩
  · exact evaluate_research (fun h => h0 h.2) ⟨chain_rejects (h.resolve_left h0), hfree⟩

/-- What an evaluation that accepts comes to (43_sync_scanner.md R254). -/
theorem evaluate_accept_cases {s : State} {F i L : Nat}
    (h : (evaluate (viewOf s) F i (hdr s.win i)).verdict = .accept L) :
    ((Hdr.free (hdr s.win i) = false ∨ F ≠ 0) ∧ chain (viewOf s) F i (hdr s.win i) = .accept L ∧
        (evaluate (viewOf s) F i (hdr s.win i)).F = F) ∨
      (Hdr.free (hdr s.win i) = true ∧ (F = 0 ∨ ChainRejects s F i) ∧ FreeAccepts s i L ∧
        (evaluate (viewOf s) F i (hdr s.win i)).F = L - Hdr.p (hdr s.win i)) := by
  by_cases hs : Hdr.free (hdr s.win i) = true ∧ (F = 0 ∨ ChainRejects s F i)
  · rw [evaluate_searches hs.1 hs.2] at h ⊢
    rcases freeSearch_cases s i with ⟨k, hk⟩ | hk | hk
    · rw [freeSearch_accepts hk] at h ⊢
      cases h
      exact .inr ⟨hs.1, hs.2, hk, rfl⟩
    · rw [freeSearch_rejects hk] at h; cases h
    · rw [freeSearch_runsOut hk] at h; cases h
  · have hk : Hdr.free (hdr s.win i) = false ∨ F ≠ 0 := by
      by_cases hf : Hdr.free (hdr s.win i) = true
      · exact .inr fun h0 => hs ⟨hf, .inl h0⟩
      · exact .inl (by simpa using hf)
    have hr : Hdr.free (hdr s.win i) = false ∨ ¬ ChainRejects s F i := by
      by_cases hf : Hdr.free (hdr s.win i) = true
      · exact .inr fun h0 => hs ⟨hf, .inr h0⟩
      · exact .inl (by simpa using hf)
    rw [evaluate_known hk hr] at h ⊢
    exact .inl ⟨hk, h, rfl⟩

/-- F after an evaluation that does not accept: as it was, or 0 by a rejected chain (43_sync_scanner.md R258). -/
theorem evaluate_F_cases {s : State} {F i : Nat}
    (h : ∀ L, (evaluate (viewOf s) F i (hdr s.win i)).verdict ≠ .accept L) :
    (evaluate (viewOf s) F i (hdr s.win i)).F = F ∨
      ((evaluate (viewOf s) F i (hdr s.win i)).F = 0 ∧ Hdr.free (hdr s.win i) = true ∧ ChainRejects s F i) := by
  by_cases h0 : Hdr.free (hdr s.win i) = true ∧ F = 0
  · rw [evaluate_unknown h0] at h ⊢
    exact .inl ((freeLoop_F h).trans h0.2.symm)
  · by_cases hr : chain (viewOf s) F i (hdr s.win i) = .reject ∧ Hdr.free (hdr s.win i) = true
    · rw [evaluate_research h0 hr] at h ⊢
      exact .inr ⟨freeLoop_F h, hr.2, chain_eq_reject.1 hr.1⟩
    · rw [evaluate_chain h0 hr]; exact .inl rfl

/-! ### F through the candidate loop -/

/-- What F may be at a candidate: the F the SCAN began with, or 0 by a candidate whose chain was rejected under it
(43_sync_scanner.md R258). -/
def ReachedF (s : State) (F F' : Nat) : Prop :=
  F' = F ∨ (F' = 0 ∧ ∃ j, j + 4 ≤ s.win.length ∧ Hdr.valid (hdr s.win j) = true ∧ Hdr.free (hdr s.win j) = true ∧
    ChainRejects s F j)

/-- How a search that began with F ends: by an evaluation under an F it can have reached. -/
def ScanEnd.ReachedFrom (s : State) (F : Nat) : ScanEnd → Prop
  | .found i H L F' => i + 4 ≤ s.win.length ∧ H = hdr s.win i ∧ Hdr.valid H = true ∧
      ∃ F₀, ReachedF s F F₀ ∧ evaluate (viewOf s) F₀ i H = { verdict := .accept L, F := F' }
  | .needMore _ F' => ReachedF s F F'
  | .exhausted _ F' => ReachedF s F F'

theorem scanLoop_reached {s : State} {F F₀ : Nat} (fuel i : Nat) (h : ReachedF s F F₀) :
    (scanLoop (viewOf s) fuel F₀ i).ReachedFrom s F := by
  induction fuel generalizing F₀ i with
  | zero => exact h
  | succ fuel ih =>
    rw [scanLoop]
    by_cases hi : i + hdrSize ≤ (viewOf s).win.length
    · rw [if_pos hi]
      by_cases hv : Hdr.valid (hdr s.win i) = true
      · simp only [viewOf_win, hv, if_true]
        have next : (∀ L, (evaluate (viewOf s) F₀ i (hdr s.win i)).verdict ≠ .accept L) →
            ReachedF s F (evaluate (viewOf s) F₀ i (hdr s.win i)).F := fun hn => by
          rcases evaluate_F_cases hn with h1 | ⟨h1, h2, h3⟩
          · rw [h1]; exact h
          · rcases h with rfl | ⟨_, h4⟩
            · exact .inr ⟨h1, i, hi, hv, h2, h3⟩
            · exact .inr ⟨h1, h4⟩
        cases he : (evaluate (viewOf s) F₀ i (hdr s.win i)).verdict with
        | accept L => exact ⟨hi, rfl, hv, F₀, h, by rw [← he]⟩
        | needMore => exact next fun L hL => by rw [he] at hL; cases hL
        | reject => exact ih _ (next fun L hL => by rw [he] at hL; cases hL)
      · simp only [viewOf_win, hv]
        exact ih _ h
    · rw [if_neg hi]; exact h

theorem search_reached (s : State) (F : Nat) : (search (viewOf s) F).ReachedFrom s F := scanLoop_reached _ _ (.inl rfl)

/-! ### SCAN by its first candidate -/

/-- Bytes that hold no valid header are passed (43_sync_scanner.md R253). -/
theorem scanLoop_invalid {v : View} {F i : Nat} (hj : ∀ j, j < i → Hdr.valid (hdr v.win j) = false)
    (hi : i + hdrSize ≤ v.win.length) : scanLoop v v.win.length F 0 = scanLoop v v.win.length F i := by
  induction i with
  | zero => rfl
  | succ i ih =>
    rw [ih (fun j h => hj j (by omega)) (by omega)]
    obtain ⟨g, hg⟩ : ∃ g, v.win.length = g + 1 := ⟨v.win.length - 1, by simp only [hdrSize] at hi; omega⟩
    conv_lhs => rw [hg]
    rw [scanLoop, if_pos (by omega)]
    simp only
    rw [if_neg (by rw [hj i (by omega)]; simp)]
    exact scanLoop_fuel (by omega) (by omega)

/-- The search is what the first candidate comes to. -/
theorem search_first {s : State} {i F : Nat} {H : Word} (h : FirstCandidate s i H) : search (viewOf s) F =
    match (evaluate (viewOf s) F i H).verdict with
    | .accept L => .found i H L (evaluate (viewOf s) F i H).F
    | .needMore => .needMore i (evaluate (viewOf s) F i H).F
    | .reject => scanLoop (viewOf s) s.win.length (evaluate (viewOf s) F i H).F (i + 1) := by
  obtain ⟨_, hj, hi, rfl, hv⟩ := h
  rw [search, scanLoop_invalid (v := viewOf s) hj hi]
  obtain ⟨g, hg⟩ : ∃ g, s.win.length = g + 1 := ⟨s.win.length - 1, by omega⟩
  rw [show (viewOf s).win.length = g + 1 from hg, scanLoop, if_pos (show i + hdrSize ≤ (viewOf s).win.length from hi)]
  simp only [viewOf_win, hv, if_true]
  cases (evaluate (viewOf s) F i (hdr s.win i)).verdict with
  | accept L => rfl
  | needMore => rfl
  | reject => exact scanLoop_fuel (by rw [viewOf_win]; omega) (by rw [viewOf_win]; omega)

/-- Past a rejected candidate the search is that of the window from the next byte on (43_sync_scanner.md R253). -/
theorem search_rejects {s : State} {i F : Nat} {H : Word} (h : FirstCandidate s i H)
    (hw : Memory.wf s.cfg.winCap s.win = true) (he : (evaluate (viewOf s) F i H).verdict = .reject) : search (viewOf s) F =
      (search ((viewOf s).pop (i + 1)) (evaluate (viewOf s) F i H).F).shift (i + 1) := by
  have hi := h.2.2.1
  have hf : ∀ j, 0 ≤ j → finalAt ((viewOf s).pop (i + 1)) j = finalAt (viewOf s) (i + 1 + j) := fun j _ => by
    rw [show i + 1 + j = (i + j) + 1 by omega, finalAt_succ, finalAt_of_not_full]
    · rfl
    · simp only [Memory.wf, decide_eq_true_eq] at hw
      simp only [View.pop_win, View.pop_cfg, viewOf_win, viewOf_cfg, List.length_drop]; omega
  rw [search_first h, he]
  have := scanLoop_pop (v := viewOf s) (d := i + 1) (by rw [viewOf_win]; omega) s.win.length
    (evaluate (viewOf s) F i H).F 0 hf
  rw [Nat.add_zero] at this
  simp only
  rw [this, search]
  congr 1
  exact scanLoop_fuel (by simp) (by simp)

/-- SCAN where the first candidate is accepted. -/
theorem execScan_accepts {s : State} {hold : Bool} {i L F : Nat} {H : Word} (h : FirstCandidate s i H)
    (he : evaluate (viewOf s) s.freeFmt.toNat i H = { verdict := .accept L, F := F }) :
    execScan hold s = .next (foundState s hold i H L (BitVec.ofNat 16 F)) := by
  have := search_first (F := s.freeFmt.toNat) h
  rw [he] at this
  rw [execScan_found h.1 this]; rfl

/-- SCAN where the first candidate needs more bytes. -/
theorem execScan_needs {s : State} {hold : Bool} {i F : Nat} {H : Word} (h : FirstCandidate s i H)
    (he : evaluate (viewOf s) s.freeFmt.toNat i H = { verdict := .needMore, F := F }) :
    execScan hold s = .next { s with
      freeFmt := BitVec.ofNat 16 F
      win := s.win.drop i
      totalParsed := s.totalParsed + BitVec.ofNat 64 i
      popCount := BitVec.ofNat 24 i
      res := 2#4
      busy := false } := by
  have := search_first (F := s.freeFmt.toNat) h
  rw [he] at this
  rw [execScan_needMore h.1 this]

end Sys2Proof.Machine
end

