-- ==== Sys2Proof/Laws/Decode.lean ====
section
/-! SUPPORT. The fields of a command word, put together and taken apart, and in numbers. -/

namespace Sys2Proof

@[simp] theorem opField_cmdWord (op : BitVec 8) (arg : BitVec 24) : opField (cmdWord op arg) = op := by
  apply BitVec.eq_of_getLsbD_eq; intro i hi
  simp only [opField, cmdWord, BitVec.getLsbD_extractLsb', BitVec.getLsbD_append]
  simp [hi]

@[simp] theorem argField_cmdWord (op : BitVec 8) (arg : BitVec 24) : argField (cmdWord op arg) = arg := by
  apply BitVec.eq_of_getLsbD_eq; intro i hi
  simp only [argField, cmdWord, BitVec.getLsbD_extractLsb', BitVec.getLsbD_append]
  simp [hi]

/-- A command word is its two fields. -/
theorem cmdWord_fields (w : Word) : cmdWord (opField w) (argField w) = w := by
  apply BitVec.eq_of_getLsbD_eq; intro i hi
  simp only [opField, cmdWord, argField, BitVec.getLsbD_append, BitVec.getLsbD_extractLsb']
  split
  · simp_all
  · simp [show i - 8 < 24 by omega]; congr 1; omega

theorem opField_toNat (w : Word) : (opField w).toNat = w.toNat % 256 := by
  simp [opField, BitVec.extractLsb'_toNat]

theorem argField_toNat (w : Word) : (argField w).toNat = w.toNat / 256 := by
  have := w.isLt
  simp [argField, BitVec.extractLsb'_toNat, Nat.shiftRight_eq_div_pow]; omega

theorem opField_eq_iff (w : Word) (v : BitVec 8) : opField w = v ↔ w.toNat % 256 = v.toNat := by
  rw [← opField_toNat]; exact BitVec.toNat_inj.symm

theorem argField_eq_iff (w : Word) (v : BitVec 24) : argField w = v ↔ w.toNat / 256 = v.toNat := by
  rw [← argField_toNat]; exact BitVec.toNat_inj.symm

/-- ARG[23:1] = 0 in numbers. -/
theorem upperArg_eq_zero_iff (a : BitVec 24) : a.extractLsb' 1 23 = 0#23 ↔ a.toNat / 2 = 0 := by
  rw [← BitVec.toNat_inj]
  have := a.isLt
  simp [BitVec.extractLsb'_toNat, Nat.shiftRight_eq_div_pow]; omega

/-- An argument of one bit is that bit. -/
theorem flagArg_eq {a : BitVec 24} (h : a.extractLsb' 1 23 = 0#23) :
    (BitVec.ofBool (a.getLsbD 0)).setWidth 24 = a := by
  have h' := (upperArg_eq_zero_iff a).1 h
  rcases (by omega : a.toNat = 0 ∨ a.toNat = 1) with h | h
  · rw [show a = 0#24 from BitVec.eq_of_toNat_eq h]; decide
  · rw [show a = 1#24 from BitVec.eq_of_toNat_eq h]; decide

/-- A field of a header word in numbers. -/
theorem extractLsb'_eq_iff (H : Word) (a b : Nat) (v : BitVec b) :
    H.extractLsb' a b = v ↔ H.toNat / 2 ^ a % 2 ^ b = v.toNat := by
  rw [← BitVec.toNat_inj]; simp [BitVec.extractLsb'_toNat, Nat.shiftRight_eq_div_pow]

end Sys2Proof
end

