-- ==== Sys2Proof/Laws/PerInstr.lean ====
section
/-! SUPPORT. The family `EncodedKind`: an instruction's encoding is a command word exactly where it is a command
(30_encoding.md R101, R117), one lemma per constructor. -/

namespace Sys2Proof.Laws.EncodedKind

/-- A command encodes to a command word, a bus operation to a bus write or read. -/
def Statement (i : Instr) : Prop := (∃ w, encode i = .cmd w) ↔ i.isCommand = true

theorem nop : Statement .nop := ⟨fun _ => rfl, fun _ => ⟨_, rfl⟩⟩
theorem reset : Statement .reset := ⟨fun _ => rfl, fun _ => ⟨_, rfl⟩⟩
theorem decode : Statement .decode := ⟨fun _ => rfl, fun _ => ⟨_, rfl⟩⟩
theorem compare : Statement .compare := ⟨fun _ => rfl, fun _ => ⟨_, rfl⟩⟩
theorem id3 : Statement .id3 := ⟨fun _ => rfl, fun _ => ⟨_, rfl⟩⟩
theorem scan (hold : Bool) : Statement (.scan hold) := ⟨fun _ => rfl, fun _ => ⟨_, rfl⟩⟩
theorem trailer (cut : Bool) : Statement (.trailer cut) := ⟨fun _ => rfl, fun _ => ⟨_, rfl⟩⟩
theorem consume (cnt : BitVec 24) : Statement (.consume cnt) := ⟨fun _ => rfl, fun _ => ⟨_, rfl⟩⟩
theorem push (d : Word) : Statement (.push d) := ⟨fun ⟨_, h⟩ => (nomatch h), fun h => (nomatch h)⟩
theorem setEof (d : Word) : Statement (.setEof d) := ⟨fun ⟨_, h⟩ => (nomatch h), fun h => (nomatch h)⟩
theorem clearErr (d : Word) : Statement (.clearErr d) := ⟨fun ⟨_, h⟩ => (nomatch h), fun h => (nomatch h)⟩
theorem issue (d : Word) : Statement (.issue d) := ⟨fun ⟨_, h⟩ => (nomatch h), fun h => (nomatch h)⟩
theorem setHdr (d : Word) : Statement (.setHdr d) := ⟨fun ⟨_, h⟩ => (nomatch h), fun h => (nomatch h)⟩
theorem setHdr2 (d : Word) : Statement (.setHdr2 d) := ⟨fun ⟨_, h⟩ => (nomatch h), fun h => (nomatch h)⟩
theorem setRaddr (d : Word) : Statement (.setRaddr d) := ⟨fun ⟨_, h⟩ => (nomatch h), fun h => (nomatch h)⟩
theorem peek : Statement .peek := ⟨fun ⟨_, h⟩ => (nomatch h), fun h => (nomatch h)⟩
theorem read (off : Offset) : Statement (.read off) := ⟨fun ⟨_, h⟩ => (nomatch h), fun h => (nomatch h)⟩

end Sys2Proof.Laws.EncodedKind
end

