-- ==== Sys2Proof/Machine/HostProgram.lean ====
section
/-! DEFINITION. The host's operations and pseudo-instructions (30_encoding.md R117–R119), as the events they put on the
agenda (log 2). Only the lexical form of R118 (comments, number spellings) has no counterpart here. -/

namespace Sys2Proof.Machine

/-- One line of a host program (30_encoding.md R118, R119). -/
inductive HostOp where
  /-- `WR REG, v`. -/
  | wr (r : Reg) (v : Word)
  /-- `RD REG`. -/
  | rd (r : Reg)
  /-- A command's mnemonic; for any other instruction, its own bus operation. -/
  | instr (i : Instr)
  /-- `PUSH b1, b2, …, bk`. -/
  | push (bytes : List Byte)
  /-- `PUSHN k, b`. -/
  | pushn (k : Nat) (b : Byte)
  /-- `EOF`. -/
  | eof
  /-- `WAIT`: `polls` reads of STATUS while the command is pending, and the one that finds BUSY = 0. -/
  | wait (polls : Nat)
  /-- A mnemonic with a trailing `!`: the command, then WAIT. -/
  | instrWait (i : Instr) (polls : Nat)
  deriving DecidableEq, Repr

/-- `WR REG, v` as an event (30_encoding.md R117, 20_memory.md R82). -/
def writeEvent (cfg : Config) (r : Reg) (v : Word) : Event := .wr (addressOf cfg r.offset) v

/-- `RD REG` as an event (30_encoding.md R117, 20_memory.md R82). -/
def readEvent (cfg : Config) (r : Reg) : Event := .rd (addressOf cfg r.offset)

/-- What the host does for an instruction: a command is a write of its word to CMD (30_encoding.md R118), a bus operation
is itself (R117). -/
def instrEvent (cfg : Config) (i : Instr) : Event :=
  match encode i with
  | .cmd w => writeEvent cfg .cmd w
  | .wr off d => .wr (addressOf cfg off) d
  | .rd off => .rd (addressOf cfg off)

/-- The events of WAIT (30_encoding.md R119): the engine's turn stands between the last read that finds BUSY = 1 and the one
that finds BUSY = 0 (20_memory.md R84). -/
def waitEvents (cfg : Config) (polls : Nat) : List Event :=
  List.replicate polls (readEvent cfg .status) ++ [.engine, readEvent cfg .status]

/-- The expansion of a line (30_encoding.md R118, R119). -/
def HostOp.events (cfg : Config) : HostOp → List Event
  | .wr r v => [writeEvent cfg r v]
  | .rd r => [readEvent cfg r]
  | .instr i => [instrEvent cfg i]
  | .push bytes => bytes.map fun b => writeEvent cfg .dataIn (b.setWidth 32)
  | .pushn k b => List.replicate k (writeEvent cfg .dataIn (b.setWidth 32))
  | .eof => [writeEvent cfg .ctrl 1#32]
  | .wait polls => waitEvents cfg polls
  | .instrWait i polls => instrEvent cfg i :: waitEvents cfg polls

/-- The state with a host program to come. -/
def State.withProgram (s : State) (ops : List HostOp) : State :=
  { s with agenda := ops.flatMap (HostOp.events s.cfg) }

end Sys2Proof.Machine
end

