-- ==== Sys2Proof/Tests/Slice0.lean ====
section
/-! SUPPORT. Tests, their expected results from the spec's encodings, examples and tables, and a witness for every
obligation with hypotheses. -/

open Sys2Proof Sys2Proof.Machine

namespace Sys2Proof.Tests

/-! ### Well-formedness: the one ill-formed instruction is refused (40_window_port.md R149) -/

theorem test_wf_read_of_win_rdata : (Instr.read 0x024#12).wf = false := by decide
theorem test_wf_read_of_status : (Instr.read 0x008#12).wf = true := by decide
theorem test_wf_every_command : (Instr.consume 0xFFFFFF#24).wf = true ∧ (Instr.scan true).wf = true := by decide

/-! ### Decoding: each word written out from 30_encoding.md R100–R102, R117 and 10_state.md R31 -/

theorem test_decode_nop : decode (.cmd 0b000000000000000000000000_00000000#32) = .instr .nop := by decide
theorem test_decode_reset : decode (.cmd 0b000000000000000000000000_00000001#32) = .instr .reset := by decide
theorem test_decode_decode : decode (.cmd 0b000000000000000000000000_00000010#32) = .instr .decode := by decide
theorem test_decode_compare : decode (.cmd 0b000000000000000000000000_00000011#32) = .instr .compare := by decide
theorem test_decode_id3 : decode (.cmd 0b000000000000000000000000_00000100#32) = .instr .id3 := by decide
theorem test_decode_scan : decode (.cmd 0b000000000000000000000000_00000101#32) = .instr (.scan false) := by decide
theorem test_decode_scan_hold : decode (.cmd 0b000000000000000000000001_00000101#32) = .instr (.scan true) := by decide
theorem test_decode_trailer : decode (.cmd 0b000000000000000000000000_00000110#32) = .instr (.trailer false) := by decide
theorem test_decode_trailer_cut : decode (.cmd 0b000000000000000000000001_00000110#32) = .instr (.trailer true) := by decide
theorem test_decode_consume : decode (.cmd 0b000000000000000110100001_00000111#32) = .instr (.consume 417#24) := by decide
theorem test_decode_push : decode (.wr 0b000000010100#12 0x1FF#32) = .instr (.push 0x1FF#32) := by decide
theorem test_decode_setEof : decode (.wr 0b000000000100#12 1#32) = .instr (.setEof 1#32) := by decide
theorem test_decode_clearErr : decode (.wr 0b000000001100#12 0x3F#32) = .instr (.clearErr 0x3F#32) := by decide
theorem test_decode_issue : decode (.wr 0b000000010000#12 5#32) = .instr (.issue 5#32) := by decide
theorem test_decode_setHdr : decode (.wr 0b000000111100#12 0xFFFB9004#32) = .instr (.setHdr 0xFFFB9004#32) := by decide
theorem test_decode_setHdr2 : decode (.wr 0b000001000000#12 0xFFFB9204#32) = .instr (.setHdr2 0xFFFB9204#32) := by decide
theorem test_decode_setRaddr : decode (.wr 0b000000100000#12 5#32) = .instr (.setRaddr 5#32) := by decide
theorem test_decode_peek : decode (.rd 0b000000100100#12) = .instr .peek := by decide
theorem test_decode_read : decode (.rd 0b000001111100#12) = .instr (.read 0x07C#12) := by decide

/-- Reserved OPs and ARG bits (30_encoding.md R103, R104). -/
theorem test_decode_reserved : decode (.cmd 0x00000008#32) = .bad .reservedOp ∧ decode (.cmd 0xFFFFFFFF#32) = .bad .reservedOp ∧
    decode (.cmd 0x00000100#32) = .bad .reservedArg ∧ decode (.cmd 0x00000205#32) = .bad .reservedArg ∧
    decode (.cmd 0x80000006#32) = .bad .reservedArg := by decide

/-- Writes that are no instruction (10_state.md R62). -/
theorem test_decode_bad_writes : decode (.wr 0x000#12 0#32) = .bad .readOnlyWrite ∧
    decode (.wr 0x07C#12 0#32) = .bad .readOnlyWrite ∧ decode (.wr 0x080#12 0#32) = .bad .unmappedWrite ∧
    decode (.wr 0x015#12 0#32) = .bad .misalignedWrite := by decide

/-- The rows of opcode_table.json by their words. -/
theorem test_decodeTableWord : decodeTableWord 32 0x00000105 = some (.scan true) ∧ decodeTableWord 8 7 = some (.consume 0#24) ∧
    decodeTableWord 32 0x0001A107 = some (.consume 417#24) ∧ decodeTableWord 16 0x014 = some (.push 0#32) ∧
    decodeTableWord 16 0x024 = some .peek ∧ decodeTableWord 0 0 = some (.read 0#12) ∧ decodeTableWord 32 8 = none := by decide

/-! ### One instruction at a time, from the spec's examples -/

/-- An idle block with a window. -/
def holding (w : List Byte) (eof : Bool) : State := { State.reset with win := w, eof := eof }

/-- A fact about the next state, false where there is none. -/
def after (r : Result) (p : State → Bool) : Bool :=
  match r with
  | .next t => p t
  | .fault _ => false
  | .refused _ => false

/-- Header FF F3 14 00 and 20 zero bytes: the shortest frame, 24 bytes (42_header_decoder.md R226). -/
def shortFrame : List Byte := [0xFF#8, 0xF3#8, 0x14#8, 0x00#8] ++ List.replicate 20 0#8

/-- Header FF FB 90 04 and 413 zero bytes: the source's frame of 417 bytes (43_sync_scanner.md R250). -/
def sourceFrame : List Byte := [0xFF#8, 0xFB#8, 0x90#8, 0x04#8] ++ List.replicate 413 0#8

/-- Header FF FB 00 00, a free-format header, and 46 zero bytes. -/
def freeFrame : List Byte := [0xFF#8, 0xFB#8, 0x00#8, 0x00#8] ++ List.replicate 46 0#8

/-- So many frames one after another. -/
def frames (n : Nat) (f : List Byte) : List Byte := (List.replicate n f).flatten

/-- A 128-byte TAG block (30_encoding.md R114). -/
def tagBlock : List Byte := [0x54#8, 0x41#8, 0x47#8] ++ List.replicate 125 0#8

/-- The 10-byte ID3v2 header of version 3 and size 257 (41_id3_skipper.md R182). -/
def id3Header : List Byte := [0x49#8, 0x44#8, 0x33#8, 3#8, 0#8, 0#8, 0#8, 0#8, 2#8, 1#8]

theorem test_nop : after (exec .nop { State.reset with res := 3#4, popCount := 417#24, busy := true })
    (fun t => t == { State.reset with res := 1#4, popCount := 0#24 }) = true := by decide

theorem test_reset : after (exec .reset { holding [1#8] true with busy := true, freeFmt := 50#16 })
    (fun t => t == State.reset && readReg t .status == 0x00000008#32) = true := by decide

theorem test_decode : after (exec .decode { State.reset with hdrIn := 0xFFFB9004#32 })
    (fun t => readReg t .hdrInfo == 0x124039#32 && readReg t .hdrBitrate == 128#32 && readReg t .hdrFreq == 44100#32
      && readReg t .hdrLen == 0x048001A1#32 && readReg t .hdrRaw == 0xFFFB9004#32) = true := by decide

/-- A decode of H = 0 yields 0x800006 (10_state.md R50). -/
theorem test_decode_zero : after (exec .decode State.reset)
    (fun t => readReg t .hdrInfo == 0x800006#32 && readReg t .hdrLen == 0#32 && t.res == 1#4) = true := by decide

theorem test_compare_padding : after (exec .compare { State.reset with hdrIn := 0xFFFB9004#32, hdrIn2 := 0xFFFA9204#32 })
    (fun t => t.cmp) = true := by decide
theorem test_compare_frequency : after (exec .compare
    { State.reset with cmp := true, hdrIn := 0xFFFB9004#32, hdrIn2 := 0xFFFB9404#32 }) (fun t => !t.cmp) = true := by decide

theorem test_id3 : after (exec .id3 (holding (id3Header ++ List.replicate 300 0xAA#8) false))
    (fun t => t.id3.present && readReg t .id3Hdr == 3#32 && readReg t .id3Size == 257#32 && t.popCount == 267#24
      && t.win.length == 43 && t.id3.skipRemain == 0#28 && t.res == 1#4 && t.totalParsed == 267#64) = true := by
  decide +kernel

/-- A stream that ends inside the tag: NEED_MORE, nothing popped (41_id3_skipper.md R182). -/
theorem test_id3_stuck : after (exec .id3 { holding [] true with
      id3 := { State.reset.id3 with checked := true, present := true, ver := 3#8, size := 20#28, skipRemain := 5#28 } })
    (fun t => t.res == 2#4 && t.popCount == 0#24 && t.id3.skipRemain == 5#28) = true := by decide

theorem test_scan : after (exec (.scan false) (holding (frames 11 sourceFrame) false))
    (fun t => t.res == 3#4 && readReg t .scanOff == 0#32 && readReg t .scanLen == 417#32 && t.popCount == 417#24
      && t.win.length == 4170 && t.foundCount == 1#32 && readReg t .hdrLen == 0x048001A1#32) = true := by
  decide +kernel

/-- The free-format search learns F, the padding apart (43_sync_scanner.md R257). -/
theorem test_scan_free : after (exec (.scan true) (holding (frames 3 freeFrame) false))
    (fun t => t.res == 3#4 && readReg t .freeFmt == 50#32 && readReg t .scanLen == 50#32 && t.win.length == 150) = true := by
  decide +kernel

theorem test_trailer : after (exec (.trailer true) (holding (List.replicate 417 0#8 ++ tagBlock) true))
    (fun t => readReg t .trlInfo == 0b001#32 && readReg t .trlLenLo == 128#32 && t.win.length == 417
      && t.popCount == 0#24) = true := by decide +kernel

theorem test_consume : after (exec (.consume 417#24) (holding (List.replicate 10 1#8) false))
    (fun t => t.win == [] && t.popCount == 10#24 && t.totalParsed == 10#64 && t.res == 1#4) = true := by decide

theorem test_push : after (exec (.push 0x1FF#32) (holding [1#8, 2#8, 3#8] false))
    (fun t => t.win == [1#8, 2#8, 3#8, 0xFF#8] && t.err == 0#6) = true := by decide
theorem test_push_after_eof : after (exec (.push 1#32) (holding [] true)) (fun t => t.win == [] && t.err == 2#6) = true := by
  decide

theorem test_setEof : after (exec (.setEof 1#32) State.reset) (fun t => readReg t .ctrl == 1#32) = true := by decide
theorem test_setEof_zero : after (exec (.setEof 0#32) (holding [] true)) (fun t => t.eof) = true := by decide

theorem test_clearErr : after (exec (.clearErr 1#32) { State.reset with err := 0b000101#6 })
    (fun t => t.err == 0b000100#6) = true := by decide

theorem test_issue : after (exec (.issue 0x105#32) State.reset)
    (fun t => t.busy && t.pending == 0x105#32 && readReg t .cmd == 0x105#32 && t.res == 0#4) = true := by decide
theorem test_issue_illegal : after (exec (.issue 8#32) State.reset)
    (fun t => !t.busy && readReg t .err == 8#32 && t.res == 4#4 && t.cmdLast == 0#32) = true := by decide

theorem test_setHdr : after (exec (.setHdr 0xFFFB9004#32) State.reset)
    (fun t => readReg t .hdrIn == 0xFFFB9004#32 && t.hdrIn2 == 0#32) = true := by decide
theorem test_setHdr2 : after (exec (.setHdr2 0xFFFB9204#32) State.reset)
    (fun t => readReg t .hdrIn2 == 0xFFFB9204#32 && t.hdrIn == 0#32) = true := by decide
theorem test_setRaddr : after (exec (.setRaddr 0x01000005#32) { State.reset with busy := true })
    (fun t => readReg t .winRaddr == 5#32 && t.err == 0#6) = true := by decide

theorem test_peek : after (exec .peek { holding [0xFF#8, 0xFB#8, 0x90#8, 0x04#8] false with winRaddr := 1#24 })
    (fun t => t.rdata == 0xFB#32) = true := by decide
theorem test_peek_past_end : after (exec .peek { holding [0xFF#8, 0xFB#8, 0x90#8, 0x04#8] false with winRaddr := 4#24 })
    (fun t => t.rdata == 0#32 && t.err == 0#6) = true := by decide

theorem test_read_id : after (exec (.read 0x000#12) State.reset) (fun t => t.rdata == 0x4D465344#32) = true := by decide
theorem test_read_unmapped : after (exec (.read 0x080#12) State.reset)
    (fun t => t.rdata == 0#32 && t.err == 0b100000#6) = true := by decide

/-! ### The step -/

/-- A command word, a bus write and a bus read run as the first instruction after reset. -/
theorem test_step_command : after (step (State.reset.withFetchWord 32 0)) (fun t => t.res == 1#4 && !t.busy) = true := by decide
theorem test_step_write : after (step (State.reset.withFetchWord 16 0x014)) (fun t => t.win == [0#8]) = true := by decide
theorem test_step_read : after (step (State.reset.withFetchWord 0 0)) (fun t => t.rdata == 0x4D465344#32) = true := by decide

/-- A hardware reset with a command pending: the command leaves no effect (70_reset_and_hazards.md R340). -/
theorem test_step_hardwareReset :
    after (step { holding [1#8] false with busy := true, pending := 0x107#32, agenda := [.hardwareReset] })
      (fun t => t == State.reset) = true := by decide

/-- The expansion of pseudo-instructions (30_encoding.md R119). -/
theorem test_host_expansion : [HostOp.push [0xAA#8, 0xBB#8], .eof, .instrWait (.scan false) 1].flatMap
      (HostOp.events Config.reference) =
    [.wr 0x14 0xAA#32, .wr 0x14 0xBB#32, .wr 0x04 1#32, .wr 0x10 5#32, .rd 0x08, .engine, .rd 0x08] := by decide

/-! ### Witnesses: concrete states and operands that meet the hypotheses of each obligation, clause by clause -/

/-- The state a meaning answers, itself where it answers none. -/
def next (r : Result) (s : State) : State :=
  match r with
  | .next t => t
  | .fault _ => s
  | .refused _ => s

/-- The state after SCAN, and after ID3: completions, so always a next state. -/
theorem scan_next (hold : Bool) (s : State) : exec (.scan hold) s = .next (next (exec (.scan hold) s) s) := rfl
theorem id3_next (s : State) : exec .id3 s = .next (next (exec .id3 s) s) := rfl

/-- A busy block, a block after eof, a full one, and one amid an ID3v2 skip. -/
def busyState : State := { State.reset with busy := true, pending := 0x00000105#32, winRaddr := 3#24 }
def fullState : State := { State.reset with cfg := { Config.reference with winCap := 2 }, win := [1#8, 2#8] }
def skipping : State := { holding [9#8] true with
  totalParsed := 13#64
  id3 := { checked := true, present := true, ver := 3#8, rev := 0#8, flags := 0#8, size := 20#28, skipRemain := 17#28 } }

theorem witness_NopCompletesWithDone : busyState.busy = true := by decide

theorem witness_ResetCommandGivesResetState : State.reset.cfg.winCap ≠ 0 ∧ busyState.busy = true := by decide

theorem witness_RegistersReadAfterReset : Reg.freeFmt ≠ .id ∧ Reg.freeFmt ≠ .winCap ∧ Reg.freeFmt ≠ .status := by decide

theorem witness_PushStoresByteOrFlags : busyState.busy = true ∧
    ((holding [] true).busy = false ∧ (holding [] true).eof = true) ∧
    (fullState.busy = false ∧ fullState.eof = false ∧ fullState.win.length = fullState.cfg.winCap) ∧
    (State.reset.busy = false ∧ State.reset.eof = false ∧ State.reset.win.length ≠ State.reset.cfg.winCap) := by decide

theorem witness_SetEofOnlySets : busyState.busy = true ∧
    (State.reset.busy = false ∧ (0xFFFFFFFF#32).toNat % 2 = 1) ∧ (State.reset.busy = false ∧ (0xFFFFFFFE#32).toNat % 2 = 0) := by
  decide

theorem witness_ClearErrClearsWrittenOnes : (0 : Nat) < 6 ∧ (5 : Nat) < 6 := by decide

theorem witness_IssueLatchesOrRejects : busyState.busy = true ∧
    (State.reset.busy = false ∧ ∃ i, decodeCmd 0xFFFFFF07#32 = .instr i) ∧
    (State.reset.busy = false ∧ ¬ ∃ i, decodeCmd 0x00000008#32 = .instr i) :=
  ⟨rfl, ⟨rfl, .consume 0xFFFFFF#24, by decide⟩,
    rfl, fun ⟨_, h⟩ => by rw [show decodeCmd 0x00000008#32 = .bad .reservedOp by decide] at h; cases h⟩

theorem witness_SetHdrStoresWord : busyState.busy = true ∧ State.reset.busy = false := by decide

theorem witness_BusyGatesHostWrites : busyState.busy = true ∧
    (∃ t, exec (.read 0x008#12) { busyState with busy := false } = .next t) ∧
    ∃ t, exec (.read 0x004#12) { busyState with busy := false } = .next t ∧ Instr.read 0x004#12 ≠ .read 0x008#12 :=
  ⟨rfl, ⟨_, rfl⟩, _, rfl, by decide⟩

theorem witness_PeekReturnsWindowByte :
    (holding [7#8] false).win[(holding [7#8] false).winRaddr.toNat]? = some 7#8 ∧
    State.reset.win.length ≤ State.reset.winRaddr.toNat := by decide

theorem witness_ReadReturnsRegister :
    ((0x001#12).toNat % 4 ≠ 0 ∨ 128 ≤ (0x001#12).toNat) ∧ ((0x080#12).toNat % 4 ≠ 0 ∨ 128 ≤ (0x080#12).toNat) := by decide

theorem witness_RegisterViews : State.reset.win.length < 16777216 ∧ State.reset.cfg.winCap < 16777216 ∧
    (holding [9#8] false).win[(holding [9#8] false).winRaddr.toNat]? = some 9#8 ∧
    State.reset.win.length ≤ State.reset.winRaddr.toNat := by decide

theorem witness_ReadsHaveNoSideEffect : (∃ t, exec .peek State.reset = .next t) ∧
    (∃ t, exec (.read 0x07C#12) State.reset = .next t ∧ ∃ r : Reg, r.offset = 0x07C#12) ∧
    ∃ t, Instr.isCommand (.setEof 1#32) = false ∧ (∀ d, Instr.setEof 1#32 ≠ .push d) ∧ (∀ d, Instr.setEof 1#32 ≠ .issue d) ∧
      exec (.setEof 1#32) State.reset = .next t :=
  ⟨⟨_, rfl⟩, ⟨_, rfl, .trlLenHi, rfl⟩, _, rfl, by simp, by simp, rfl⟩

/-- A free header, and one of Layer I, II, III of MPEG 1 and III of MPEG 2. -/
theorem witness_LookupsFrameLengthAndSamples :
    (Hdr.valid 0xFFFB0000#32 = true ∧ (0xFFFB0000#32).toNat / 4096 % 16 = 0) ∧
    (Hdr.valid 0xFFFF1000#32 = true ∧ (0xFFFF1000#32).toNat / 4096 % 16 ≠ 0 ∧ (0xFFFF1000#32).toNat / 131072 % 4 = 3) ∧
    (Hdr.valid 0xFFFDE200#32 = true ∧ (0xFFFDE200#32).toNat / 4096 % 16 ≠ 0 ∧ (0xFFFDE200#32).toNat / 131072 % 4 = 2) ∧
    (Hdr.valid 0xFFFB9004#32 = true ∧ (0xFFFB9004#32).toNat / 4096 % 16 ≠ 0 ∧ (0xFFFB9004#32).toNat / 131072 % 4 = 1 ∧
      (0xFFFB9004#32).toNat / 524288 % 4 = 3) ∧
    (Hdr.valid 0xFFF31400#32 = true ∧ (0xFFF31400#32).toNat / 4096 % 16 ≠ 0 ∧ (0xFFF31400#32).toNat / 131072 % 4 = 1 ∧
      (0xFFF31400#32).toNat / 524288 % 4 ≠ 3) := by decide

/-- Bitrate rows: Layers I, II and III of MPEG 1, then of MPEG 2, the last at bitrate index 14. -/
theorem witness_LookupsFrameLengthAndSamples_bitrate :
    (Hdr.valid 0xFFFF1000#32 = true ∧ (0xFFFF1000#32).toNat / 524288 % 4 = 3 ∧ (0xFFFF1000#32).toNat / 131072 % 4 = 3 ∧
      Config.reference.bitrateTable.mpeg1Layer1[(0xFFFF1000#32).toNat / 4096 % 16 - 1]? = some 32) ∧
    (Hdr.valid 0xFFFDE200#32 = true ∧ (0xFFFDE200#32).toNat / 524288 % 4 = 3 ∧ (0xFFFDE200#32).toNat / 131072 % 4 = 2 ∧
      Config.reference.bitrateTable.mpeg1Layer2[(0xFFFDE200#32).toNat / 4096 % 16 - 1]? = some 384) ∧
    (Hdr.valid 0xFFFB9004#32 = true ∧ (0xFFFB9004#32).toNat / 524288 % 4 = 3 ∧ (0xFFFB9004#32).toNat / 131072 % 4 = 1 ∧
      Config.reference.bitrateTable.mpeg1Layer3[(0xFFFB9004#32).toNat / 4096 % 16 - 1]? = some 128) ∧
    (Hdr.valid 0xFFF71000#32 = true ∧ (0xFFF71000#32).toNat / 524288 % 4 ≠ 3 ∧ (0xFFF71000#32).toNat / 131072 % 4 = 3 ∧
      Config.reference.bitrateTable.lsfLayer1[(0xFFF71000#32).toNat / 4096 % 16 - 1]? = some 32) ∧
    (Hdr.valid 0xFFF51000#32 = true ∧ (0xFFF51000#32).toNat / 524288 % 4 ≠ 3 ∧ (0xFFF51000#32).toNat / 131072 % 4 = 2 ∧
      Config.reference.bitrateTable.lsfLayer2[(0xFFF51000#32).toNat / 4096 % 16 - 1]? = some 8) ∧
    (Hdr.valid 0xFFE3E000#32 = true ∧ (0xFFE3E000#32).toNat / 524288 % 4 ≠ 3 ∧ (0xFFE3E000#32).toNat / 131072 % 4 = 1 ∧
      Config.reference.bitrateTable.lsfLayer3[(0xFFE3E000#32).toNat / 4096 % 16 - 1]? = some 160) := by decide +kernel

/-- Frequency rows: MPEG 1, 2 and 2.5, at sample-rate index 0, 1 and 2. -/
theorem witness_LookupsFrameLengthAndSamples_freq :
    (Hdr.valid 0xFFFB9004#32 = true ∧ (0xFFFB9004#32).toNat / 524288 % 4 = 3 ∧
      Config.reference.freqTable.mpeg1[(0xFFFB9004#32).toNat / 1024 % 4]? = some 44100) ∧
    (Hdr.valid 0xFFF31400#32 = true ∧ (0xFFF31400#32).toNat / 524288 % 4 = 2 ∧
      Config.reference.freqTable.mpeg2[(0xFFF31400#32).toNat / 1024 % 4]? = some 24000) ∧
    (Hdr.valid 0xFFE3E800#32 = true ∧ (0xFFE3E800#32).toNat / 524288 % 4 = 0 ∧
      Config.reference.freqTable.mpeg25[(0xFFE3E800#32).toNat / 1024 % 4]? = some 8000) := by decide +kernel

theorem witness_FrameLengthBounds : Hdr.valid 0xFFF31400#32 = true ∧ Hdr.free 0xFFF31400#32 = false ∧
    admissible Config.reference = true := by decide +kernel

theorem witness_DecodeLoadsHeaderRegisters :
    Hdr.valid { State.reset with hdrIn := 0xFFFB9004#32 }.hdrIn = true ∧ Hdr.valid State.reset.hdrIn = false := by decide

theorem witness_MultiByteReads : 0 + 4 ≤ [0xFF#8, 0xFB#8, 0x90#8, 0x04#8].length := by decide

theorem witness_ConsumePopsClamped : skipping.id3.skipRemain ≠ 0#28 ∧ (holding [1#8] false).id3.skipRemain = 0#28 := by decide

/-- The shortest tag whose body does not end in the window, version 4, with the size's top bits set. -/
theorem witness_Id3DetectsAndSkipsTag :
    ∃ (s : State) (v r f b6 b7 b8 b9 : Byte) (body : List Byte) (S k : Nat),
      s.id3.checked = false ∧ s.totalParsed = 0#64 ∧
      s.win = [0x49#8, 0x44#8, 0x33#8, v, r, f, b6, b7, b8, b9] ++ body ∧ (v = 2#8 ∨ v = 3#8 ∨ v = 4#8) ∧
      S = b6.toNat % 128 * 2097152 + b7.toNat % 128 * 16384 + b8.toNat % 128 * 128 + b9.toNat % 128 ∧ S ≠ 0 ∧
      k = min body.length S :=
  ⟨holding ([0x49#8, 0x44#8, 0x33#8, 4#8, 0xFF#8, 0xFF#8, 0x80#8, 0x80#8, 0x80#8, 0x81#8] ++ []) false,
    4#8, 0xFF#8, 0xFF#8, 0x80#8, 0x80#8, 0x80#8, 0x81#8, [], 1, 0, by decide⟩

/-- Ten bytes that do not begin with ID3, that have version 5, or that have size 0; a shorter stream; a shorter window. -/
theorem witness_Id3WithoutTagPopsNothing :
    (State.reset.id3.checked = false ∧ State.reset.totalParsed = 0#64 ∧ State.reset.id3.skipRemain = 0#28) ∧
    (10 ≤ (List.replicate 10 0#8).length ∧ (List.replicate 10 0#8).take 3 ≠ [0x49#8, 0x44#8, 0x33#8]) ∧
    (byteAt (id3Header.set 3 5#8) 3 ≠ 2#8 ∧ byteAt (id3Header.set 3 5#8) 3 ≠ 3#8 ∧ byteAt (id3Header.set 3 5#8) 3 ≠ 4#8) ∧
    (∀ j, 6 ≤ j → j ≤ 9 → (byteAt (List.replicate 10 0x80#8) j).toNat % 128 = 0) ∧
    ((holding [1#8] true).win.length < 10 ∧ (holding [1#8] true).eof = true) ∧
    (State.reset.win.length < 10 ∧ State.reset.eof = false) := by
  refine ⟨by decide, by decide, by decide, fun j h1 h2 => ?_, by decide, by decide⟩
  interval_cases j <;> decide

theorem witness_Id3ContinuesBodySkip : skipping.id3.checked = true ∧ 1 = min skipping.win.length skipping.id3.skipRemain.toNat := by
  decide

/-- Invariants of a state amid a skip, and after reset. -/
theorem skipping_invariant : Machine.Invariant skipping where
  cfg := by decide +kernel
  win := by decide
  pending := fun h => by cases h
  skipping := by decide
  accounting := by decide
  present := by decide
  free := .inl rfl
  res := by decide

theorem initial_reset : Initial State.reset := ⟨by decide +kernel, rfl⟩

theorem reset_invariant : Machine.Invariant State.reset where
  cfg := by decide +kernel
  win := by decide
  pending := fun h => by cases h
  skipping := by decide
  accounting := by decide
  present := by decide
  free := .inl rfl
  res := by decide

/-- The window that holds the rest of the tag, and the whole tag at the stream's start. -/
theorem witness_SkipEndsAtTenPlusSize :
    (∃ s t, Machine.Invariant s ∧ exec .id3 s = .next t ∧ t.res = 1#4 ∧ s.id3.skipRemain ≠ 0#28) ∧
    ∃ s t, Machine.Invariant s ∧ exec .id3 s = .next t ∧ t.res = 1#4 ∧ s.id3.checked = false ∧ t.id3.present = true := by
  refine ⟨⟨{ skipping with win := List.replicate 17 0#8 }, _, ?_, rfl, by decide, by decide⟩,
    ⟨holding (id3Header.set 8 0#8 ++ [5#8]) false, _, ?_, rfl, by decide, by decide, by decide⟩⟩
  · exact { skipping_invariant with win := by decide }
  · exact { reset_invariant with win := by decide }

/-- A TAG block with a TAG+ block and an APE footer before it. -/
theorem witness_TrailerMeasuresAndCuts :
    ∃ (s : State) (v1 ext ape : Bool) (t0 len : Nat), s.eof = true ∧ s.id3.skipRemain = 0#28 ∧
      (v1 = true ↔ ∃ pre tag : List Byte, s.win = pre ++ tag ∧ tag.length = 128 ∧ tag.take 3 = [0x54#8, 0x41#8, 0x47#8]) ∧
      (ext = true ↔ ∃ pre e tag : List Byte, s.win = pre ++ e ++ tag ∧ tag.length = 128 ∧
        tag.take 3 = [0x54#8, 0x41#8, 0x47#8] ∧ e.length = 227 ∧ e.take 4 = [0x54#8, 0x41#8, 0x47#8, 0x2B#8]) ∧
      t0 = (if ext then 355 else if v1 then 128 else 0) ∧
      (ape = true ↔ v1 = true ∧ ∃ pre tail : List Byte, s.win = pre ++ tail ∧ tail.length = t0 + s.cfg.apeFooterLen ∧
        tail.take 8 = [0x41#8, 0x50#8, 0x45#8, 0x54#8, 0x41#8, 0x47#8, 0x45#8, 0x58#8]) ∧
      len = (if ape then t0 + le32 s.win (s.win.length - t0 - s.cfg.apeFooterLen + s.cfg.apeSizeOffset) +
        s.cfg.apeHeaderAdjust else t0) := by
  let e : List Byte := [0x54#8, 0x41#8, 0x47#8, 0x2B#8] ++ List.replicate 223 0#8
  let footer : List Byte := [0x41#8, 0x50#8, 0x45#8, 0x54#8, 0x41#8, 0x47#8, 0x45#8, 0x58#8] ++ List.replicate 24 0#8
  refine ⟨holding (footer ++ e ++ tagBlock) true, true, true, true, 355, _, rfl, rfl, ?_, ?_, rfl, ?_, rfl⟩
  · exact ⟨fun _ => ⟨footer ++ e, tagBlock, rfl, by decide +kernel, by decide +kernel⟩, fun _ => rfl⟩
  · exact ⟨fun _ => ⟨footer, e, tagBlock, rfl, by decide +kernel, by decide +kernel, by decide +kernel, by decide +kernel⟩, fun _ => rfl⟩
  · exact ⟨fun _ => ⟨rfl, [], footer ++ e ++ tagBlock, rfl, by decide +kernel, by decide +kernel⟩, fun _ => rfl⟩

theorem witness_ScanCompletesAndUpdatesFreeFormat : State.reset.id3.skipRemain = 0#28 := by decide

/-- Eleven frames of 24 bytes after a byte of garbage, the last cut to its header. -/
theorem witness_ScanAcceptsCorroboratedFrame : ∃ (s : State) (H : Word), FirstCandidate s 1 H ∧ KnownLength s H ∧
    Corroborated s s.freeFmt.toNat 1 10 := by
  refine ⟨holding (0#8 :: (frames 11 shortFrame).take 244) false, 0xFFF31400#32,
    ⟨rfl, by decide +kernel, by decide +kernel, by decide +kernel, by decide⟩, .inl (by decide), fun a h1 h2 => ?_⟩
  interval_cases a <;> decide +kernel

/-- Two frames at the end of the stream: one corroboration, then the window ends. -/
theorem witness_ScanAcceptsCorroboratedFrame_eof : ∃ (s : State) (H : Word), FirstCandidate s 1 H ∧ KnownLength s H ∧
    Corroborated s s.freeFmt.toNat 1 1 ∧ Final s 1 ∧ s.win.length < chainOffset s s.freeFmt.toNat 1 2 + 4 := by
  refine ⟨holding (0#8 :: frames 2 shortFrame) true, 0xFFF31400#32,
    ⟨rfl, by decide +kernel, by decide +kernel, by decide +kernel, by decide⟩, .inl (by decide), fun a h1 h2 => ?_, .inl rfl,
    by decide +kernel⟩
  interval_cases a; decide +kernel

/-- Header FF FB E8 00 and 1436 zero bytes: a frame of 1440 bytes, MPEG 1 Layer III at 320 kbps and 32 kHz
(42_header_decoder.md R219). -/
def longFrame : List Byte := [0xFF#8, 0xFB#8, 0xE8#8, 0x00#8] ++ List.replicate 1436 0#8

/-- The smallest window, of 4611 bytes, full of 1440-byte frames. -/
def fullOfFrames : State :=
  { holding ((frames 4 longFrame).take 4611) false with cfg := { Config.reference with winCap := 4611 } }

/-- Three corroborations in a full window, then it ends (43_sync_scanner.md R252). -/
theorem witness_ScanAcceptsCorroboratedFrame_full : FirstCandidate fullOfFrames 0 0xFFFBE800#32 ∧
    KnownLength fullOfFrames 0xFFFBE800#32 ∧ Corroborated fullOfFrames fullOfFrames.freeFmt.toNat 0 3 ∧ Final fullOfFrames 0 ∧
    fullOfFrames.eof = false ∧ fullOfFrames.win.length < chainOffset fullOfFrames fullOfFrames.freeFmt.toNat 0 4 + 4 := by
  refine ⟨⟨rfl, fun j hj => absurd hj (by omega), by decide +kernel, by decide +kernel, by decide⟩, .inl (by decide),
    fun a h1 h2 => ?_, .inr ⟨rfl, by decide +kernel⟩, rfl, by decide +kernel⟩
  interval_cases a <;> decide +kernel

/-- A free-format frame of known length, F = 50, after two bytes of garbage. -/
theorem witness_ScanAcceptsLoneFinalFrame : ∃ (s : State) (H : Word), FirstCandidate s 2 H ∧ KnownLength s H ∧ s.eof = true ∧
    2 + Hdr.frameLen s.cfg H s.freeFmt.toNat = s.win.length :=
  ⟨{ holding ([0#8, 0xFF#8] ++ freeFrame) true with freeFmt := 50#16 }, 0xFFFB0000#32,
    ⟨rfl, by decide +kernel, by decide +kernel, by decide +kernel, by decide⟩, .inr (by decide), rfl, by decide +kernel⟩

/-- Three free-format headers four bytes apart after a byte of garbage; F unknown, or an F of 3 that does not fit. -/
def freeTriple (F : BitVec 16) : State :=
  { holding (0#8 :: frames 3 [0xFF#8, 0xFB#8, 0#8, 0#8]) false with freeFmt := F }

theorem freeTriple_first (F : BitVec 16) : FirstCandidate (freeTriple F) 1 0xFFFB0000#32 :=
  show FirstCandidate (freeTriple 0#16) _ _ from ⟨rfl, by decide, by decide, by decide, by decide⟩

theorem freeTriple_accepts (F : BitVec 16) : FreeAccepts (freeTriple F) 1 4 :=
  show FreeAccepts (freeTriple 0#16) _ _ from ⟨by decide, by decide, fun _ h1 h2 => absurd h2 (by omega), by decide, by decide, by decide⟩

theorem freeTriple_rejects : ChainRejects (freeTriple 3#16) (freeTriple 3#16).freeFmt.toNat 1 :=
  ⟨0, by decide, Corroborated.zero _ _ _, .inl (by decide)⟩

theorem witness_ScanLearnsFreeFormatLength : FirstCandidate (freeTriple 0#16) 1 0xFFFB0000#32 ∧
    SearchesFree (freeTriple 0#16) 1 0xFFFB0000#32 ∧ FreeAccepts (freeTriple 0#16) 1 4 :=
  ⟨freeTriple_first _, ⟨by decide, .inl rfl⟩, freeTriple_accepts _⟩

theorem witness_ScanLearnsFreeFormatLength_again : FirstCandidate (freeTriple 3#16) 1 0xFFFB0000#32 ∧
    SearchesFree (freeTriple 3#16) 1 0xFFFB0000#32 ∧ FreeAccepts (freeTriple 3#16) 1 4 :=
  ⟨freeTriple_first _, ⟨by decide, .inr freeTriple_rejects⟩, freeTriple_accepts _⟩

/-- A frame of 24 bytes whose successor's header lacks one byte, and one after one corroboration. -/
theorem witness_ScanNeedsMoreForCandidate :
    (∃ (s : State) (H : Word), FirstCandidate s 1 H ∧ KnownLength s H ∧ ChainRunsOut s s.freeFmt.toNat 1) ∧
    ∃ (s : State) (H : Word), FirstCandidate s 1 H ∧ KnownLength s H ∧ Corroborated s s.freeFmt.toNat 1 1 ∧
      ChainRunsOut s s.freeFmt.toNat 1 := by
  have h1 : Corroborated (holding (0#8 :: frames 2 shortFrame) false) 0 1 1 := fun a h1 h2 => by
    interval_cases a; decide +kernel
  exact ⟨⟨holding (0#8 :: (frames 2 shortFrame).take 27) false, 0xFFF31400#32,
      ⟨rfl, by decide +kernel, by decide +kernel, by decide +kernel, by decide⟩, .inl (by decide),
      0, by decide, Corroborated.zero _ _ _, by decide +kernel, by simp [Final, holding]⟩,
    ⟨holding (0#8 :: frames 2 shortFrame) false, 0xFFF31400#32,
      ⟨rfl, by decide +kernel, by decide +kernel, by decide +kernel, by decide⟩, .inl (by decide), h1,
      1, by decide, h1, by decide +kernel, by simp [Final, holding]⟩⟩

/-- One free-format header, and two. -/
def freeOne : State := holding [0xFF#8, 0xFB#8, 0#8, 0#8] false
def freeTwo (F : BitVec 16) (eof : Bool) : State :=
  { holding (frames 2 [0xFF#8, 0xFB#8, 0#8, 0#8]) eof with freeFmt := F }

theorem freeTwo_first (F : BitVec 16) (eof : Bool) : FirstCandidate (freeTwo F eof) 0 0xFFFB0000#32 :=
  show FirstCandidate (freeTwo 0#16 false) _ _ from ⟨rfl, fun _ hj => absurd hj (by omega), by decide, by decide, by decide⟩

theorem freeTwo_rejects (eof : Bool) : ChainRejects (freeTwo 3#16 eof) (freeTwo 3#16 eof).freeFmt.toNat 0 :=
  ⟨0, by decide, Corroborated.zero _ _ _, .inl (by cases eof <;> decide)⟩

theorem freeTwo_runsOut (F : BitVec 16) : FreeRunsOut (freeTwo F false) 0 :=
  show FreeRunsOut (freeTwo 0#16 false) 0 from
    ⟨not_or.2 ⟨by decide, by decide⟩, 4, by decide, by decide, fun _ _ h => absurd h (by omega), .inr (by decide)⟩

/-- A free header alone, a second one whose third lies past the window, and that under an F of 3 that does not fit. -/
theorem witness_ScanNeedsMoreForCandidate_free :
    (FirstCandidate freeOne 0 0xFFFB0000#32 ∧ SearchesFree freeOne 0 0xFFFB0000#32 ∧ FreeRunsOut freeOne 0) ∧
    (FirstCandidate (freeTwo 0#16 false) 0 0xFFFB0000#32 ∧ SearchesFree (freeTwo 0#16 false) 0 0xFFFB0000#32 ∧
      FreeRunsOut (freeTwo 0#16 false) 0) ∧
    FirstCandidate (freeTwo 3#16 false) 0 0xFFFB0000#32 ∧ SearchesFree (freeTwo 3#16 false) 0 0xFFFB0000#32 ∧
      FreeRunsOut (freeTwo 3#16 false) 0 :=
  ⟨⟨⟨rfl, fun _ hj => absurd hj (by omega), by decide, by decide, by decide⟩, ⟨by decide, .inl rfl⟩,
      not_or.2 ⟨by decide, by decide⟩, 4, by decide, by decide, fun _ _ h => absurd h (by omega), .inl (by decide)⟩,
    ⟨freeTwo_first _ _, ⟨by decide, .inl rfl⟩, freeTwo_runsOut _⟩,
    freeTwo_first _ _, ⟨by decide, .inr (freeTwo_rejects _)⟩, freeTwo_runsOut _⟩

/-- A mismatch after one corroboration, and a frame cut by one byte at the end of the stream. -/
theorem witness_ScanGoesOnPastRejectedCandidate :
    (∃ (s : State) (H : Word), s.cfg.winCap ≤ 16777215 ∧ Memory.wf s.cfg.winCap s.win = true ∧ FirstCandidate s 0 H ∧
      Hdr.free H = false ∧ Corroborated s s.freeFmt.toNat 0 1 ∧ ChainRejects s s.freeFmt.toNat 0) ∧
    ∃ (s : State) (H : Word), s.cfg.winCap ≤ 16777215 ∧ Memory.wf s.cfg.winCap s.win = true ∧ FirstCandidate s 0 H ∧
      Hdr.free H = false ∧ s.eof = true ∧ ChainRejects s s.freeFmt.toNat 0 := by
  have h1 : Corroborated (holding (frames 2 shortFrame ++ [0#8, 0#8, 0#8, 0#8]) false) 0 0 1 := fun a h1 h2 => by
    interval_cases a; decide +kernel
  exact ⟨⟨holding (frames 2 shortFrame ++ [0#8, 0#8, 0#8, 0#8]) false, 0xFFF31400#32, by decide, by decide +kernel,
      ⟨rfl, fun _ hj => absurd hj (by omega), by decide +kernel, by decide +kernel, by decide⟩, by decide, h1,
      1, by decide, h1, .inl (by decide +kernel)⟩,
    ⟨holding (shortFrame.take 23) true, 0xFFF31400#32, by decide, by decide,
      ⟨rfl, fun _ hj => absurd hj (by omega), by decide, by decide, by decide⟩, by decide, rfl,
      0, by decide, Corroborated.zero _ _ _, .inr ⟨rfl, by decide +kernel, .inl rfl, by decide +kernel⟩⟩⟩

/-- The header words of zero bytes. -/
theorem hdr_zeros {n j : Nat} (h : j + 4 ≤ n) : hdr (List.replicate n 0#8) j = 0#32 := by
  have : n - j = (n - j - 4) + 4 := by omega
  simp [hdr, memRead, bigEndian, slice, hdrSize, List.drop_replicate, List.take_replicate, Nat.min_eq_left (show 4 ≤ n - j by omega)]

/-- A free header and 2303 zero bytes. -/
def freeZeros : State := holding ([0xFF#8, 0xFB#8, 0#8, 0#8] ++ List.replicate 2303 0#8) false

theorem freeZeros_passes {k : Nat} (h4 : 4 ≤ k) (hk : k ≤ 2303) : FreePassesOver freeZeros 0 k := by
  have h : hdr freeZeros.win (0 + k) = 0#32 := by
    obtain ⟨j, rfl⟩ : ∃ j, k = 4 + j := ⟨k - 4, by omega⟩
    rw [Nat.zero_add, ← hdr_drop]
    exact hdr_zeros (n := 2303) (by omega)
  have hl : freeZeros.win.length = 2307 := by decide +kernel
  exact ⟨by omega, .inl (by rw [h]; decide +kernel)⟩

theorem freeTwo_passes : FreePassesOver (freeTwo 3#16 true) 0 4 := ⟨by decide, .inr (.inr ⟨by decide, .inl rfl⟩)⟩

/-- Every value of the search passed over in a window that is not final; and at the end of the stream, after an F of 3 that
does not fit, the one value whose third occurrence lies past the window. -/
theorem witness_ScanGoesOnPastRejectedCandidate_free :
    (freeZeros.cfg.winCap ≤ 16777215 ∧ Memory.wf freeZeros.cfg.winCap freeZeros.win = true ∧
      FirstCandidate freeZeros 0 0xFFFB0000#32 ∧ SearchesFree freeZeros 0 0xFFFB0000#32 ∧ FreeRejects freeZeros 0) ∧
    (freeTwo 3#16 true).cfg.winCap ≤ 16777215 ∧ Memory.wf (freeTwo 3#16 true).cfg.winCap (freeTwo 3#16 true).win = true ∧
      FirstCandidate (freeTwo 3#16 true) 0 0xFFFB0000#32 ∧ SearchesFree (freeTwo 3#16 true) 0 0xFFFB0000#32 ∧
      FreeRejects (freeTwo 3#16 true) 0 :=
  ⟨⟨by decide, by decide +kernel,
      ⟨rfl, fun _ hj => absurd hj (by omega), by decide +kernel, by decide +kernel, by decide⟩, ⟨by decide, .inl rfl⟩,
      fun _ h4 hk _ => freeZeros_passes h4 hk, .inl (by decide +kernel)⟩,
    by decide, by decide, freeTwo_first _ _, ⟨by decide, .inr (freeTwo_rejects _)⟩, fun k h4 _ hn => by
      obtain rfl : k = 4 := by have : (freeTwo 3#16 true).win.length = 8 := rfl
                               omega
      exact freeTwo_passes, .inr (.inl rfl)⟩

theorem witness_ScanExhaustsWindow :
    (∀ i, i + 4 ≤ (holding [0xFF#8, 0xFB#8, 0x90#8] false).win.length →
      Hdr.valid (hdr (holding [0xFF#8, 0xFB#8, 0x90#8] false).win i) = false) ∧
    (∀ i, i + 4 ≤ (holding [0#8, 0#8, 0#8, 0#8] true).win.length →
      Hdr.valid (hdr (holding [0#8, 0#8, 0#8, 0#8] true).win i) = false) := by
  refine ⟨fun i hi => absurd hi (by simp [holding]), fun i hi => ?_⟩
  obtain rfl : i = 0 := by simp [holding] at hi; omega
  decide

/-- A SCAN that finds a frame that is not free-format in a window that is not final. -/
theorem witness_found : ∃ s t : State, s.eof = false ∧ s.win.length ≠ s.cfg.winCap ∧ exec (.scan true) s = .next t ∧
    t.res = 3#4 ∧ Hdr.free t.dec.raw = false :=
  ⟨holding (frames 11 shortFrame) false, _, rfl, by decide +kernel, scan_next true _, by decide +kernel, by decide +kernel⟩

theorem witness_FoundFrameIsCorroborated : ∃ s t : State, exec (.scan true) s = .next t ∧ t.res = 3#4 :=
  let ⟨s, t, _, _, h, hr, _⟩ := witness_found
  ⟨s, t, h, hr⟩

/-- Its second case: the lone final frame. -/
theorem witness_FoundFrameIsCorroborated_lone : ∃ s t : State, s.eof = true ∧ exec (.scan false) s = .next t ∧ t.res = 3#4 :=
  ⟨holding shortFrame true, _, rfl, scan_next false _, by decide +kernel⟩

/-- A free-format frame, and the invariant. -/
theorem witness_FoundFrameIsCorroborated_free : ∃ s t : State, Machine.Invariant s ∧ exec (.scan true) s = .next t ∧ t.res = 3#4 ∧
    Hdr.free (hdr s.win 0) = true ∧ s.cfg.bitrateTable = defaultBitrateTable ∧ s.cfg.freqTable = defaultFreqTable :=
  ⟨holding (frames 3 freeFrame) false, _, { reset_invariant with win := by decide +kernel }, scan_next true _, by decide +kernel,
    by decide +kernel, rfl, rfl⟩

theorem witness_NonFinalFoundIsFullyCorroborated : ∃ (s t : State) (hold : Bool), s.eof = false ∧
    s.win.length ≠ s.cfg.winCap ∧ exec (.scan hold) s = .next t ∧ t.res = 3#4 :=
  let ⟨s, t, he, hc, h, hr, _⟩ := witness_found
  ⟨s, t, true, he, hc, h, hr⟩

/-- Eleven frames: the held frame's chain does not run out. Three free-format frames: the held one's does. -/
theorem witness_HoldFindsSameFrameAgain :
    (∃ s t : State, exec (.scan true) s = .next t ∧ t.res = 3#4 ∧ ¬ ChainRunsOut t t.freeFmt.toNat 0) ∧
    ∃ s t : State, exec (.scan true) s = .next t ∧ t.res = 3#4 ∧ ChainRunsOut t t.freeFmt.toNat 0 :=
  ⟨⟨holding (frames 11 shortFrame) false, _, scan_next true _, by decide +kernel,
      fun h => absurd (chain_eq_needMore.2 h) (by decide +kernel)⟩,
    ⟨holding (frames 3 freeFrame) false, _, scan_next true _, by decide +kernel, chain_eq_needMore.1 (by decide +kernel)⟩⟩

theorem witness_MoreBytesKeepFoundFrame : ∃ (s t : State) (hold : Bool), s.eof = false ∧ s.win.length ≠ s.cfg.winCap ∧
    exec (.scan hold) s = .next t ∧ t.res = 3#4 :=
  let ⟨s, t, he, hc, h, hr, _⟩ := witness_found
  ⟨s, t, true, he, hc, h, hr⟩

/-- A frame's first bytes after a byte of garbage, then the rest of the stream. -/
theorem witness_ScanResumesAsIfUninterrupted : ∃ (s t : State) (hold : Bool) (x : List Byte), s.eof = false ∧
    s.win.length ≠ s.cfg.winCap ∧ s.win.length + x.length ≤ s.cfg.winCap ∧ exec (.scan hold) s = .next t ∧ t.res = 2#4 :=
  ⟨holding (0#8 :: shortFrame) false, _, false, shortFrame, rfl, by decide, by decide, scan_next false _, by decide +kernel⟩

theorem witness_NeedMoreLeavesRoomToPush :
    (∃ s t : State, Machine.Invariant s ∧ exec .id3 s = .next t ∧ t.res = 2#4 ∧ t.eof = false) ∧
    ∃ s t : State, Machine.Invariant s ∧ exec (.scan true) s = .next t ∧ t.res = 2#4 ∧ t.eof = false :=
  ⟨⟨State.reset, _, reset_invariant, rfl, by decide, by decide⟩,
    ⟨State.reset, _, reset_invariant, scan_next true _, by decide, by decide⟩⟩

theorem witness_RefusedCommandChangesNothing :
    ({ State.reset with totalParsed := 1#64 }.id3.checked = false ∧ { State.reset with totalParsed := 1#64 }.totalParsed ≠ 0#64) ∧
    skipping.id3.skipRemain ≠ 0#28 ∧ (State.reset.eof = false ∧ State.reset.id3.skipRemain = 0#28) := by decide

theorem witness_RefusedCommandChangesNothing_only : ∃ t : State, Instr.isCommand (.trailer true) = true ∧
    exec (.trailer true) State.reset = .next t ∧ t.res = 5#4 := ⟨_, rfl, rfl, by decide⟩

theorem witness_ResultCodesByInstruction :
    (∃ t, exec .nop State.reset = .next t) ∧ (∃ t, exec .reset State.reset = .next t) ∧
    (∃ t, exec .id3 State.reset = .next t ∧ State.reset.totalParsed = 0#64) ∧
    (∃ t, exec .id3 skipping = .next t ∧ skipping.id3.checked = true) ∧
    (∃ t, exec (.scan true) State.reset = .next t ∧ State.reset.id3.skipRemain = 0#28) ∧
    (∃ t, exec (.trailer true) (holding [] true) = .next t ∧ (holding [] true).eof = true ∧
      (holding [] true).id3.skipRemain = 0#28) ∧
    (∃ t, exec (.consume 0#24) State.reset = .next t ∧ State.reset.id3.skipRemain = 0#28) ∧
    (∃ t, exec (.issue 8#32) State.reset = .next t) ∧
    ∃ t, Instr.isCommand (.push 0#32) = false ∧ (∀ d, Instr.push 0#32 ≠ .issue d) ∧ exec (.push 0#32) State.reset = .next t :=
  ⟨⟨_, rfl⟩, ⟨_, rfl⟩, ⟨_, rfl, rfl⟩, ⟨_, rfl, rfl⟩, ⟨_, rfl, rfl⟩, ⟨_, rfl, rfl, rfl⟩, ⟨_, rfl, rfl⟩, ⟨_, rfl⟩,
    ⟨_, rfl, by simp, rfl⟩⟩

theorem witness_OneErrorBitPerStep : ∃ t : State, Instr.push 0#32 ≠ .reset ∧ (∀ d, Instr.push 0#32 ≠ .clearErr d) ∧
    exec (.push 0#32) busyState = .next t := ⟨_, by simp, by simp, rfl⟩

theorem witness_BadAccessesTouchNoRegister :
    0x000#12 ∉ [0x004#12, 0x00C#12, 0x010#12, 0x014#12, 0x020#12, 0x03C#12, 0x040#12] ∧
    0xFFF#12 ∉ [0x004#12, 0x00C#12, 0x010#12, 0x014#12, 0x020#12, 0x03C#12, 0x040#12] ∧
    ((0x07D#12).toNat % 4 ≠ 0 ∨ 128 ≤ (0x07D#12).toNat) ∧ ((0xFFC#12).toNat % 4 ≠ 0 ∨ 128 ≤ (0xFFC#12).toNat) := by decide

theorem witness_CommandsWriteOnlyTheirRegisters : ∃ t : State, Instr.isCommand .decode = true ∧ Instr.decode ≠ .reset ∧
    exec .decode State.reset = .next t ∧ t.res ≠ 3#4 := ⟨_, rfl, by simp, rfl, by decide⟩

theorem witness_BusOperationsKeepResults : ∃ t : State, Instr.isCommand (.setEof 1#32) = false ∧
    exec (.setEof 1#32) State.reset = .next t ∧ ∀ d, Instr.setEof 1#32 ≠ .push d := ⟨_, rfl, rfl, by simp⟩

theorem witness_PopAccounting : ∃ t : State, State.reset.cfg.winCap ≤ 16777215 ∧
    Memory.wf State.reset.cfg.winCap State.reset.win = true ∧ Instr.isCommand (.trailer true) = true ∧
    Instr.trailer true ≠ .reset ∧ exec (.trailer true) State.reset = .next t :=
  ⟨_, by decide, by decide, rfl, by simp, rfl⟩

theorem witness_CompletionIgnoresHostAccesses : ∃ t u : State, busyState.busy = true ∧
    decodeCmd busyState.pending = .instr (.scan true) ∧ Instr.isCommand (.clearErr 1#32) = false ∧
    exec (.clearErr 1#32) busyState = .next t ∧ exec (.scan true) busyState = .next u :=
  ⟨_, _, rfl, by decide, rfl, rfl, scan_next true _⟩

theorem witness_DecodeOfEncode : (Instr.consume 0xFFFFFF#24).wf = true ∧ (Instr.read 0xFFF#12).wf = true := by decide

theorem witness_EncodeOfDecode : decode (.cmd 0x00000106#32) = .instr (.trailer true) ∧
    decode (.wr 0x020#12 0xFFFFFFFF#32) = .instr (.setRaddr 0xFFFFFFFF#32) ∧ decode (.rd 0xFFF#12) = .instr (.read 0xFFF#12) := by
  decide

theorem witness_StepRunsDecodedInstruction : decode (.wr 0x014#12 1#32) = .instr (.push 1#32) ∧
    decode (.rd 0x024#12) = .instr .peek ∧ (busyState.busy = true ∧ decode (.cmd busyState.pending) = .instr (.scan true)) := by
  decide

theorem witness_IdleBlockIsQuiescent : State.reset.busy = false ∧
    (4095 < { Config.reference with mfsdBase := 4096 }.mfsdBase ∨ { Config.reference with mfsdBase := 4096 }.mfsdBase + 4096 ≤ 4095) ∧
    (8192 < { Config.reference with mfsdBase := 4096 }.mfsdBase ∨ { Config.reference with mfsdBase := 4096 }.mfsdBase + 4096 ≤ 8192) := by
  decide

theorem witness_PendingUnreadWhileIdle : ∃ t, State.reset.busy = false ∧ step State.reset = .next t := ⟨_, rfl, rfl⟩

theorem witness_InvariantsHoldAtReset : Initial State.reset := initial_reset

theorem witness_EveryStepKeepsInvariants : Machine.Invariant State.reset ∧ Machine.Invariant skipping :=
  ⟨reset_invariant, skipping_invariant⟩

theorem witness_RunsNeverStop : Machine.Invariant skipping ∧ ∃ t, Host.Core.run Sys2Proof.core 1 skipping = .next t :=
  ⟨skipping_invariant, _, rfl⟩

end Sys2Proof.Tests
end

section
/-! SUPPORT. What one step carries out, said once: the event it takes off the agenda, the instruction it then runs, and
that every instruction completes (20_memory.md R83, R84, 60_exceptions.md R300). -/

namespace Sys2Proof.Machine

/-! ### From a step to an instruction -/

/-- What the step does with what it fetched, as a function of the state without the event. -/
def carryOut (f : Fetched) (t : State) : Result :=
  match f with
  | .op o => runOp o t
  | .hardwareReset => .next (resetState t)
  | .idle => .next t

theorem step_eq_carryOut (s : State) : step s = carryOut (fetch s).1 (fetch s).2 := by
  unfold step
  rcases fetch s with ⟨_ | _ | _, t⟩ <;> rfl

/-- Fetching takes the first event off the agenda and leaves the rest of the state. -/
theorem fetch_snd (s : State) : (fetch s).2 = { s with agenda := s.agenda.tail } := by
  obtain ⟨_, agenda⟩ := s
  cases agenda <;> rfl

/-- The one command word a step fetches is the pending one of a busy block (60_exceptions.md R318). -/
theorem fetch_command {s : State} {w : Word} (h : (fetch s).1 = .op (.cmd w)) : s.busy = true ∧ w = s.pending := by
  have engine : engineTurn s = .op (.cmd w) → s.busy = true ∧ w = s.pending := fun he => by
    unfold engineTurn at he
    split at he <;> cases he
    exact ⟨‹_›, rfl⟩
  unfold fetch at h
  split at h
  · exact engine h
  · rename_i e _ _
    cases e with
    | wr addr d => simp only [Event.fetched] at h; split at h <;> cases h
    | rd addr => simp only [Event.fetched] at h; split at h <;> cases h
    | engine => exact engine h
    | hardwareReset => cases h

/-- What an idle block fetches does not depend on its pending word (10_state.md R64(b)). -/
theorem fetch_of_idle {s : State} (h : s.busy = false) (w : Word) :
    (fetch { s with pending := w }).1 = (fetch s).1 := by
  have engine : engineTurn { s with pending := w } = engineTurn s := by simp [engineTurn, h]
  cases ha : s.agenda with
  | nil => simpa only [fetch, ha] using engine
  | cons e rest =>
    simp only [fetch, ha]
    cases e with
    | wr _ _ | rd _ | hardwareReset => rfl
    | engine => exact engine

/-- A bus write that is no instruction sets BAD_ADDR and does nothing else (10_state.md R62). -/
theorem badOperation_write {off : Offset} {d : Word} {e : DecodeError} (h : decodeWrite off d = .bad e) (s : State) :
    badOperation e s = .next (raise .badAddr s) := by
  unfold decodeWrite at h
  repeat' split at h
  all_goals cases h
  all_goals rfl

/-- A step carries out a command word, one bus instruction, an ignored write, a hardware reset, or nothing. -/
theorem carryOut_cases (f : Fetched) :
    (∃ w, f = .op (.cmd w)) ∨
    (∃ i : Instr, i.isCommand = false ∧ carryOut f = exec i) ∨
    carryOut f = (fun t => .next (raise .badAddr t)) ∨
    carryOut f = (fun t => .next (resetState t)) ∨
    carryOut f = .next := by
  match f with
  | .op (.cmd w) => exact .inl ⟨w, rfl⟩
  | .op (.wr off d) =>
    right
    cases hd : decodeWrite off d with
    | instr i => exact .inl ⟨i, decodeWrite_isCommand hd, funext fun t => by simp [carryOut, runOp, decode, hd]⟩
    | bad e => exact .inr (.inl (funext fun t => by simp [carryOut, runOp, decode, hd, badOperation_write hd]))
  | .op (.rd off) =>
    right; left
    by_cases hr : off = Reg.winRdata.offset
    · exact ⟨.peek, rfl, funext fun t => by simp [carryOut, runOp, decode, decodeRead, hr]⟩
    · exact ⟨.read off, rfl, funext fun t => by simp [carryOut, runOp, decode, decodeRead, hr]⟩
  | .hardwareReset => exact .inr (.inr (.inr (.inl rfl)))
  | .idle => exact .inr (.inr (.inr (.inr rfl)))

/-- A legal command word runs its instruction. -/
theorem runOp_command {w : Word} {c : Instr} (h : decodeCmd w = .instr c) (s : State) :
    runOp (.cmd w) s = exec c s := by
  simp [runOp, decode, h]

/-- A bus write at an offset is carried out on the state without the event. -/
theorem step_write (s : State) (off : Offset) (d : Word) (rest : List Event) :
    step { s with agenda := .wr (addressOf s.cfg off) d :: rest } = runOp (.wr off d) { s with agenda := rest } := by
  simp [step, fetch, Event.fetched, offsetOf_addressOf]

/-- A bus read at an offset is carried out on the state without the event. -/
theorem step_read (s : State) (off : Offset) (rest : List Event) :
    step { s with agenda := .rd (addressOf s.cfg off) :: rest } = runOp (.rd off) { s with agenda := rest } := by
  simp [step, fetch, Event.fetched, offsetOf_addressOf]

/-! ### Every instruction completes -/

theorem busyGated_completes (f : State → State) (s : State) : ∃ t, busyGated f s = .next t := by
  cases h : s.busy
  · exact ⟨_, busyGated_idle h⟩
  · exact ⟨_, busyGated_busy h⟩

theorem exec_completes (i : Instr) (s : State) : ∃ t, exec i s = .next t := by
  cases i with
  | push _ | setEof _ | issue _ | setHdr _ | setHdr2 _ => exact busyGated_completes _ s
  | read off =>
    cases h : Reg.ofOffset off with
    | some r => exact ⟨{ s with rdata := readReg s r }, by simp [exec, execRead, h]⟩
    | none => exact ⟨{ raise .badAddr s with rdata := 0#32 }, by simp [exec, execRead, h]⟩
  | nop | reset | decode | compare | id3 | scan _ | trailer _ | consume _ | clearErr _ | setRaddr _ | peek =>
    exact ⟨_, rfl⟩

end Sys2Proof.Machine
end

section
/-! SUPPORT. The invariants of 10_state.md R64 through the shared operations and through every instruction. -/

namespace Sys2Proof.Machine

/-! ### The shared operations -/

theorem ResultCode.code_le (c : ResultCode) : c.code.toNat ≤ 5 := by cases c <;> decide

/-- Right after reset the invariants hold, whatever is to come and whatever was read last. -/
theorem invariant_reset {cfg : Config} (h : admissible cfg = true) (agenda : List Event) (rdata : Word) :
    Invariant { State.reset with cfg := cfg, agenda := agenda, rdata := rdata } where
  cfg := h
  win := by simp [Memory.wf, State.reset]
  pending := nofun
  skipping := fun hs => absurd rfl hs
  accounting := fun hs => absurd rfl hs
  present := nofun
  free := .inl rfl
  res := Nat.zero_le 5

theorem Invariant.resetState {s : State} (h : Invariant s) : Invariant (resetState s) :=
  invariant_reset h.cfg s.agenda s.rdata

theorem Invariant.withAgenda {s : State} (h : Invariant s) (agenda : List Event) :
    Invariant { s with agenda := agenda } := { h with }

theorem Invariant.raise {s : State} (h : Invariant s) (b : ErrBit) : Invariant (raise b s) := { h with }

theorem Invariant.refused {s : State} (h : Invariant s) : Invariant (refusedState s) :=
  { h with pending := nofun, res := le_rfl }

/-- A command that ends without a pop or a new ID3 state keeps the invariants. -/
theorem Invariant.finish {s : State} (h : Invariant s) {c : BitVec 4} (hc : c.toNat ≤ 5) :
    Invariant { s with res := c, popCount := 0#24, busy := false } :=
  { h with pending := nofun, res := hc }

/-- A command that pops while no skip is active keeps the invariants: R64(d) speaks of an active skip only. -/
theorem Invariant.pop {s : State} (h : Invariant s) (hk : s.id3.skipRemain = 0#28) (k : Nat) {c : BitVec 4}
    (hc : c.toNat ≤ 5) :
    Invariant { s with
      win := s.win.drop k
      totalParsed := s.totalParsed + BitVec.ofNat 64 k
      res := c
      popCount := BitVec.ofNat 24 k
      busy := false } :=
  { h with
    win := wf_drop k h.win
    pending := nofun
    accounting := fun hs => absurd hk hs
    res := hc }

/-- The F a search leaves is 0 or in 3 … 2303 where the F it began with is (10_state.md R64(f)). -/
theorem Invariant.searchFree {s : State} (h : Invariant s) :
    BitVec.ofNat 16 (search (viewOf s) s.freeFmt.toNat).free = 0#16 ∨
      (3 ≤ (BitVec.ofNat 16 (search (viewOf s) s.freeFmt.toNat).free).toNat ∧
        (BitVec.ofNat 16 (search (viewOf s) s.freeFmt.toNat).free).toNat ≤ 2303) := by
  rw [search_F_toNat]
  rcases scanLoop_F (viewOf s) s.win.length s.freeFmt.toNat 0 with hF | hF | hF
  · rw [search, viewOf_win, hF]; simpa using h.free
  · rw [search, viewOf_win, hF]; exact .inl rfl
  · exact .inr hF

/-! ### The commands -/

theorem execScan_keeps {s t : State} {hold : Bool} (h : Invariant s) (he : execScan hold s = .next t) :
    Invariant t ∧ t.cfg = s.cfg := by
  have hF := h.searchFree
  rcases execScan_cases he with ⟨_, rfl⟩ | ⟨hk, i, L, F, H, k, hs, _, rfl⟩ | ⟨hk, i, F, k, ⟨hs, _⟩ | ⟨hs, _⟩, rfl⟩
  · exact ⟨h.refused, rfl⟩
  all_goals
    rw [hs] at hF
    exact ⟨{ h.pop hk k (by decide) with free := hF }, rfl⟩

/-- Before detection has run no skip is active (10_state.md R64(c)). -/
theorem Invariant.idle_of_unchecked {s : State} (h : Invariant s) (hc : s.id3.checked = false) :
    s.id3.skipRemain = 0#28 := by
  by_contra hs
  exact absurd (h.skipping hs).1 (by simp [hc])

/-- The ID3 registers the skip step begins with meet R64(c), (d) and (e), the bytes popped before it counted. -/
theorem Id3Begins.invariant {s : State} {d : Id3Regs} {a : Nat} (h : Invariant s) (hd : Id3Begins s d a) :
    (d.skipRemain ≠ 0#28 → d.checked = true ∧ d.present = true) ∧
    (d.skipRemain ≠ 0#28 → s.totalParsed.toNat + a + d.skipRemain.toNat = 10 + d.size.toNat) ∧
    (d.present = true → d.checked = true ∧ id3Version d.ver = true ∧ d.size ≠ 0#28) := by
  rcases hd with ⟨_, rfl, rfl⟩ | ⟨_, ht, rfl, htag, rfl⟩ | ⟨hc, _, rfl, _, _, rfl⟩
  · exact ⟨h.skipping, h.accounting, h.present⟩
  · simp only [id3Tag, Bool.and_eq_true, bne_iff_ne] at htag
    exact ⟨fun _ => ⟨rfl, rfl⟩, fun _ => by simp [ht], fun _ => ⟨rfl, htag.1.2, htag.2⟩⟩
  · have idle := h.idle_of_unchecked hc
    exact ⟨fun hs => absurd idle hs, fun hs => absurd idle hs, nofun⟩

/-- Every skipped byte goes from skip_remain to total_parsed: the sum of R64(d) stays. -/
theorem skip_accounting {total : BitVec 64} {S size : BitVec 28} {a k : Nat} (hk : k ≤ S.toNat)
    (h : total.toNat + a + S.toNat = 10 + size.toNat) :
    (total + BitVec.ofNat 64 (a + k)).toNat + (BitVec.ofNat 28 (S.toNat - k)).toNat = 10 + size.toNat := by
  have := S.isLt
  have := size.isLt
  simp only [BitVec.toNat_add, BitVec.toNat_ofNat]
  omega

theorem execId3_keeps {s t : State} (h : Invariant s) (he : execId3 s = .next t) : Invariant t ∧ t.cfg = s.cfg := by
  rcases execId3_cases he with
    ⟨_, _, rfl⟩ | ⟨_, _, _, _, rfl⟩ | ⟨hc, _, _, _, rfl⟩ | ⟨d, a, k, hk, _, hd, rfl⟩
  · exact ⟨h.refused, rfl⟩
  · exact ⟨h.finish (by decide), rfl⟩
  · have idle := h.idle_of_unchecked hc
    exact ⟨{ h.finish (c := 1#4) (by decide) with
      skipping := fun hs => absurd idle hs
      accounting := fun hs => absurd idle hs
      present := nofun }, rfl⟩
  · obtain ⟨skipping, accounting, present⟩ := hd.invariant h
    have active : BitVec.ofNat 28 (d.skipRemain.toNat - k) ≠ 0#28 → d.skipRemain ≠ 0#28 := fun hs h0 =>
      hs (by simp [h0])
    exact ⟨{
      cfg := h.cfg
      win := wf_drop _ h.win
      pending := nofun
      skipping := fun hs => skipping (active hs)
      accounting := fun hs => skip_accounting (by omega) (accounting (active hs))
      present := present
      free := h.free
      res := by simp only; split <;> decide }, rfl⟩

theorem execConsume_keeps {s t : State} {cnt : BitVec 24} (h : Invariant s) (he : execConsume cnt s = .next t) :
    Invariant t ∧ t.cfg = s.cfg := by
  rcases execConsume_cases he with ⟨_, rfl⟩ | ⟨hk, k, _, rfl⟩
  · exact ⟨h.refused, rfl⟩
  · exact ⟨h.pop hk k (by decide), rfl⟩

theorem execTrailer_keeps {s t : State} {cut : Bool} (h : Invariant s) (he : execTrailer cut s = .next t) :
    Invariant t ∧ t.cfg = s.cfg := by
  rcases execTrailer_cases he with ⟨_, rfl⟩ | ⟨_, _, k, ht⟩
  · exact ⟨h.refused, rfl⟩
  · rw [ht]
    exact ⟨{ h.finish (c := 1#4) (by decide) with win := wf_take k h.win }, rfl⟩

/-! ### The bus operations -/

theorem busyGated_keeps {f : State → State} {s t : State} (h : Invariant s)
    (hf : Invariant (f s) ∧ (f s).cfg = s.cfg) (he : busyGated f s = .next t) :
    Invariant t ∧ t.cfg = s.cfg := by
  rcases busyGated_cases he with ⟨_, rfl⟩ | ⟨_, rfl⟩
  · exact ⟨h.raise _, rfl⟩
  · exact hf

theorem pushEffect_keeps {s : State} (d : Word) (h : Invariant s) :
    Invariant (pushEffect d s) ∧ (pushEffect d s).cfg = s.cfg := by
  rcases pushEffect_cases d s with ⟨_, he⟩ | ⟨_, _, he⟩ | ⟨_, hn, he⟩ <;> rw [he]
  · exact ⟨h.raise _, rfl⟩
  · exact ⟨h.raise _, rfl⟩
  · exact ⟨{ h with win := wf_push _ h.win hn }, rfl⟩

theorem setEofEffect_keeps {s : State} (d : Word) (h : Invariant s) :
    Invariant (setEofEffect d s) ∧ (setEofEffect d s).cfg = s.cfg := by
  rcases setEofEffect_cases d s with ⟨_, he⟩ | ⟨_, he⟩ <;> rw [he]
  · exact ⟨{ h with }, rfl⟩
  · exact ⟨h, rfl⟩

/-- The issue step latches legal words only (40_window_port.md R145). -/
theorem issueEffect_keeps {s : State} (d : Word) (h : Invariant s) :
    Invariant (issueEffect d s) ∧ (issueEffect d s).cfg = s.cfg := by
  rcases issueEffect_cases d s with ⟨hd, he⟩ | ⟨_, he⟩ <;> rw [he]
  · exact ⟨{ h with pending := fun _ => hd }, rfl⟩
  · exact ⟨{ h with res := ResultCode.errCmd.code_le }, rfl⟩

theorem execRead_keeps {s t : State} {off : Offset} (h : Invariant s) (he : execRead off s = .next t) :
    Invariant t ∧ t.cfg = s.cfg := by
  rcases execRead_cases he with ⟨r, _, rfl⟩ | ⟨_, rfl⟩ <;> exact ⟨{ h with }, rfl⟩

/-! ### Every instruction -/

theorem exec_keeps {s t : State} {i : Instr} (h : Invariant s) (he : exec i s = .next t) :
    Invariant t ∧ t.cfg = s.cfg := by
  cases i with
  | nop | decode | compare => cases he; exact ⟨{ h.finish (c := 1#4) (by decide) with }, rfl⟩
  | reset => cases he; exact ⟨h.resetState, rfl⟩
  | id3 => exact execId3_keeps h he
  | scan hold => exact execScan_keeps h he
  | trailer cut => exact execTrailer_keeps h he
  | consume cnt => exact execConsume_keeps h he
  | push d => exact busyGated_keeps h (pushEffect_keeps d h) he
  | setEof d => exact busyGated_keeps h (setEofEffect_keeps d h) he
  | issue d => exact busyGated_keeps h (issueEffect_keeps d h) he
  | setHdr d | setHdr2 d => exact busyGated_keeps h ⟨{ h with }, rfl⟩ he
  | clearErr d | setRaddr d | peek => cases he; exact ⟨{ h with }, rfl⟩
  | read off => exact execRead_keeps h he

/-- An instruction completes with the invariants. -/
theorem exec_invariant {s : State} (i : Instr) (h : Invariant s) :
    ∃ t, exec i s = .next t ∧ Invariant t ∧ t.cfg = s.cfg := by
  obtain ⟨t, ht⟩ := exec_completes i s
  exact ⟨t, ht, exec_keeps h ht⟩

/-- Settles O59: the pending word a busy block carries out is legal, so every step is an instruction, an ignored write, a
reset or nothing, and each keeps the invariants. -/
theorem everyStepKeepsInvariants : Obligations.EveryStepKeepsInvariants := by
  intro s h
  have ht : Invariant { s with agenda := s.agenda.tail } := h.withAgenda _
  rw [step_eq_carryOut, fetch_snd]
  rcases carryOut_cases (fetch s).1 with ⟨w, hf⟩ | ⟨i, _, hf⟩ | hf | hf | hf
  · obtain ⟨hb, rfl⟩ := fetch_command hf
    obtain ⟨c, hc⟩ := h.pending hb
    rw [hf]
    simp only [carryOut, runOp_command hc]
    exact exec_invariant c ht
  · rw [hf]; exact exec_invariant i ht
  · rw [hf]; exact ⟨_, rfl, ht.raise _, rfl⟩
  · rw [hf]; exact ⟨_, rfl, ht.resetState, rfl⟩
  · rw [hf]; exact ⟨_, rfl, ht, rfl⟩

/-- Settles O58: `Initial` names a reset state, with its parameters and its agenda. -/
theorem invariantsHoldAtReset : Obligations.InvariantsHoldAtReset := by
  rintro s ⟨hcfg, hs⟩
  rw [hs]
  exact invariant_reset hcfg s.agenda 0#32

end Sys2Proof.Machine
end

section
/-! SUPPORT. What a step does at an error offset (10_state.md R62) and to an idle block's pending word (R64(b)). -/

namespace Sys2Proof.Machine

/-! ### Error offsets -/

/-- The writable offsets, in numbers (10_state.md R31). -/
theorem decodeWrite_writable {off : Offset} {d : Word} {i : Instr} (h : decodeWrite off d = .instr i) :
    off ∈ [0x004#12, 0x00C#12, 0x010#12, 0x014#12, 0x020#12, 0x03C#12, 0x040#12] := by
  cases hr : Reg.ofOffset off with
  | none => simp only [decodeWrite, hr] at h; split at h <;> cases h
  | some r =>
    rw [← ofOffset_eq_some hr]
    simp only [decodeWrite, hr] at h
    cases r <;> simp [Reg.offset] at h ⊢

theorem execRead_register (s : State) (r : Reg) : execRead r.offset s = .next { s with rdata := readReg s r } := by
  simp [execRead, ofOffset_offset]

theorem execRead_unmapped (s : State) {off : Offset} (h : off.toNat % 4 ≠ 0 ∨ 128 ≤ off.toNat) :
    execRead off s = .next { raise .badAddr s with rdata := 0#32 } := by
  simp [execRead, ofOffset_eq_none h]

/-- A bus read at any offset but WIN_RDATA's is READ. -/
theorem runOp_read {off : Offset} (h : off ≠ 0x024#12) (s : State) : runOp (.rd off) s = execRead off s := by
  simp [runOp, decode, decodeRead, Reg.offset, h, exec]

/-- Settles O47: a write outside the writable offsets is no instruction, and READ finds no register at an error offset. -/
theorem badAccessesTouchNoRegister : Obligations.BadAccessesTouchNoRegister := by
  intro s off d rest
  refine ⟨fun hoff => ?_, fun hoff => ?_, ?_⟩
  · rw [step_write, runOp, decode]
    cases hd : decodeWrite off d with
    | instr i => exact absurd (decodeWrite_writable hd) hoff
    | bad e => exact badOperation_write hd _
  · have hne : off ≠ 0x024#12 := by rintro rfl; simp at hoff
    rw [step_read, runOp_read hne, execRead_unmapped _ hoff]
    rfl
  · rw [step_read, runOp_read (by decide)]
    exact execRead_register _ .dataIn

/-! ### The pending word of an idle block -/

/-- A bus operation on an idle block does not read the pending word. -/
theorem exec_bus_pending {i : Instr} {s t : State} (hi : i.isCommand = false) (hb : s.busy = false) (w : Word)
    (h : exec i s = .next t) : ∃ p, exec i { s with pending := w } = .next { t with pending := p } := by
  have gated : ∀ {f : State → State} {p : Word}, busyGated f s = .next t →
      f { s with pending := w } = { f s with pending := p } →
      ∃ p, busyGated f { s with pending := w } = .next { t with pending := p } := by
    intro f p he hf
    rw [busyGated_idle hb] at he
    cases he
    exact ⟨p, by rw [busyGated_idle (by exact hb), hf]⟩
  cases i with
  | push d =>
    refine gated (p := w) h ?_
    unfold pushEffect; split
    · rfl
    · split <;> rfl
  | setEof d => refine gated (p := w) h ?_; unfold setEofEffect; split <;> rfl
  | issue d =>
    cases hd : decodeCmd d with
    | instr c => exact gated (p := d) h (by simp [issueEffect, hd])
    | bad e => exact gated (p := w) h (by simp [issueEffect, hd, raise])
  | setHdr d | setHdr2 d => exact gated (p := w) h rfl
  | clearErr d | setRaddr d => cases h; exact ⟨w, rfl⟩
  | peek => cases h; exact ⟨w, rfl⟩
  | read off =>
    rcases execRead_cases h with ⟨r, hr, rfl⟩ | ⟨hr, rfl⟩
    · exact ⟨w, by simp [exec, execRead, hr]; cases r <;> rfl⟩
    · exact ⟨w, by simp [exec, execRead, hr, raise]⟩
  | nop | reset | decode | compare | id3 | scan _ | trailer _ | consume _ => cases hi

/-- Settles O57: an idle block fetches the same whatever its pending word is, and it never fetches a command. -/
theorem pendingUnreadWhileIdle : Obligations.PendingUnreadWhileIdle := by
  intro s t w hb h
  rw [step_eq_carryOut, fetch_snd] at h
  rw [step_eq_carryOut, fetch_snd, fetch_of_idle hb]
  rcases carryOut_cases (fetch s).1 with ⟨v, hf⟩ | ⟨i, hi, hf⟩ | hf | hf | hf
  · exact absurd (fetch_command hf).1 (by simp [hb])
  · rw [hf] at h ⊢
    obtain ⟨p, hp⟩ := exec_bus_pending hi (by exact hb) w h
    exact ⟨_, hp, rfl⟩
  all_goals
    rw [hf] at h ⊢
    cases h
    exact ⟨_, rfl, rfl⟩

end Sys2Proof.Machine
end

section
/-! SUPPORT. What each command writes and takes from the window when it completes (10_state.md R32, R44, R46, R57,
20_memory.md R73, R74). -/

namespace Sys2Proof.Machine

/-- Settles O48, command by command: what each can do is said once in its `_cases` lemma. -/
theorem commandsWriteOnlyTheirRegisters : Obligations.CommandsWriteOnlyTheirRegisters := by
  intro i s t hi hreset h
  cases i with
  | nop | decode | compare => cases h; simp [decodeRule, compareRule, ResultCode.code]
  | id3 =>
    rcases execId3_cases h with
      ⟨_, _, rfl⟩ | ⟨_, _, _, _, rfl⟩ | ⟨_, _, _, _, rfl⟩ | ⟨d, a, k, _, _, _, rfl⟩ <;> simp [refusedState]
  | scan hold =>
    rcases execScan_cases h with ⟨_, rfl⟩ | ⟨_, i, L, F, H, k, _, _, rfl⟩ | ⟨_, i, F, k, _, rfl⟩ <;>
      simp [refusedState]
  | trailer cut =>
    rcases execTrailer_cases h with ⟨_, rfl⟩ | ⟨_, _, k, ht⟩
    · simp [refusedState]
    · rw [ht]; simp
  | consume cnt => rcases execConsume_cases h with ⟨_, rfl⟩ | ⟨_, k, _, rfl⟩ <;> simp [refusedState]
  | reset => exact absurd rfl hreset
  | push _ | setEof _ | clearErr _ | issue _ | setHdr _ | setHdr2 _ | setRaddr _ | peek | read _ => cases hi

/-! ### The bytes a command takes -/

/-- The command's pops are the front of the window, counted in POP_COUNT and in TOTAL (20_memory.md R73). -/
def TakesFront (s t : State) : Prop :=
  t.totalParsed = s.totalParsed + t.popCount.setWidth 64 ∧ t.win = s.win.drop t.popCount.toNat

/-- A count that fits POP_COUNT's 24 bits is counted whole. -/
theorem takesFront_of_pop {s t : State} {k : Nat} (hk : k ≤ 16777215)
    (htotal : t.totalParsed = s.totalParsed + BitVec.ofNat 64 k) (hwin : t.win = s.win.drop k)
    (hpop : t.popCount = BitVec.ofNat 24 k) : TakesFront s t := by
  have hcount : t.popCount.toNat = k := by rw [hpop, BitVec.toNat_ofNat]; omega
  have hwide : t.popCount.setWidth 64 = BitVec.ofNat 64 k := BitVec.eq_of_toNat_eq (by
    rw [BitVec.toNat_setWidth, hcount, BitVec.toNat_ofNat])
  exact ⟨by rw [htotal, hwide], by rw [hwin, hcount]⟩

theorem takesFront_of_no_pop {s t : State} (htotal : t.totalParsed = s.totalParsed) (hwin : t.win = s.win)
    (hpop : t.popCount = 0#24) : TakesFront s t :=
  takesFront_of_pop (k := 0) (by decide) (by simpa using htotal) hwin hpop

theorem takesFront_refused (s : State) : TakesFront s (refusedState s) := takesFront_of_no_pop rfl rfl rfl

/-- SCAN takes no more than the window holds: an accepted frame lies in it (43_sync_scanner.md R255–R257). -/
theorem search_found_le {v : View} {F i L F' : Nat} {H : Word} (h : search v F = .found i H L F') :
    i + L ≤ v.win.length := by
  have hsound := search_sound v F
  rw [h] at hsound
  obtain ⟨_, _, _, _, F₀, haccept, _⟩ := hsound
  obtain ⟨_, ⟨hlen, _⟩ | ⟨_, hlen⟩⟩ := evaluate_accept haccept <;> omega

theorem search_needMore_le {v : View} {F i F' : Nat} (h : search v F = .needMore i F') : i ≤ v.win.length := by
  have hsound := search_sound v F
  rw [h] at hsound
  obtain ⟨_, hlen, _⟩ := hsound
  omega

theorem execScan_takesFront {s t : State} {hold : Bool} (hn : s.win.length ≤ 16777215)
    (h : execScan hold s = .next t) : TakesFront s t := by
  rcases execScan_cases h with
    ⟨_, rfl⟩ | ⟨_, i, L, F, H, k, hs, hk, rfl⟩ | ⟨_, i, F, k, ⟨hs, hk⟩ | ⟨hs, hk⟩, rfl⟩
  · exact takesFront_refused s
  · have hle : i + L ≤ s.win.length := search_found_le hs
    exact takesFront_of_pop (by split at hk <;> omega) rfl rfl rfl
  · have hle : i ≤ s.win.length := search_needMore_le hs
    exact takesFront_of_pop (by omega) rfl rfl rfl
  · have hle : i = s.win.length - 3 := search_exhausted hs
    exact takesFront_of_pop (by split at hk <;> omega) rfl rfl rfl

theorem execId3_takesFront {s t : State} (hn : s.win.length ≤ 16777215) (h : execId3 s = .next t) :
    TakesFront s t := by
  rcases execId3_cases h with
    ⟨_, _, rfl⟩ | ⟨_, _, _, _, rfl⟩ | ⟨_, _, _, _, rfl⟩ | ⟨d, a, k, hk, ha, _, rfl⟩
  · exact takesFront_refused s
  · exact takesFront_of_no_pop rfl rfl rfl
  · exact takesFront_of_no_pop rfl rfl rfl
  · exact takesFront_of_pop (k := a + k) (by omega) rfl rfl rfl

theorem execConsume_takesFront {s t : State} {cnt : BitVec 24} (hn : s.win.length ≤ 16777215)
    (h : execConsume cnt s = .next t) : TakesFront s t := by
  rcases execConsume_cases h with ⟨_, rfl⟩ | ⟨_, k, hk, rfl⟩
  · exact takesFront_refused s
  · exact takesFront_of_pop (by omega) rfl rfl rfl

/-- Every command but RESET and TRAILER takes its bytes from the window's front. -/
theorem exec_takesFront {i : Instr} {s t : State} (hn : s.win.length ≤ 16777215) (hi : i.isCommand = true)
    (hreset : i ≠ .reset) (htrailer : ∀ cut, i ≠ .trailer cut) (h : exec i s = .next t) : TakesFront s t := by
  cases i with
  | nop | decode | compare => cases h; exact takesFront_of_no_pop rfl rfl rfl
  | id3 => exact execId3_takesFront hn h
  | scan hold => exact execScan_takesFront hn h
  | consume cnt => exact execConsume_takesFront hn h
  | reset => exact absurd rfl hreset
  | trailer cut => exact absurd rfl (htrailer cut)
  | push _ | setEof _ | clearErr _ | issue _ | setHdr _ | setHdr2 _ | setRaddr _ | peek | read _ => cases hi

/-- TRAILER pops nothing and takes bytes from the window's end only. -/
theorem execTrailer_takesTail {s t : State} {cut : Bool} (h : execTrailer cut s = .next t) :
    t.totalParsed = s.totalParsed ∧ t.popCount = 0#24 ∧ ∃ tail, s.win = t.win ++ tail := by
  rcases execTrailer_cases h with ⟨_, rfl⟩ | ⟨_, _, k, ht⟩
  · exact ⟨rfl, rfl, [], (List.append_nil _).symm⟩
  · rw [ht]; exact ⟨rfl, rfl, s.win.drop k, (List.take_append_drop k s.win).symm⟩

/-- Settles O50: under the window's bound no pop overflows POP_COUNT, and TRAILER alone takes from the end. -/
theorem popAccounting : Obligations.PopAccounting := by
  intro i s t hcap hwf hi hreset h
  have hn : s.win.length ≤ 16777215 := by
    simp only [Memory.wf, decide_eq_true_eq] at hwf
    omega
  by_cases htrailer : ∃ cut, i = .trailer cut
  · obtain ⟨cut, rfl⟩ := htrailer
    obtain ⟨htotal, hpop, htail⟩ := execTrailer_takesTail h
    exact ⟨by simp [htotal, hpop], fun hne => absurd rfl (hne cut), fun _ _ => ⟨hpop, htail⟩⟩
  · have hne : ∀ cut, i ≠ .trailer cut := fun cut hc => htrailer ⟨cut, hc⟩
    obtain ⟨htotal, hwin⟩ := exec_takesFront hn hi hreset hne h
    exact ⟨htotal, fun _ => hwin, fun cut hc => absurd hc (hne cut)⟩

end Sys2Proof.Machine
end

section
/-! SUPPORT. What the registers read (10_state.md R33–R61): STATUS bit by bit, the halves of a quantity of 64 bits, and the
packed words in numbers. -/

namespace Sys2Proof.Machine

/-! ### STATUS -/

theorem full_eq_decide (s : State) : full s = decide (s.win.length = s.cfg.winCap) := by
  rw [Bool.eq_iff_iff]; simp [full]

theorem empty_eq_decide (s : State) : empty s = decide (s.win.length = 0) := by
  rw [Bool.eq_iff_iff]; simp [empty]

theorem skipActive_eq_decide (s : State) : skipActive s = decide (s.id3.skipRemain ≠ 0#28) := by
  rw [Bool.eq_iff_iff]; simp [skipActive]

theorem errAny_eq_decide (s : State) : errAny s = decide (s.err ≠ 0#6) := by
  rw [Bool.eq_iff_iff]; simp [errAny]

theorem statusWord_res (s : State) : (statusWord s).extractLsb' 4 4 = s.res := by
  apply BitVec.eq_of_getLsbD_eq
  intro i hi
  simp only [BitVec.getLsbD_extractLsb', statusWord, BitVec.getLsbD_append]
  simp [hi]

theorem statusWord_reserved (s : State) : (statusWord s).extractLsb' 13 19 = 0#19 := by
  apply BitVec.eq_of_getLsbD_eq
  intro i hi
  simp only [BitVec.getLsbD_extractLsb', statusWord, BitVec.getLsbD_append]
  repeat rw [if_neg (by omega)]
  simp

/-- Settles O15: each field of STATUS at its place. -/
theorem statusBits : Obligations.StatusBits := by
  intro s
  rw [readReg, ← full_eq_decide, ← empty_eq_decide, ← skipActive_eq_decide, ← errAny_eq_decide]
  refine ⟨?_, ?_, ?_, ?_, statusWord_res s, ?_, ?_, ?_, ?_, ?_, statusWord_reserved s⟩
  all_goals
    simp only [statusWord, BitVec.getLsbD_append]
    simp

/-! ### The other registers -/

/-- Two fields side by side, in numbers. -/
theorem toNat_append_eq {m n : Nat} (x : BitVec m) (y : BitVec n) : (x ++ y).toNat = x.toNat * 2 ^ n + y.toNat := by
  rw [BitVec.toNat_append, ← Nat.shiftLeft_add_eq_or_of_lt y.isLt, Nat.shiftLeft_eq]

theorem winRdata_inside {s : State} {b : Byte} (h : s.win[s.winRaddr.toNat]? = some b) :
    (winRdata s).toNat = b.toNat := by
  obtain ⟨hlt, rfl⟩ := List.getElem?_eq_some_iff.1 h
  rw [winRdata, if_pos hlt, byteAt_of_lt hlt, BitVec.toNat_setWidth_of_le (by decide)]

theorem winRdata_past {s : State} (h : s.win.length ≤ s.winRaddr.toNat) : winRdata s = 0#32 := if_neg (by omega)

/-- A count below 2^24 is read whole from a 24-bit field. -/
theorem count_toNat {n : Nat} (h : n < 16777216) : ((BitVec.ofNat 24 n).setWidth 32).toNat = n := by
  simp; omega

/-- Settles O16: whole words by definition, narrower fields zero-extended, the packed words by their fields' places. -/
theorem registerViews : Obligations.RegisterViews := by
  intro s
  refine ⟨rfl, rfl, rfl, rfl, rfl, rfl, rfl, ?ctrl, ?_, ?_, ?_, ?_, ?_, ?_, ?_, ?_, ?_, ?_, ?_, count_toNat, count_toNat,
    fun _ => winRdata_inside, winRdata_past, BitVec.extractLsb'_append_extractLsb', BitVec.extractLsb'_append_extractLsb',
    BitVec.extractLsb'_append_extractLsb', ?hdrLen, ?id3Hdr, ?trlInfo⟩
  case ctrl => rw [readReg, BitVec.toNat_setWidth_of_le (by decide), BitVec.toNat_ofBool]
  case hdrLen => exact toNat_append_eq _ _
  case id3Hdr => simp only [readReg, id3HdrWord, toNat_append_eq, BitVec.toNat_ofNat]; omega
  case trlInfo => simp only [readReg, trlInfoWord, toNat_append_eq, BitVec.toNat_ofNat, BitVec.toNat_ofBool]; omega
  all_goals exact BitVec.toNat_setWidth_of_le (by decide)

end Sys2Proof.Machine
end

section
/-! SUPPORT. What a bus operation can change (20_memory.md R71, R84), that every one but PUSH and ISSUE is idempotent (R81), and
that a step runs the instruction its event decodes to (R82–R84). -/

namespace Sys2Proof.Machine

/-! ### A gated write's two answers -/

/-- What holds of the busy error and of the effect, holds of a gated write's answer. -/
theorem busyGated_induct {P : State → Prop} {f : State → State} {s t : State} (h : busyGated f s = .next t)
    (busy : s.busy = true → P (raise .busyWr s)) (idle : s.busy = false → P (f s)) : P t := by
  rcases busyGated_cases h with ⟨hb, rfl⟩ | ⟨hb, rfl⟩
  · exact busy hb
  · exact idle hb

/-! ### What a bus operation leaves unchanged -/

/-- Only the host's side of the state, the window and the command latch differ: every result register but `res` stays. -/
def KeepsResults (s t : State) : Prop :=
  t = { s with rdata := t.rdata, win := t.win, eof := t.eof, busy := t.busy, pending := t.pending, res := t.res,
               err := t.err, cmdLast := t.cmdLast, hdrIn := t.hdrIn, hdrIn2 := t.hdrIn2, winRaddr := t.winRaddr }

theorem raise_keepsResults (b : ErrBit) (s : State) : KeepsResults s (raise b s) := rfl

theorem pushEffect_keepsResults (d : Word) (s : State) : KeepsResults s (pushEffect d s) := by
  rcases pushEffect_cases d s with ⟨_, he⟩ | ⟨_, _, he⟩ | ⟨_, _, he⟩ <;> rw [he] <;> rfl

theorem setEofEffect_keepsResults (d : Word) (s : State) : KeepsResults s (setEofEffect d s) := by
  rcases setEofEffect_cases d s with ⟨_, he⟩ | ⟨_, he⟩ <;> rw [he] <;> rfl

theorem issueEffect_keepsResults (d : Word) (s : State) : KeepsResults s (issueEffect d s) := by
  rcases issueEffect_cases d s with ⟨_, he⟩ | ⟨_, he⟩ <;> rw [he] <;> rfl

theorem setHdrEffect_keepsResults (d : Word) (s : State) : KeepsResults s (setHdrEffect d s) := rfl

theorem setHdr2Effect_keepsResults (d : Word) (s : State) : KeepsResults s (setHdr2Effect d s) := rfl

theorem busyGated_keepsResults {f : State → State} {s t : State} (hf : KeepsResults s (f s))
    (h : busyGated f s = .next t) : KeepsResults s t :=
  busyGated_induct h (fun _ => raise_keepsResults _ s) fun _ => hf

theorem exec_bus_keepsResults {i : Instr} {s t : State} (hi : i.isCommand = false) (h : exec i s = .next t) :
    KeepsResults s t := by
  cases i with
  | push d => exact busyGated_keepsResults (pushEffect_keepsResults d s) h
  | setEof d => exact busyGated_keepsResults (setEofEffect_keepsResults d s) h
  | issue d => exact busyGated_keepsResults (issueEffect_keepsResults d s) h
  | setHdr d => exact busyGated_keepsResults (setHdrEffect_keepsResults d s) h
  | setHdr2 d => exact busyGated_keepsResults (setHdr2Effect_keepsResults d s) h
  | clearErr d | setRaddr d | peek => cases h; rfl
  | read off => rcases execRead_cases h with ⟨_, _, rfl⟩ | ⟨_, rfl⟩ <;> rfl
  | nop | reset | decode | compare | id3 | scan _ | trailer _ | consume _ => cases hi

theorem setEofEffect_win (d : Word) (s : State) : (setEofEffect d s).win = s.win := by
  rcases setEofEffect_cases d s with ⟨_, he⟩ | ⟨_, he⟩ <;> simp [he]

theorem issueEffect_win (d : Word) (s : State) : (issueEffect d s).win = s.win := by
  rcases issueEffect_cases d s with ⟨_, he⟩ | ⟨_, he⟩ <;> simp [he]

/-- A gated write whose effect leaves the window leaves it busy or not. -/
theorem busyGated_win {f : State → State} {s t : State} (hf : (f s).win = s.win) (h : busyGated f s = .next t) :
    t.win = s.win :=
  busyGated_induct (P := fun t => t.win = s.win) h (fun _ => rfl) fun _ => hf

theorem exec_bus_win {i : Instr} {s t : State} (hi : i.isCommand = false) (hpush : ∀ d, i ≠ .push d)
    (h : exec i s = .next t) : t.win = s.win := by
  cases i with
  | push d => exact absurd rfl (hpush d)
  | setEof d => exact busyGated_win (setEofEffect_win d s) h
  | issue d => exact busyGated_win (issueEffect_win d s) h
  | setHdr d | setHdr2 d => exact busyGated_win rfl h
  | clearErr d | setRaddr d | peek => cases h; rfl
  | read off => rcases execRead_cases h with ⟨_, _, rfl⟩ | ⟨_, rfl⟩ <;> rfl
  | nop | reset | decode | compare | id3 | scan _ | trailer _ | consume _ => cases hi

/-- Settles O49: the frame of every bus operation, and PUSH as the one that writes the window. -/
theorem busOperationsKeepResults : Obligations.BusOperationsKeepResults :=
  fun _ _ _ hi h => ⟨exec_bus_keepsResults hi h, fun hpush => exec_bus_win hi hpush h⟩

/-! ### Bus operations done again -/

/-- An error bit that is set stays as it is when it is raised again. -/
theorem raise_raise (b : ErrBit) (s : State) : raise b (raise b s) = raise b s := by
  simp [raise, BitVec.or_assoc]

/-- A gated write is idempotent where its effect is and does not write busy. -/
theorem busyGated_again {f : State → State} {s t : State} (hbusy : (f s).busy = s.busy) (hf : f (f s) = f s)
    (h : busyGated f s = .next t) : busyGated f t = .next t := by
  refine busyGated_induct (P := fun t => busyGated f t = .next t) h (fun hb => ?_) (fun hb => ?_)
  · rw [busyGated_busy (by exact hb), raise_raise]
  · rw [busyGated_idle (by rw [hbusy, hb]), hf]

theorem setEofEffect_again (d : Word) (s : State) :
    (setEofEffect d s).busy = s.busy ∧ setEofEffect d (setEofEffect d s) = setEofEffect d s := by
  unfold setEofEffect
  cases d.getLsbD 0 <;> exact ⟨rfl, rfl⟩

/-- No register shows the value read last. -/
theorem readReg_rdata (s : State) (v : Word) (r : Reg) : readReg { s with rdata := v } r = readReg s r := by
  cases r <;> rfl

theorem execRead_again {off : Offset} {s t : State} (h : execRead off s = .next t) : execRead off t = .next t := by
  rcases execRead_cases h with ⟨r, hr, rfl⟩ | ⟨hr, rfl⟩
  · simp [execRead, hr, readReg_rdata]
  · simp [execRead, hr, raise, BitVec.or_assoc]

theorem exec_bus_again {i : Instr} {s t : State} (hi : i.isCommand = false) (hpush : ∀ d, i ≠ .push d)
    (hissue : ∀ d, i ≠ .issue d) (h : exec i s = .next t) : exec i t = .next t := by
  cases i with
  | push d => exact absurd rfl (hpush d)
  | issue d => exact absurd rfl (hissue d)
  | setEof d => exact busyGated_again (setEofEffect_again d s).1 (setEofEffect_again d s).2 h
  | setHdr d | setHdr2 d => exact busyGated_again rfl rfl h
  | clearErr d => cases h; simp [exec, execClearErr, BitVec.and_assoc]
  | setRaddr d | peek => cases h; rfl
  | read off => exact execRead_again h
  | nop | reset | decode | compare | id3 | scan _ | trailer _ | consume _ => cases hi

/-- READ at a register's offset changes the value read and nothing else. -/
theorem execRead_frame {off : Offset} {s t : State} (h : execRead off s = .next t) :
    t = { s with rdata := t.rdata, err := t.err } ∧ ((∃ r : Reg, r.offset = off) → t.err = s.err) := by
  rcases execRead_cases h with ⟨_, _, rfl⟩ | ⟨hnone, rfl⟩
  · exact ⟨rfl, fun _ => rfl⟩
  · refine ⟨rfl, ?_⟩
    rintro ⟨r, rfl⟩
    rw [ofOffset_offset] at hnone
    cases hnone

/-- Settles O17: PEEK by definition, READ by its frame, and each bus operation but PUSH and ISSUE done again. -/
theorem readsHaveNoSideEffect : Obligations.ReadsHaveNoSideEffect :=
  ⟨fun _ _ h => by cases h; rfl, fun _ _ _ h => execRead_frame h,
    fun _ _ _ hi hpush hissue h => exec_bus_again hi hpush hissue h⟩

/-! ### The instruction a step runs -/

theorem runOp_of_decode {o : OpWord} {i : Instr} (h : decode o = .instr i) (s : State) : runOp o s = exec i s := by
  simp [runOp, h]

/-- The engine's turn of a busy block carries out the pending word on the state without the event. -/
theorem step_engine {s : State} (hb : s.busy = true) (rest : List Event) :
    step { s with agenda := .engine :: rest } = runOp (.cmd s.pending) { s with agenda := rest } := by
  simp [step, fetch, Event.fetched, engineTurn, hb]

/-- With no event left a busy block carries out the pending word (log 1). -/
theorem step_no_event {s : State} (hb : s.busy = true) :
    step { s with agenda := [] } = runOp (.cmd s.pending) { s with agenda := [] } := by
  simp [step, fetch, engineTurn, hb]

/-- Settles O55: a write, a read, the engine's turn and no event left, each by the operation its step carries out. -/
theorem stepRunsDecodedInstruction : Obligations.StepRunsDecodedInstruction := by
  intro s rest i
  refine ⟨fun off d h => ?write, fun off h => ?read, fun hb h => ⟨?engine, ?none⟩⟩
  case write => rw [step_write, runOp_of_decode h]
  case read => rw [step_read, runOp_of_decode h]
  case engine => rw [step_engine hb, runOp_of_decode h]
  case none => rw [step_no_event hb, runOp_of_decode h]

end Sys2Proof.Machine
end

section
/-! SUPPORT. A command's completion does not read what the host can still write while the command is pending: ERR, WIN_RADDR
and the value read (20_memory.md R85). -/

namespace Sys2Proof.Machine

/-- The state with what the host can write while busy replaced (40_window_port.md R141, R144, R148–R150). -/
def State.withHost (s : State) (e : BitVec 6) (a : BitVec 24) (v : Word) : State :=
  { s with err := e, winRaddr := a, rdata := v }

/-- The same for a command under way. -/
def Run.withHost (r : Run) (e : BitVec 6) (a : BitVec 24) (v : Word) : Run := { r with st := r.st.withHost e a v }

section
variable (r : Run) (e : BitVec 6) (a : BitVec 24) (v : Word)

@[simp] theorem withHost_id3 : (r.withHost e a v).st.id3 = r.st.id3 := rfl
@[simp] theorem withHost_totalParsed : (r.withHost e a v).st.totalParsed = r.st.totalParsed := rfl
@[simp] theorem withHost_win : (r.withHost e a v).st.win = r.st.win := rfl
@[simp] theorem withHost_eof : (r.withHost e a v).st.eof = r.st.eof := rfl

theorem finish_withHost (c : ResultCode) : (r.withHost e a v).finish c = (r.finish c).withHost e a v := rfl

/-- A refusal adds STATE to whatever ERR the host left. -/
theorem fail_withHost : (r.withHost e a v).fail = r.fail.withHost (e ||| ErrBit.state.mask) a v := rfl

end

/-- The command completes from the state with the host's fields replaced as from the state itself: those fields alone
differ, and the value read is what the host read. -/
def BlindToHost (c : State → Result) (s : State) : Prop :=
  ∀ (u : State) (e : BitVec 6) (a : BitVec 24) (v : Word), c s = .next u →
    ∃ e' a', c (s.withHost e a v) = .next (u.withHost e' a' v)

/-- A completion is blind to the host where its rule is. -/
theorem completion_blind {rule : Run → Run} {s : State}
    (h : ∀ e a v, ∃ e', rule ((Run.start s).withHost e a v) = (rule (Run.start s)).withHost e' a v) :
    BlindToHost (completion rule) s := by
  intro u e a v hu
  obtain ⟨e', he⟩ := h e a v
  cases hu
  exact ⟨e', a, congrArg (Host.Outcome.next ∘ Run.complete) he⟩

/-- A command refused by its state's skip and eof is refused whatever the host writes while it is pending. -/
theorem completion_refused_blind {rule : Run → Run} {s : State}
    (h : ∀ r : Run, r.st.id3 = s.id3 → r.st.eof = s.eof → rule r = r.fail) : BlindToHost (completion rule) s :=
  completion_blind fun e a v => ⟨e ||| ErrBit.state.mask, by rw [h _ rfl rfl, h _ rfl rfl, fail_withHost]⟩

/-! ### The skip step and ID3 -/

section
variable (r : Run) (e : BitVec 6) (a : BitVec 24) (v : Word)

theorem id3SkipStep_withHost : id3SkipStep (r.withHost e a v) = (id3SkipStep r).withHost e a v := by
  rw [id3SkipStep_eq r rfl, id3SkipStep_eq (r.withHost e a v) rfl]
  rfl

theorem id3Detected_withHost : id3Detected (r.withHost e a v) = (id3Detected r).withHost e a v := rfl

theorem id3Absent_withHost : id3Absent (r.withHost e a v) = (id3Absent r).withHost e a v := rfl

/-- ID3's guards read the ID3 registers, TOTAL, the window and eof; only its refusal writes ERR. -/
theorem id3Rule_withHost : ∃ e', id3Rule (r.withHost e a v) = (id3Rule r).withHost e' a v := by
  rcases id3Rule_cases r with
    ⟨hc, hr⟩ | ⟨hc, ht, hr⟩ | ⟨hc, ht, hn, ⟨he, hr⟩ | ⟨he, hr⟩⟩ | ⟨hc, ht, hn, ⟨hg, hr⟩ | ⟨hg, hr⟩⟩ <;> rw [hr]
  · exact ⟨e, by simp [id3Rule, hc, id3SkipStep_withHost]⟩
  · exact ⟨e ||| ErrBit.state.mask, by simp [id3Rule, hc, ht, fail_withHost]⟩
  · exact ⟨e, by simp [id3Rule, hc, ht, id3v2HdrSize, hn, he, id3Absent_withHost, finish_withHost]⟩
  · exact ⟨e, by simp [id3Rule, hc, ht, id3v2HdrSize, hn, he, finish_withHost]⟩
  · exact ⟨e, by simp [id3Rule, hc, ht, id3v2HdrSize, Nat.not_lt.2 hn, hg, id3Detected_withHost, id3SkipStep_withHost]⟩
  · exact ⟨e, by simp [id3Rule, hc, ht, id3v2HdrSize, Nat.not_lt.2 hn, hg, id3Absent_withHost, id3SkipStep_withHost]⟩

end

/-! ### SCAN, TRAILER and CONSUME -/

/-- The search reads the window, eof, WIN_CAP, the parameters and F, none of which the host can write while busy. -/
theorem execScan_blind (hold : Bool) (s : State) : BlindToHost (execScan hold) s := by
  intro u e a v h
  by_cases hk : s.id3.skipRemain = 0#28
  · cases hs : search (viewOf s) s.freeFmt.toNat with
    | found => rw [execScan_found hk hs] at h; cases h; exact ⟨e, a, execScan_found hk hs⟩
    | needMore => rw [execScan_needMore hk hs] at h; cases h; exact ⟨e, a, execScan_needMore hk hs⟩
    | exhausted => rw [execScan_exhausted hk hs] at h; cases h; exact ⟨e, a, execScan_exhausted hk hs⟩
  · exact completion_refused_blind (fun r hid3 _ => scanRule_refused (by rwa [hid3])) u e a v h

theorem execTrailer_blind (cut : Bool) (s : State) : BlindToHost (execTrailer cut) s := by
  intro u e a v h
  by_cases hk : s.eof = false ∨ s.id3.skipRemain ≠ 0#28
  · exact completion_refused_blind (fun r hid3 heof => trailerRule_refused (by rwa [hid3, heof])) u e a v h
  · simp only [not_or, Bool.not_eq_false, not_not] at hk
    obtain ⟨heof, hskip⟩ := hk
    rw [execTrailer_runs heof hskip] at h
    cases h
    exact ⟨e, a, execTrailer_runs heof hskip⟩

theorem execConsume_blind (cnt : BitVec 24) (s : State) : BlindToHost (execConsume cnt) s := by
  by_cases hk : s.id3.skipRemain = 0#28
  · refine completion_blind fun e a v => ⟨e, ?_⟩
    rw [consumeRule_runs (by exact hk), consumeRule_runs (by exact hk)]
    rfl
  · exact completion_refused_blind fun r hid3 _ => consumeRule_refused (by rwa [hid3])

/-! ### Every command -/

theorem exec_command_blind {c : Instr} (hc : c.isCommand = true) (s : State) : BlindToHost (exec c) s := by
  cases c with
  | nop | decode | compare => exact completion_blind fun e _ _ => ⟨e, rfl⟩
  | reset => intro u e a v h; cases h; exact ⟨_, _, rfl⟩
  | id3 => exact completion_blind fun e a v => id3Rule_withHost _ e a v
  | scan hold => exact execScan_blind hold s
  | trailer cut => exact execTrailer_blind cut s
  | consume cnt => exact execConsume_blind cnt s
  | push _ | setEof _ | clearErr _ | issue _ | setHdr _ | setHdr2 _ | setRaddr _ | peek | read _ => cases hc

/-- Settles O51: a bus operation on a busy block writes the host's fields only, to which every command is blind. -/
theorem completionIgnoresHostAccesses : Obligations.CompletionIgnoresHostAccesses := by
  intro s t u i c hb hpending hi ht hu
  obtain ⟨e, a, v, rfl⟩ := exec_bus_busy hb hi ht
  obtain ⟨e', a', hv⟩ := exec_command_blind (decodeCmd_isCommand hpending) s u e a v hu
  exact ⟨hb, rfl, _, hv, rfl⟩

end Sys2Proof.Machine
end

section
/-! SUPPORT. The decoder and the encoder, each the other's inverse (30_encoding.md R100–R105, R117), and the legal command
words. -/

namespace Sys2Proof.Machine

/-! ### Arguments -/

/-- The ARG of a command whose argument is one bit (30_encoding.md R102). -/
def flagArg (b : Bool) : BitVec 24 := (BitVec.ofBool b).setWidth 24

theorem withoutArg_eq_instr {arg : BitVec 24} {i j : Instr} (h : withoutArg arg i = .instr j) : arg = 0#24 ∧ i = j := by
  unfold withoutArg at h
  split at h
  · exact ⟨‹_›, Decoded.instr.inj h⟩
  · cases h

theorem withFlagArg_eq_instr {arg : BitVec 24} {f : Bool → Instr} {j : Instr} (h : withFlagArg arg f = .instr j) :
    ∃ b, arg = flagArg b ∧ f b = j := by
  unfold withFlagArg at h
  split at h
  · exact ⟨_, (flagArg_eq ‹_›).symm, Decoded.instr.inj h⟩
  · cases h

/-! ### Decode of encode -/

/-- READ decodes at every offset but PEEK's (40_window_port.md R149, R150). -/
theorem decodeRead_eq_read_iff (off : Offset) : decodeRead off = .instr (.read off) ↔ (Instr.read off).wf = true := by
  by_cases h : off = 0x024#12 <;> simp [decodeRead, Instr.wf, Reg.offset, h]

/-- An instruction survives encoding and decoding exactly where it is well-formed. -/
theorem decode_encode_iff (i : Instr) : decode (encode i) = .instr i ↔ i.wf = true := by
  cases i with
  | nop | reset | decode | compare | id3 | peek => exact iff_of_true rfl rfl
  | scan b | trailer b => exact iff_of_true (by cases b <;> rfl) rfl
  | consume cnt => exact iff_of_true (by simp [encode, decode, decodeCmd]) rfl
  | push _ | setEof _ | clearErr _ | issue _ | setHdr _ | setHdr2 _ | setRaddr _ =>
    exact iff_of_true (by simp only [encode, decode, decodeWrite, ofOffset_offset]) rfl
  | read off => exact decodeRead_eq_read_iff off

/-- Settles O52: constructor by constructor, as `decode_encode_iff` has it. -/
theorem decodeOfEncode : Obligations.DecodeOfEncode := fun i => (decode_encode_iff i).2

/-! ### Encode of decode -/

theorem encode_of_decodeCmd {w : Word} {i : Instr} (h : decodeCmd w = .instr i) : encode i = .cmd w := by
  obtain ⟨op, arg, rfl⟩ : ∃ op arg, w = cmdWord op arg := ⟨_, _, (cmdWord_fields w).symm⟩
  have bare {c : Instr} (h : withoutArg arg c = .instr i) (hc : encode c = .cmd (cmdWord op 0#24)) :
      encode i = .cmd (cmdWord op arg) := by
    obtain ⟨rfl, rfl⟩ := withoutArg_eq_instr h; exact hc
  have flag {f : Bool → Instr} (h : withFlagArg arg f = .instr i) (hf : ∀ b, encode (f b) = .cmd (cmdWord op (flagArg b))) :
      encode i = .cmd (cmdWord op arg) := by
    obtain ⟨b, rfl, rfl⟩ := withFlagArg_eq_instr h; exact hf b
  simp only [decodeCmd, opField_cmdWord, argField_cmdWord] at h
  iterate 5
    split at h
    · subst op; exact bare h rfl
  iterate 2
    split at h
    · subst op; exact flag h fun _ => rfl
  split at h
  · subst op; cases h; rfl
  · cases h

theorem encode_of_decodeWrite {off : Offset} {d : Word} {i : Instr} (h : decodeWrite off d = .instr i) :
    encode i = .wr off d := by
  cases hr : Reg.ofOffset off with
  | none => simp only [decodeWrite, hr] at h; split at h <;> cases h
  | some r =>
    simp only [decodeWrite, hr] at h
    rw [← ofOffset_eq_some hr]
    cases r <;> cases h <;> rfl

theorem encode_of_decodeRead {off : Offset} {i : Instr} (h : decodeRead off = .instr i) : encode i = .rd off := by
  unfold decodeRead at h
  split at h
  · subst off; cases h; rfl
  · cases h; rfl

theorem encode_of_decode {o : OpWord} {i : Instr} (h : decode o = .instr i) : encode i = o := by
  cases o with
  | cmd w => exact encode_of_decodeCmd h
  | wr off d => exact encode_of_decodeWrite h
  | rd off => exact encode_of_decodeRead h

/-- Settles O53: what decodes is the encoding, and an instruction that its encoding decodes to is well-formed. -/
theorem encodeOfDecode : Obligations.EncodeOfDecode := by
  intro o i h
  obtain rfl := encode_of_decode h
  exact ⟨rfl, (decode_encode_iff i).1 h⟩

/-! ### The legal command words -/

/-- A word is legal exactly where it is a command's encoding. -/
theorem decodeCmd_eq_instr_iff {w : Word} {i : Instr} : decodeCmd w = .instr i ↔ encode i = .cmd w := by
  refine ⟨encode_of_decodeCmd, fun h => ?_⟩
  have hwf : i.wf = true := by
    cases i with
    | read => cases h
    | _ => rfl
  have := decodeOfEncode i hwf
  rwa [h] at this

theorem cmdWord_toNat (op : BitVec 8) (arg : BitVec 24) : (cmdWord op arg).toNat = arg.toNat * 256 + op.toNat := by
  have hop := opField_toNat (cmdWord op arg)
  have harg := argField_toNat (cmdWord op arg)
  rw [opField_cmdWord] at hop
  rw [argField_cmdWord] at harg
  omega

/-- Settles O8: the legal words are the commands' encodings, and these are the listed numbers. -/
theorem legalCommandWords : Obligations.LegalCommandWords := by
  intro w
  simp only [decodeCmd_eq_instr_iff]
  constructor
  · rintro ⟨i, hi⟩
    cases i with
    | nop | reset | decode | compare | id3 => cases hi; decide
    | scan b | trailer b => cases hi; cases b <;> decide
    | consume cnt => cases hi; simp [cmdWord_toNat]
    | push _ | setEof _ | clearErr _ | issue _ | setHdr _ | setHdr2 _ | setRaddr _ | peek | read _ => cases hi
  · have word {n : Nat} {i : Instr} (h : w.toNat = n) (hi : encode i = .cmd (BitVec.ofNat 32 n)) :
        ∃ i, encode i = .cmd w := ⟨i, by rw [hi, ← h, BitVec.ofNat_toNat, BitVec.setWidth_eq]⟩
    rintro (h | h | h | h)
    · have : w.toNat = 0 ∨ w.toNat = 1 ∨ w.toNat = 2 ∨ w.toNat = 3 ∨ w.toNat = 4 ∨ w.toNat = 5 ∨ w.toNat = 6 := by omega
      rcases this with h | h | h | h | h | h | h
      · exact word (i := .nop) h rfl
      · exact word (i := .reset) h rfl
      · exact word (i := .decode) h rfl
      · exact word (i := .compare) h rfl
      · exact word (i := .id3) h rfl
      · exact word (i := .scan false) h rfl
      · exact word (i := .trailer false) h rfl
    · exact word (i := .scan true) h rfl
    · exact word (i := .trailer true) h rfl
    · have hop : opField w = 0x07#8 := (opField_eq_iff w _).2 h
      exact ⟨.consume (argField w), by rw [encode, ← hop, cmdWord_fields]⟩

/-- Settles O54: one closed word after the other, by evaluation of the decoder. -/
theorem writtenWordsDecode : Obligations.WrittenWordsDecode := by
  unfold Obligations.WrittenWordsDecode
  decide

end Sys2Proof.Machine
end

section
/-! SUPPORT. The multi-byte reads of the window in numbers (20_memory.md R75, R77, 30_encoding.md R113). -/

namespace Sys2Proof.Machine

/-- Appending is place value. -/
theorem toNat_append_eq_mul_add {m n : Nat} (x : BitVec m) (y : BitVec n) :
    (x ++ y).toNat = x.toNat * 2 ^ n + y.toNat := by
  rw [BitVec.toNat_append, ← Nat.shiftLeft_add_eq_or_of_lt y.isLt, Nat.shiftLeft_eq]

theorem low7_toNat (b : Byte) : (low7 b).toNat = b.toNat % 128 := by
  simp [low7, BitVec.extractLsb'_toNat]

theorem synchsafe_toNat (a b c d : Byte) : (synchsafe a b c d).toNat =
    a.toNat % 128 * 2097152 + b.toNat % 128 * 16384 + c.toNat % 128 * 128 + d.toNat % 128 := by
  simp only [synchsafe, toNat_append_eq_mul_add, low7_toNat]
  omega

/-- A header word in the window is its four bytes, the first most significant. -/
theorem hdr_toNat {w : List Byte} {j : Nat} (h : j + 4 ≤ w.length) : (hdr w j).toNat =
    (byteAt w j).toNat * 16777216 + (byteAt w (j + 1)).toNat * 65536 + (byteAt w (j + 2)).toNat * 256 +
      (byteAt w (j + 3)).toNat := by
  simp only [hdr, memRead, hdrSize, slice_four h, bigEndian, List.foldl_cons, List.foldl_nil, BitVec.toNat_ofNat]
  omega

/-- LE32 of four bytes in the window, the first least significant. -/
theorem le32_eq {w : List Byte} {j : Nat} (h : j + 4 ≤ w.length) : le32 w j =
    (byteAt w j).toNat + (byteAt w (j + 1)).toNat * 256 + (byteAt w (j + 2)).toNat * 65536 +
      (byteAt w (j + 3)).toNat * 16777216 := by
  simp only [le32, slice_four h, littleEndian, List.foldr_cons, List.foldr_nil]
  omega

/-- Settles O24: the synchsafe size, the header word and LE32, each by its place values. -/
theorem multiByteReads : Obligations.MultiByteReads :=
  ⟨synchsafe_toNat, fun _ _ h => ⟨hdr_toNat h, le32_eq h⟩⟩

end Sys2Proof.Machine
end

section
/-! SUPPORT. The window port (40_window_port.md R141–R151): what each bus write does while busy and while idle, what PEEK and
READ return, and what CONSUME pops. -/

namespace Sys2Proof.Machine

/-! ### The gated writes -/

/-- A busy-gated write on a busy block sets BUSY_WR and nothing else (40_window_port.md R141). -/
theorem exec_gated_busy {s : State} {d : Word} {i : Instr} (hb : s.busy = true)
    (hi : i ∈ [Instr.issue d, .push d, .setEof d, .setHdr d, .setHdr2 d]) :
    exec i s = .next { s with err := s.err ||| 0b000100#6 } := by
  simp only [List.mem_cons, List.not_mem_nil, or_false] at hi
  rcases hi with rfl | rfl | rfl | rfl | rfl <;> exact busyGated_busy hb

theorem pushEffect_eof {s : State} (d : Word) (he : s.eof = true) : pushEffect d s = raise .pushEof s := if_pos he

theorem pushEffect_full {s : State} (d : Word) (he : s.eof = false) (hn : s.win.length = s.cfg.winCap) :
    pushEffect d s = raise .ovf s := by
  rw [pushEffect, he, if_neg Bool.false_ne_true, if_pos hn]

theorem pushEffect_stores {s : State} (d : Word) (he : s.eof = false) (hn : s.win.length ≠ s.cfg.winCap) :
    pushEffect d s = push (d.extractLsb' 0 8) s := by
  rw [pushEffect, he, if_neg Bool.false_ne_true, if_neg hn]

theorem byteAt_append_length (w : List Byte) (b : Byte) : byteAt (w ++ [b]) w.length = b := by
  simp [byteAt]

/-- A byte stored at the window's end shows at no other offset, the offsets past the end included. -/
theorem byteAt_append_of_ne (w : List Byte) (b : Byte) {j : Nat} (hj : j ≠ w.length) :
    byteAt (w ++ [b]) j = byteAt w j := by
  rcases Nat.lt_or_gt_of_ne hj with hlt | hgt
  · exact byteAt_append_left [b] hlt
  · rw [byteAt_of_le (by simpa using hgt), byteAt_of_le hgt.le]

/-- Settles O5: the busy error, and the three branches of PUSH's effect in their order. -/
theorem pushStoresByteOrFlags : Obligations.PushStoresByteOrFlags := by
  refine fun s d => ⟨fun hb => busyGated_busy hb, fun hb he => ?eof, fun hb he hn => ?full, fun hb he hn => ?stored⟩
  all_goals rw [exec, execPush, busyGated_idle hb]
  case eof => rw [pushEffect_eof d he]; rfl
  case full => rw [pushEffect_full d he hn]; rfl
  case stored =>
    rw [pushEffect_stores d he hn]
    exact ⟨_, rfl, rfl, List.length_append, byteAt_append_length _ _, fun j hj => byteAt_append_of_ne _ _ hj⟩

/-- SET_EOF looks at d[0] alone, which is the parity of d (40_window_port.md R143). -/
theorem setEofEffect_eq_parity (d : Word) (s : State) :
    setEofEffect d s = if d.toNat % 2 = 1 then { s with eof := true } else s := by
  rw [setEofEffect, BitVec.getLsbD, Nat.testBit_zero]
  simp only [decide_eq_true_eq]

/-- Settles O6: the busy error, and SET_EOF's effect for an odd and for an even word. -/
theorem setEofOnlySets : Obligations.SetEofOnlySets := by
  refine fun s d => ⟨fun hb => busyGated_busy hb, fun hb hd => ?odd, fun hb hd => ?even⟩
  all_goals rw [exec, execSetEof, busyGated_idle hb, setEofEffect_eq_parity, hd]
  case odd => rw [if_pos rfl]
  case even => rw [if_neg Nat.zero_ne_one]

/-- Settles O10: the two stores are gated, and their effect takes every word. -/
theorem setHdrStoresWord : Obligations.SetHdrStoresWord :=
  fun _ _ => ⟨fun hb => ⟨busyGated_busy hb, busyGated_busy hb⟩, fun hb => ⟨busyGated_idle hb, busyGated_idle hb⟩⟩

/-! ### The writes allowed while busy -/

/-- Settles O7: each bit of err is kept where its bit of the written word is 0. -/
theorem clearErrClearsWrittenOnes : Obligations.ClearErrClearsWrittenOnes := by
  refine fun s d => ⟨_, rfl, rfl, fun b hb => ?_⟩
  simp [hb]

/-- Settles O11: the low 24 bits of a word are its value modulo 2^24. -/
theorem setRaddrStoresLow24 : Obligations.SetRaddrStoresLow24 := by
  refine fun s d => ⟨_, rfl, rfl, ?_, rfl⟩
  rw [BitVec.extractLsb'_toNat, Nat.shiftRight_zero]

/-! ### The reads -/

/-- Settles O13: PEEK reads WIN_RDATA, inside the window and past its end. -/
theorem peekReturnsWindowByte : Obligations.PeekReturnsWindowByte :=
  fun _ => ⟨_, rfl, rfl, fun _ => winRdata_inside, winRdata_past⟩

/-- Settles O14: every register is found at its offset, and none at an error offset. -/
theorem readReturnsRegister : Obligations.ReadReturnsRegister :=
  ⟨execRead_register, fun s _ h => execRead_unmapped s h⟩

/-- STATUS alone shows whether the block is busy (10_state.md R35). -/
theorem readReg_busy (s : State) (b : Bool) {r : Reg} (hr : r ≠ .status) : readReg { s with busy := b } r = readReg s r := by
  cases r with
  | status => exact absurd rfl hr
  | _ => rfl

/-- A read on a block made idle differs from the read on the block itself in busy, and at STATUS in the value. -/
theorem execRead_busy {s t : State} {off : Offset} (h : execRead off { s with busy := false } = .next t) :
    ∃ u, execRead off s = .next u ∧ u = { t with busy := s.busy, rdata := u.rdata } ∧
      (off ≠ Reg.status.offset → u.rdata = t.rdata) := by
  rcases execRead_cases h with ⟨r, hr, rfl⟩ | ⟨hr, rfl⟩
  · obtain rfl := ofOffset_eq_some hr
    refine ⟨_, execRead_register s r, rfl, fun hoff => ?_⟩
    exact (readReg_busy s false (by rintro rfl; exact hoff rfl)).symm
  · exact ⟨{ raise .badAddr s with rdata := 0#32 }, by rw [execRead, hr], rfl, fun _ => rfl⟩

/-- Settles O12: the five gated writes, the two that do not look at busy, and the reads, of which STATUS alone shows it. -/
theorem busyGatesHostWrites : Obligations.BusyGatesHostWrites := by
  refine fun s d off hb => ⟨fun i => exec_gated_busy hb, fun i hi => ?ungated, fun i hi t h => ?reads⟩
  all_goals simp only [List.mem_cons, List.not_mem_nil, or_false] at hi
  case ungated => rcases hi with rfl | rfl <;> exact ⟨_, rfl, by rw [← hb]; rfl⟩
  case reads =>
    rw [← hb]
    rcases hi with rfl | rfl
    · cases h; exact ⟨_, rfl, rfl, fun _ => rfl⟩
    · obtain ⟨u, hu, hframe, hvalue⟩ := execRead_busy h
      exact ⟨u, hu, hframe, fun hne => hvalue (by rintro rfl; exact hne rfl)⟩

/-! ### CONSUME -/

theorem execConsume_refused {s : State} (cnt : BitVec 24) (h : s.id3.skipRemain ≠ 0#28) :
    execConsume cnt s = .next (refusedState s) := by
  rw [execConsume, completion, consumeRule_refused (by exact h), complete_fail]

theorem execConsume_pops {s : State} (cnt : BitVec 24) (h : s.id3.skipRemain = 0#28) :
    execConsume cnt s =
      .next (((Run.start s).pop (min cnt.toNat s.win.length)).finish .done).complete := by
  rw [execConsume, completion, consumeRule_runs (by exact h), start_st]

/-- Settles O25: the refusal amid a skip, and the clamped pop, which moves every byte down by what it pops. -/
theorem consumePopsClamped : Obligations.ConsumePopsClamped := by
  refine fun s cnt => ⟨fun h => execConsume_refused cnt h, fun h => ?_⟩
  refine ⟨_, _, rfl, execConsume_pops cnt h, ?frame, List.length_drop, fun j => ?moved⟩
  case frame => simp [Run.start, Run.pop, Run.finish, Run.complete, ResultCode.code]
  case moved =>
    rw [Nat.add_comm j]
    exact byteAt_drop _ _ _

end Sys2Proof.Machine
end

section
/-! SUPPORT. The ID3v2 skipper and the trailer measurer (41_id3_skipper.md R181–R187): ID3 by what its skip step begins with,
TRAILER by what stands at the window's end. -/

namespace Sys2Proof.Machine

/-! ### ID3 -/

/-- Where ID3 reaches its skip step, the run it begins with has the ID3 registers `d` and `a` bytes popped. -/
theorem id3Rule_of_begins {s : State} {d : Id3Regs} {a : Nat} (hd : Id3Begins s d a) (ha : a ≤ s.win.length) :
    id3Rule (Run.start s) = id3SkipStep
      { st := { s with id3 := d, win := s.win.drop a, totalParsed := s.totalParsed + BitVec.ofNat 64 a }
        popped := a } := by
  rcases hd with ⟨hc, rfl, rfl⟩ | ⟨hc, ht, rfl, htag, rfl⟩ | ⟨hc, ht, rfl, hn, htag, rfl⟩
  · simp [id3Rule, Run.start, hc]
  · simp [id3Rule, Run.start, hc, ht, htag, id3v2HdrSize, id3Detected, Run.pop, ha]
  · simp [id3Rule, Run.start, hc, ht, htag, id3v2HdrSize, id3Absent, hn]

/-- ID3 where it reaches its skip step: k = min(n, skip_remain) more bytes are popped, n counting what is left after the
header (41_id3_skipper.md R183). -/
theorem execId3_skips {s : State} {d : Id3Regs} {a k : Nat} (hd : Id3Begins s d a) (ha : a ≤ s.win.length)
    (hk : k = min (s.win.length - a) d.skipRemain.toNat) :
    execId3 s = .next { s with
      id3 := { d with skipRemain := BitVec.ofNat 28 (d.skipRemain.toNat - k) }
      win := s.win.drop (a + k)
      totalParsed := s.totalParsed + BitVec.ofNat 64 (a + k)
      res := if k = d.skipRemain.toNat then 1#4 else 2#4
      popCount := BitVec.ofNat 24 (a + k)
      busy := false } := by
  rw [execId3, completion, id3Rule_of_begins hd ha, id3SkipStep_eq _ (k := k) (by rw [hk, List.length_drop])]
  simp [Run.complete, BitVec.ofNat_add, BitVec.add_assoc]

/-- Settles O28: once detection has run, the skip step begins with the registers as they are. -/
theorem id3ContinuesBodySkip : Obligations.Id3ContinuesBodySkip := by
  intro s k hc hk
  rw [exec, execId3_skips (.inl ⟨hc, rfl, rfl⟩) (Nat.zero_le _) hk, Nat.zero_add]

/-- A header that begins with ID3, a legal version and a size not 0 is a tag (41_id3_skipper.md R181). -/
theorem id3Tag_of_header {v r f b6 b7 b8 b9 : Byte} (body : List Byte) (hv : v = 2#8 ∨ v = 3#8 ∨ v = 4#8)
    (hS : synchsafe b6 b7 b8 b9 ≠ 0#28) :
    id3Tag ([0x49#8, 0x44#8, 0x33#8, v, r, f, b6, b7, b8, b9] ++ body) = true := by
  simp only [id3Tag, Bool.and_eq_true, bne_iff_ne]
  refine ⟨⟨rfl, ?_⟩, hS⟩
  rcases hv with rfl | rfl | rfl <;> rfl

/-- Settles O26: a tag's header is the beginning of the skip, its body the skip. -/
theorem id3DetectsAndSkipsTag : Obligations.Id3DetectsAndSkipsTag := by
  intro s v r f b6 b7 b8 b9 body S k hc ht hw hv hS hS0 hk
  have hsize : (synchsafe b6 b7 b8 b9).toNat = S := by rw [synchsafe_toNat, hS]
  have hsizeWord : synchsafe b6 b7 b8 b9 = BitVec.ofNat 28 S := by rw [← hsize, BitVec.ofNat_toNat, BitVec.setWidth_eq]
  have htag : id3Tag s.win = true := by
    rw [hw]
    exact id3Tag_of_header body hv (fun h => hS0 (by rw [← hsize, h]; rfl))
  have hlen : s.win.length = body.length + 10 := by rw [hw]; rfl
  rw [exec, execId3_skips (k := k) (.inr (.inl ⟨hc, ht, rfl, htag, rfl⟩)) (by omega)]
  all_goals rw [show id3TagSize s.win = synchsafe b6 b7 b8 b9 by rw [hw]; rfl, hsize]
  · rw [hsizeWord, ht, BitVec.zero_add, ← List.drop_drop, hw]
    rfl
  · rw [hlen, hk, Nat.add_sub_cancel]

/-- Ten bytes are no tag that lack the letters or a legal version, or whose size bytes are all 0 but for their top bits
(41_id3_skipper.md R181). -/
theorem id3Tag_eq_false {w : List Byte}
    (h : w.take 3 ≠ id3Magic ∨ (byteAt w 3 ≠ 2#8 ∧ byteAt w 3 ≠ 3#8 ∧ byteAt w 3 ≠ 4#8) ∨
      (∀ j, 6 ≤ j → j ≤ 9 → (byteAt w j).toNat % 128 = 0)) : id3Tag w = false := by
  rw [Bool.eq_false_iff]
  intro htag
  simp only [id3Tag, id3Version, Bool.and_eq_true, Bool.or_eq_true, beq_iff_eq, bne_iff_ne] at htag
  obtain ⟨⟨hmagic, hver⟩, hsize⟩ := htag
  rcases h with h | ⟨h2, h3, h4⟩ | h
  · exact h hmagic
  · simp [h2, h3, h4] at hver
  · refine hsize (BitVec.eq_of_toNat_eq ?_)
    rw [id3TagSize, synchsafe_toNat, h 6 (by decide) (by decide), h 7 (by decide) (by decide), h 8 (by decide) (by decide),
      h 9 (by decide) (by decide)]
    rfl

/-- A stream that ends before a header could stand in it has no tag (41_id3_skipper.md R182). -/
theorem id3Rule_ended {r : Run} (hc : r.st.id3.checked = false) (ht : r.st.totalParsed = 0#64)
    (hn : r.st.win.length < 10) (he : r.st.eof = true) : id3Rule r = (id3Absent r).finish .done := by
  simp [id3Rule, id3v2HdrSize, hc, ht, hn, he]

/-- A window too short for a header decides nothing while more bytes can come (41_id3_skipper.md R182). -/
theorem id3Rule_undecided {r : Run} (hc : r.st.id3.checked = false) (ht : r.st.totalParsed = 0#64)
    (hn : r.st.win.length < 10) (he : r.st.eof = false) : id3Rule r = r.finish .needMore := by
  simp [id3Rule, id3v2HdrSize, hc, ht, hn, he]

/-- Settles O27: no tag begins a skip of no bytes; a window too short for a header is decided by eof. -/
theorem id3WithoutTagPopsNothing : Obligations.Id3WithoutTagPopsNothing := by
  refine fun s hc ht hk => ⟨fun hn h => ?untagged, fun hn he => ?ended, fun hn he => ?undecided⟩
  case untagged =>
    rw [exec, execId3_skips (k := 0) (.inr (.inr ⟨hc, ht, rfl, hn, id3Tag_eq_false h, rfl⟩)) (Nat.zero_le _) (by simp [hk])]
    simp [hk]
  case ended => rw [exec, execId3, completion, id3Rule_ended hc ht hn he]; rfl
  case undecided => rw [exec, execId3, completion, id3Rule_undecided hc ht hn he]; rfl

/-- Where a skip was active or a tag is found, the skip step has bytes to skip. -/
theorem Id3Begins.skipRemain_ne_zero {s : State} {d : Id3Regs} {a : Nat} (hd : Id3Begins s d a)
    (hskip : s.id3.skipRemain ≠ 0#28 ∨ (s.id3.checked = false ∧ d.present = true)) : d.skipRemain ≠ 0#28 := by
  rcases hd with ⟨hc, _, rfl⟩ | ⟨_, _, _, htag, rfl⟩ | ⟨hc, _, _, _, _, rfl⟩
  · rcases hskip with hs | ⟨hu, _⟩
    · exact hs
    · rw [hc] at hu; cases hu
  · simp only [id3Tag, Bool.and_eq_true, bne_iff_ne] at htag
    exact htag.2
  · rcases hskip with hs | ⟨_, hp⟩
    · exact hs
    · cases hp

/-- Settles O29: DONE says that the skip step popped all there was to skip, and every skipped byte was counted. -/
theorem skipEndsAtTenPlusSize : Obligations.SkipEndsAtTenPlusSize := by
  intro s t h he hres hskip
  rcases execId3_cases he with
    ⟨_, _, rfl⟩ | ⟨_, _, _, _, rfl⟩ | ⟨hc, _, _, _, rfl⟩ | ⟨d, a, k, hk, _, hd, rfl⟩
  · cases hres
  · cases hres
  · rcases hskip with hs | ⟨_, hp⟩
    · exact absurd (h.idle_of_unchecked hc) hs
    · cases hp
  · have hall : k = d.skipRemain.toNat := by
      by_contra hne
      simp [hne] at hres
    obtain ⟨_, accounting, _⟩ := hd.invariant h
    have hsum := skip_accounting hall.le (accounting (hd.skipRemain_ne_zero hskip))
    subst hall
    simpa using hsum

/-! ### TRAILER -/

/-- The last k bytes of a window, and what they begin with (41_id3_skipper.md R186). -/
theorem slice_of_tail_iff {w magic : List Byte} {k m : Nat} :
    (k ≤ w.length ∧ slice w (w.length - k) m = magic) ↔
      ∃ pre tail, w = pre ++ tail ∧ tail.length = k ∧ tail.take m = magic := by
  constructor
  · rintro ⟨hk, hmagic⟩
    exact ⟨_, _, (List.take_append_drop (w.length - k) w).symm, by rw [List.length_drop]; omega, hmagic⟩
  · rintro ⟨pre, tail, rfl, rfl, hmagic⟩
    rw [List.length_append, Nat.add_sub_cancel, slice, List.drop_left]
    exact ⟨Nat.le_add_left _ _, hmagic⟩

/-- The block of k bytes that stands before the last l, and what it begins with (41_id3_skipper.md R186). -/
theorem slice_before_tail_iff {w magic : List Byte} {l k m : Nat} (hm : m ≤ k) {P : List Byte → Prop} :
    (∃ pre tail, w = pre ++ tail ∧ tail.length = l ∧ P tail) ∧ l + k ≤ w.length ∧ slice w (w.length - l - k) m = magic ↔
      ∃ pre e tail, w = pre ++ e ++ tail ∧ tail.length = l ∧ P tail ∧ e.length = k ∧ e.take m = magic := by
  constructor
  · rintro ⟨⟨pre, tail, rfl, rfl, hP⟩, hk, hmagic⟩
    rw [List.length_append] at hk
    rw [List.length_append, Nat.add_sub_cancel, slice_append_left _ (by omega)] at hmagic
    obtain ⟨pre', e, rfl, he⟩ := slice_of_tail_iff.1 ⟨by omega, hmagic⟩
    exact ⟨pre', e, tail, rfl, rfl, hP, he⟩
  · rintro ⟨pre, e, tail, rfl, rfl, hP, he⟩
    refine ⟨⟨_, tail, rfl, rfl, hP⟩, ?_⟩
    obtain ⟨hk, hmagic⟩ := slice_of_tail_iff.2 ⟨pre, e, rfl, he⟩
    rw [List.length_append, Nat.add_sub_cancel, slice_append_left _ (by omega)]
    exact ⟨by omega, hmagic⟩

/-- The ID3v1 family from what is found of it: the TAG block, and the TAG+ block before it (41_id3_skipper.md R186). -/
theorem id3v1Length_eq {w : List Byte} {v1 ext : Bool}
    (hv1 : v1 = true ↔ 128 ≤ w.length ∧ slice w (w.length - 128) 3 = tagMagic)
    (hext : ext = true ↔ v1 = true ∧ 128 + 227 ≤ w.length ∧ slice w (w.length - 128 - 227) 4 = tagPlusMagic) :
    id3v1Length w = (v1, ext, if ext then 355 else if v1 then 128 else 0) := by
  unfold id3v1Length
  simp only [← hv1]
  cases v1 with
  | false => simpa using hext
  | true =>
    simp only [true_and] at hext
    simp only [← hext]
    cases ext <;> rfl

/-- The trailer from the ID3v1 family and the APE footer before it (41_id3_skipper.md R186). -/
theorem measureTrailer_eq {cfg : Config} {w : List Byte} {v1 ext ape : Bool} {t : Nat}
    (hid3v1 : id3v1Length w = (v1, ext, t)) (hape : ape = (v1 && apeFooter cfg w t)) :
    measureTrailer cfg w =
      { v1, ext, ape
        len := if ape then t + le32 w (w.length - t - cfg.apeFooterLen + cfg.apeSizeOffset) + cfg.apeHeaderAdjust
          else t } := by
  simp only [measureTrailer, hid3v1, hape]
  cases v1 && apeFooter cfg w t <;> rfl

theorem apeFooter_iff {cfg : Config} {w : List Byte} {t : Nat} : apeFooter cfg w t = true ↔
    ∃ pre tail, w = pre ++ tail ∧ tail.length = t + cfg.apeFooterLen ∧ tail.take 8 = apeMagic := by
  rw [← slice_of_tail_iff, apeFooter, Bool.and_eq_true, decide_eq_true_eq, beq_iff_eq, Nat.sub_sub]

/-- Settles O30: the three flags are what the measurement finds, so its length is the one stated. -/
theorem trailerMeasuresAndCuts : Obligations.TrailerMeasuresAndCuts := by
  intro s cut v1 ext ape t0 len heof hk hv1 hext ht0 hape hlen
  rw [← slice_of_tail_iff] at hv1
  rw [← slice_before_tail_iff (by decide), ← slice_of_tail_iff, ← hv1] at hext
  have hid3v1 : id3v1Length s.win = (v1, ext, t0) := ht0 ▸ id3v1Length_eq hv1 hext
  have hfooter : ape = (v1 && apeFooter s.cfg s.win t0) := by
    rw [Bool.eq_iff_iff, Bool.and_eq_true, apeFooter_iff]
    exact hape
  rw [exec, execTrailer_runs heof hk, measureTrailer_eq hid3v1 hfooter, ← hlen]

end Sys2Proof.Machine
end

section
/-! SUPPORT. The frame header decoder (42_header_decoder.md R210–R225): a header's fields in numbers, the table entries and
the formula of its length, the packed field word, and DECODE and COMPARE by what they write. -/

namespace Sys2Proof.Machine.Hdr

/-! ### Fields in numbers -/

/-- A field of a word is a quotient's remainder. -/
theorem extractLsb'_toNat_eq (H : Word) (a b : Nat) : (H.extractLsb' a b).toNat = H.toNat / 2 ^ a % 2 ^ b :=
  ((extractLsb'_eq_iff H a b _).1 rfl).symm

theorem bri_toNat (H : Word) : (bri H).toNat = H.toNat / 4096 % 16 := extractLsb'_toNat_eq H 12 4

theorem sri_toNat (H : Word) : (sri H).toNat = H.toNat / 1024 % 4 := extractLsb'_toNat_eq H 10 2

theorem p_eq (H : Word) : p H = H.toNat / 512 % 2 := extractLsb'_toNat_eq H 9 1

theorem p_le_one (H : Word) : p H ≤ 1 := Nat.le_of_lt_succ (pad H).isLt

theorem layer_eq (H : Word) : layer H = 4 - H.toNat / 131072 % 4 := congrArg (4 - ·) (extractLsb'_toNat_eq H 17 2)

theorem ver_eq_iff {H : Word} {v : BitVec 2} : ver H = v ↔ H.toNat / 524288 % 4 = v.toNat := extractLsb'_eq_iff H 19 2 v

theorem mpeg1_eq_true {H : Word} : mpeg1 H = true ↔ H.toNat / 524288 % 4 = 3 := beq_iff_eq.trans ver_eq_iff

theorem mpeg1_eq_false {H : Word} : mpeg1 H = false ↔ H.toNat / 524288 % 4 ≠ 3 := by
  rw [← Bool.not_eq_true, mpeg1_eq_true]

theorem free_iff {H : Word} : free H = true ↔ bri H = 0#4 := beq_iff_eq

theorem free_eq_true {H : Word} : free H = true ↔ H.toNat / 4096 % 16 = 0 :=
  free_iff.trans (extractLsb'_eq_iff H 12 4 0#4)

theorem free_eq_false {H : Word} : free H = false ↔ H.toNat / 4096 % 16 ≠ 0 := by
  rw [← Bool.not_eq_true, free_eq_true]

/-- A header is valid by its fields: the five tests of 42_header_decoder.md R213. -/
theorem valid_iff {H : Word} : valid H = true ↔
    sync H = 0x7FF#11 ∧ ver H ≠ 0b01#2 ∧ lay H ≠ 0b00#2 ∧ bri H ≠ 0b1111#4 ∧ sri H ≠ 0b11#2 := by
  simp only [valid, Bool.and_eq_true, beq_iff_eq, bne_iff_ne, and_assoc]

/-- The sync field is the word's top: its quotient is no further cut. -/
theorem sync_eq_iff {H : Word} : sync H = 0x7FF#11 ↔ H.toNat / 2097152 = 2047 := by
  have hH := H.isLt
  rw [sync, extractLsb'_eq_iff, Nat.mod_eq_of_lt (by omega)]
  rfl

/-- Settles O18: each of the five tests, its field in numbers. -/
theorem validHeaderInNumbers : Obligations.ValidHeaderInNumbers := by
  intro H
  rw [valid_iff, sync_eq_iff]
  simp only [ver, lay, bri, sri, ne_eq, extractLsb'_eq_iff]
  rfl

/-! ### Lookups, frame length and samples -/

theorem bitrateKbps_eq {cfg : Config} {H : Word} {row : List Nat} {kbps : Nat}
    (hrow : row = bitrateRow cfg.bitrateTable (mpeg1 H) (layer H)) (h : row[H.toNat / 4096 % 16 - 1]? = some kbps) :
    bitrateKbps cfg H = kbps := by
  rw [bitrateKbps, ← hrow, bri_toNat, List.getD_eq_getElem?_getD, h, Option.getD_some]

theorem freq_eq {cfg : Config} {H : Word} {row : List Nat} {hz : Nat} (hrow : row = freqRow cfg.freqTable (ver H))
    (h : row[H.toNat / 1024 % 4]? = some hz) : freq cfg H = hz := by
  rw [freq, ← hrow, sri_toNat, List.getD_eq_getElem?_getD, h, Option.getD_some]

theorem frameLen_free {cfg : Config} {H : Word} (h : free H = true) (F : Nat) :
    frameLen cfg H F = if F = 0 then 0 else F + p H := if_pos h

theorem frameLen_not_free {cfg : Config} {H : Word} (h : free H = false) (F : Nat) :
    frameLen cfg H F = lengthFormula (mpeg1 H) (layer H) (bitrateKbps cfg H * 1000) (freq cfg H) (p H) :=
  if_neg (by simp [h])

/-- Settles O19: the version and layer codes decide the row, the formula and the samples. -/
theorem lookupsFrameLengthAndSamples : Obligations.LookupsFrameLengthAndSamples := by
  intro cfg H F _
  refine ⟨fun row hrow _ kbps => bitrateKbps_eq ?bitrateRow, fun row hrow hz => freq_eq ?freqRow,
    fun hb => ?free, fun hb => ?formula, fun hl => ?one, fun hl => ?two, fun hl => ?three⟩
  case bitrateRow =>
    rw [layer_eq]
    rcases hrow with ⟨hv, hrow⟩ | ⟨hv, hrow⟩
    · rw [mpeg1_eq_true.2 hv]
      rcases hrow with ⟨hl, rfl⟩ | ⟨hl, rfl⟩ | ⟨hl, rfl⟩ <;> rw [hl] <;> rfl
    · rw [mpeg1_eq_false.2 hv]
      rcases hrow with ⟨hl, rfl⟩ | ⟨hl, rfl⟩ | ⟨hl, rfl⟩ <;> rw [hl] <;> rfl
  case freqRow =>
    rcases hrow with ⟨hv, rfl⟩ | ⟨hv, rfl⟩ | ⟨hv, rfl⟩
    · rw [ver_eq_iff (v := 0b11#2) |>.2 hv]; rfl
    · rw [ver_eq_iff (v := 0b10#2) |>.2 hv]; rfl
    · rw [ver_eq_iff (v := 0b00#2) |>.2 hv]; rfl
  case free => rw [frameLen_free (free_eq_true.2 hb), p_eq]
  case formula =>
    rw [frameLen_not_free (free_eq_false.2 hb), p_eq, layer_eq]
    refine ⟨fun hl => ?_, fun hl => ?_, fun hl hv => ?_, fun hl hv => ?_⟩
    · rw [hl]; rfl
    · rw [hl]; rfl
    · rw [hl, mpeg1_eq_true.2 hv]; rfl
    · rw [hl, mpeg1_eq_false.2 hv]; rfl
  case one => rw [samples, layer_eq, hl]; rfl
  case two => rw [samples, layer_eq, hl]; rfl
  case three => rw [samples, layer_eq, hl]; simp only [mpeg1_eq_true]

/-! ### Bounds of the frame length -/

/-- The frequencies of MPEG 1, or those of MPEG 2 and 2.5: the ones a bitrate row's lengths are taken over
(42_header_decoder.md R226). -/
def freqs (t : FreqTable) (isMpeg1 : Bool) : List Nat := if isMpeg1 then t.mpeg1 else t.mpeg2 ++ t.mpeg25

theorem valid_layer {H : Word} (h : valid H = true) : layer H ∈ [1, 2, 3] := by
  obtain ⟨_, _, hlay, _, _⟩ := validHeaderInNumbers H |>.1 h
  have : layer H = 1 ∨ layer H = 2 ∨ layer H = 3 := by rw [layer_eq]; omega
  simpa using this

/-- Admissible tables have 14 bitrates in every row, and a length of at least 1 for each of them and each frequency it
meets (42_header_decoder.md R216, R226). -/
theorem tablesAdmissible_bitrateRow {b : BitrateTable} {f : FreqTable} (h : tablesAdmissible b f = true)
    (isMpeg1 : Bool) {l : Nat} (hl : l ∈ [1, 2, 3]) :
    (bitrateRow b isMpeg1 l).length = 14 ∧ lengthsPositive isMpeg1 l (bitrateRow b isMpeg1 l) (freqs f isMpeg1) = true := by
  simp only [tablesAdmissible, tableRow, List.all_cons, List.all_nil, Bool.and_eq_true, beq_iff_eq] at h
  simp only [List.mem_cons, List.not_mem_nil, or_false] at hl
  rcases hl with rfl | rfl | rfl <;> cases isMpeg1 <;> simp [bitrateRow, freqs, h]

/-- A valid header's version selects three frequencies (42_header_decoder.md R217), of those its bitrates meet. -/
theorem tablesAdmissible_freqRow {b : BitrateTable} {f : FreqTable} (h : tablesAdmissible b f = true) {H : Word}
    (hvalid : valid H = true) : (freqRow f (ver H)).length = 3 ∧ freqRow f (ver H) ⊆ freqs f (mpeg1 H) := by
  simp only [tablesAdmissible, tableRow, List.all_cons, List.all_nil, Bool.and_eq_true, beq_iff_eq] at h
  obtain ⟨_, hver, _, _, _⟩ := valid_iff.1 hvalid
  have hcode : ver H = 0b11#2 ∨ ver H = 0b10#2 ∨ ver H = 0b00#2 := by bv_omega
  rcases hcode with hv | hv | hv <;> simp [freqRow, freqs, mpeg1, hv, h]

theorem getD_mem {l : List Nat} {i : Nat} (h : i < l.length) : l.getD i 0 ∈ l := by
  rw [List.getD_eq_getElem l 0 h]
  exact List.getElem_mem h

/-- The length of a valid header that is not free is the formula's for a bitrate of its row and a frequency it meets. -/
theorem frameLen_eq_of_mem {cfg : Config} {H : Word} (ht : tablesAdmissible cfg.bitrateTable cfg.freqTable = true)
    (hvalid : valid H = true) (hfree : free H = false) (F : Nat) :
    ∃ br ∈ bitrateRow cfg.bitrateTable (mpeg1 H) (layer H), ∃ fs ∈ freqs cfg.freqTable (mpeg1 H),
      frameLen cfg H F = lengthFormula (mpeg1 H) (layer H) (br * 1000) fs (p H) := by
  obtain ⟨hbitrates, _⟩ := tablesAdmissible_bitrateRow ht (mpeg1 H) (valid_layer hvalid)
  obtain ⟨hfreqs, hmeets⟩ := tablesAdmissible_freqRow ht hvalid
  obtain ⟨_, _, _, hbri, hsri⟩ := validHeaderInNumbers H |>.1 hvalid
  have hbri0 := free_eq_false.1 hfree
  exact ⟨_, getD_mem (by rw [hbitrates, bri_toNat]; omega), _, hmeets (getD_mem (by rw [hfreqs, sri_toNat]; omega)),
    frameLen_not_free hfree F⟩

/-- The padding byte only lengthens a frame. -/
theorem lengthFormula_mono {isMpeg1 : Bool} {l br fs pd pd' : Nat} (h : pd ≤ pd') :
    lengthFormula isMpeg1 l br fs pd ≤ lengthFormula isMpeg1 l br fs pd' := by
  unfold lengthFormula
  split <;> omega

theorem frameLen_pos {cfg : Config} {H : Word} (h : admissible cfg = true) (hvalid : valid H = true)
    (hfree : free H = false) (F : Nat) : 1 ≤ frameLen cfg H F := by
  simp only [admissible, Bool.and_eq_true] at h
  obtain ⟨⟨⟨_, ht⟩, _⟩, _⟩ := h
  obtain ⟨br, hbr, fs, hfs, hlen⟩ := frameLen_eq_of_mem ht hvalid hfree F
  obtain ⟨_, hpos⟩ := tablesAdmissible_bitrateRow ht (mpeg1 H) (valid_layer hvalid)
  simp only [lengthsPositive, List.all_eq_true, decide_eq_true_eq] at hpos
  rw [hlen]
  exact (hpos br hbr fs hfs).trans (lengthFormula_mono (Nat.zero_le _))

theorem tablesAdmissible_default : tablesAdmissible defaultBitrateTable defaultFreqTable = true := by
  decide +kernel

/-- Every length of the default tables (42_header_decoder.md R216, R217), without padding and with it. -/
theorem lengthFormula_default_bounds : ∀ isMpeg1 : Bool, ∀ l ∈ [1, 2, 3],
    ∀ br ∈ bitrateRow defaultBitrateTable isMpeg1 l, ∀ fs ∈ freqs defaultFreqTable isMpeg1,
    24 ≤ lengthFormula isMpeg1 l (br * 1000) fs 0 ∧ lengthFormula isMpeg1 l (br * 1000) fs 1 ≤ 2881 := by
  decide +kernel

theorem frameLen_default_bounds {H : Word} (hvalid : valid H = true) (hfree : free H = false) (F : Nat) :
    24 ≤ frameLen Config.reference H F ∧ frameLen Config.reference H F ≤ 2881 := by
  obtain ⟨br, hbr, fs, hfs, hlen⟩ := frameLen_eq_of_mem (cfg := Config.reference) tablesAdmissible_default hvalid hfree F
  obtain ⟨hlow, hhigh⟩ := lengthFormula_default_bounds _ _ (valid_layer hvalid) br hbr fs hfs
  rw [hlen]
  exact ⟨hlow.trans (lengthFormula_mono (Nat.zero_le _)), (lengthFormula_mono (p_le_one H)).trans hhigh⟩

/-- Settles O20: every length is one of the formula's over the tables, and the two extremes are lengths of headers. -/
theorem frameLengthBounds : Obligations.FrameLengthBounds :=
  ⟨fun _ F hvalid hfree => frameLen_default_bounds hvalid hfree F, rfl, rfl,
    fun _ _ F hcfg hvalid hfree => frameLen_pos hcfg hvalid hfree F⟩

/-! ### The packed field word -/

theorem free_eq_decide (H : Word) : free H = decide (H.extractLsb' 12 4 = 0#4) := by
  rw [Bool.eq_iff_iff, decide_eq_true_eq]
  exact free_iff

theorem lsf_eq_decide (H : Word) : lsf H = decide (H.extractLsb' 19 2 ≠ 0b11#2) := by
  rw [Bool.eq_iff_iff, decide_eq_true_eq]
  exact bne_iff_ne

/-- A CRC is present where the protection bit is 0 (30_encoding.md R109). -/
theorem crc_eq_not (H : Word) : crc H = !H.getLsbD 16 := by
  rw [BitVec.getLsbD_eq_extractLsb', crc, prot]
  generalize H.extractLsb' 16 1 = b
  revert b
  decide

/-- Settles O21: each field of the packed word at its place, by the widths of those below it. -/
theorem infoWordFields : Obligations.InfoWordFields := by
  intro H
  rw [← free_eq_decide, ← lsf_eq_decide, ← crc_eq_not]
  refine ⟨?valid, ?free, ?crc, ?ver, ?lay, ?pad, ?priv, ?mode, ?modext, ?copyBit, ?orig, ?emph, ?bri, ?sri, ?lsf⟩
  case valid | free | crc | pad | priv | copyBit | orig | lsf =>
    simp only [info, BitVec.getLsbD_append]
    simp [pad, priv, copyBit, orig]
  case ver | lay | mode | modext | emph | bri | sri =>
    simp (disch := decide) only [info, BitVec.extractLsb'_append_eq_of_le, BitVec.extractLsb'_append_eq_of_add_le]
    exact BitVec.extractLsb'_eq_self

/-! ### DECODE and COMPARE -/

theorem loadDecode_raw (cfg : Config) (H : Word) (F : Nat) : (loadDecode cfg H F).raw = H := by
  unfold loadDecode
  split <;> rfl

theorem loadDecode_info (cfg : Config) (H : Word) (F : Nat) : (loadDecode cfg H F).info = info H := by
  unfold loadDecode
  split <;> rfl

/-- Settles O22: DECODE's rule writes what `load_decode` gives, for a valid and for an invalid header. -/
theorem decodeLoadsHeaderRegisters : Obligations.DecodeLoadsHeaderRegisters := by
  refine fun s => ⟨_, rfl, rfl, loadDecode_raw _ _ _, loadDecode_info _ _ _, fun hvalid => ?valid, fun hinvalid => ?invalid⟩
  all_goals simp only [decodeRule, complete_dec, finish_dec, start_st]
  case valid =>
    rw [loadDecode, if_pos hvalid]
    exact ⟨rfl, rfl, rfl, rfl⟩
  case invalid =>
    rw [loadDecode, if_neg (by simp [hinvalid])]
    exact ⟨rfl, rfl, rfl, rfl⟩

theorem compare_iff {H1 H2 : Word} : compare H1 H2 = true ↔
    valid H2 = true ∧ ver H1 = ver H2 ∧ lay H1 = lay H2 ∧ sri H1 = sri H2 ∧ (bri H1 = 0#4 ↔ bri H2 = 0#4) := by
  have hfree : free H1 = free H2 ↔ (bri H1 = 0#4 ↔ bri H2 = 0#4) := by rw [Bool.eq_iff_iff, free_iff, free_iff]
  simp only [compare, Bool.and_eq_true, beq_iff_eq, and_assoc, hfree]

/-- Settles O23: COMPARE's rule writes the compare predicate to CMP. -/
theorem compareWritesCmp : Obligations.CompareWritesCmp :=
  fun _ => ⟨_, rfl, rfl, compare_iff⟩

end Sys2Proof.Machine.Hdr
end

section
/-! SUPPORT. SCAN by what its window's first valid header comes to: accepted, in need of more bytes, or none there
(43_sync_scanner.md R252–R257, R260, R262). -/

namespace Sys2Proof.Machine

/-! ### The evaluation of a first candidate -/

theorem FirstCandidate.header {s : State} {i : Nat} {H : Word} (h : FirstCandidate s i H) : H = hdr s.win i := by
  obtain ⟨_, _, _, hH, _⟩ := h
  exact hH

theorem FirstCandidate.length {s : State} {i : Nat} {H : Word} (h : FirstCandidate s i H) : i + 4 ≤ s.win.length := by
  obtain ⟨_, _, hlen, _, _⟩ := h
  exact hlen

theorem KnownLength.toNat_ne_zero {s : State} {H : Word} (h : KnownLength s H) :
    Hdr.free H = false ∨ s.freeFmt.toNat ≠ 0 :=
  h.imp_right fun hF h0 => hF (BitVec.eq_of_toNat_eq h0)

/-- A candidate of known length gets its chain's verdict, but for a rejected free-format one (43_sync_scanner.md R254). -/
theorem KnownLength.evaluate_eq {s : State} {i : Nat} {v : Verdict} (h : KnownLength s (hdr s.win i))
    (hc : chain (viewOf s) s.freeFmt.toNat i (hdr s.win i) = v) (hv : v ≠ .reject) :
    evaluate (viewOf s) s.freeFmt.toNat i (hdr s.win i) = { verdict := v, F := s.freeFmt.toNat } := by
  have hnot : ¬ ChainRejects s s.freeFmt.toNat i := fun hr => hv (hc.symm.trans (chain_rejects hr))
  rw [evaluate_known h.toNat_ne_zero (.inr hnot), hc]

theorem SearchesFree.evaluate_eq {s : State} {i : Nat} (h : SearchesFree s i (hdr s.win i)) :
    evaluate (viewOf s) s.freeFmt.toNat i (hdr s.win i) = freeSearch (viewOf s) i (hdr s.win i) := by
  obtain ⟨hfree, hF⟩ := h
  exact evaluate_searches hfree (hF.imp_left (congrArg BitVec.toNat))

/-! ### Accepted by its chain -/

theorem execScan_chainAccepts {s : State} {hold : Bool} {i L : Nat} {H : Word} (h : FirstCandidate s i H)
    (hknown : KnownLength s H) (hc : chain (viewOf s) s.freeFmt.toNat i (hdr s.win i) = .accept L) :
    execScan hold s = .next (foundState s hold i H L s.freeFmt) := by
  obtain rfl := h.header
  rw [execScan_accepts h (hknown.evaluate_eq hc nofun), BitVec.ofNat_toNat, BitVec.setWidth_eq]

/-- Settles O32: the chain accepts on these corroborations. -/
theorem scanAcceptsCorroboratedFrame : Obligations.ScanAcceptsCorroboratedFrame := by
  intro s hold i m H hfirst hknown hcor hm
  obtain rfl := hfirst.header
  exact execScan_chainAccepts hfirst hknown (chain_corroborated hcor hm)

/-- Settles O33: the chain accepts the lone final frame. -/
theorem scanAcceptsLoneFinalFrame : Obligations.ScanAcceptsLoneFinalFrame := by
  intro s hold i H hfirst hknown heof hends
  obtain rfl := hfirst.header
  exact execScan_chainAccepts hfirst hknown (chain_lone heof hends)

/-! ### Accepted by the free-format search, and in need of more -/

/-- Settles O34: the evaluation is the free-format search, which accepts k. -/
theorem scanLearnsFreeFormatLength : Obligations.ScanLearnsFreeFormatLength := by
  intro s hold i k H hfirst hsearch haccept
  obtain rfl := hfirst.header
  exact execScan_accepts hfirst (hsearch.evaluate_eq.trans (freeSearch_accepts haccept))

/-- Settles O35: the chain or the free-format search asks for more. -/
theorem scanNeedsMoreForCandidate : Obligations.ScanNeedsMoreForCandidate := by
  intro s hold i H F hfirst hout
  obtain rfl := hfirst.header
  have hF : F = BitVec.ofNat 16 F.toNat := by rw [BitVec.ofNat_toNat, BitVec.setWidth_eq]
  rw [hF]
  apply execScan_needs hfirst
  rcases hout with ⟨hknown, hout, rfl⟩ | ⟨hsearch, hout, rfl⟩
  · exact hknown.evaluate_eq (chain_runsOut hout) nofun
  · exact hsearch.evaluate_eq.trans (freeSearch_runsOut hout)

/-! ### No candidate -/

/-- Without a valid header the search passes every offset and keeps F (43_sync_scanner.md R253, R262). -/
theorem search_of_no_candidate {s : State} (F : Nat) (h : ∀ i, i + 4 ≤ s.win.length → Hdr.valid (hdr s.win i) = false) :
    search (viewOf s) F = .exhausted (s.win.length - 3) F := by
  have hsound := search_sound (viewOf s) F
  have hreached := search_reached s F
  cases hs : search (viewOf s) F with
  | found i H L F' =>
    rw [hs] at hsound
    obtain ⟨_, hlen, rfl, hvalid, _⟩ := hsound
    exact absurd hvalid (by simp [h i hlen])
  | needMore i F' =>
    rw [hs] at hsound
    obtain ⟨_, hlen, hvalid, _⟩ := hsound
    exact absurd hvalid (by simp [h i hlen])
  | exhausted i F' =>
    rw [hs] at hreached
    rcases hreached with rfl | ⟨_, j, hlen, hvalid, _⟩
    · rw [search_exhausted hs, viewOf_win]
    · exact absurd hvalid (by simp [h j hlen])

/-- Settles O37: the search is exhausted with F as it was. -/
theorem scanExhaustsWindow : Obligations.ScanExhaustsWindow := by
  intro s hold k hskip hnone hk
  have h := execScan_exhausted (hold := hold) hskip (search_of_no_candidate s.freeFmt.toNat hnone)
  rw [BitVec.ofNat_toNat, BitVec.setWidth_eq, ← hk] at h
  exact h

end Sys2Proof.Machine
end

section
/-! SUPPORT. What SCAN's FOUND reports and what F can be after a SCAN (43_sync_scanner.md R252–R259, R261). -/

namespace Sys2Proof.Machine

/-! ### The frame found, and F -/

theorem execScan_eq_found {s t : State} {hold : Bool} (h : execScan hold s = .next t) (hres : t.res = 3#4) :
    s.id3.skipRemain = 0#28 ∧ ∃ i L F H, search (viewOf s) s.freeFmt.toNat = .found i H L F ∧
      t = foundState s hold i H L (BitVec.ofNat 16 F) := by
  rcases execScan_cases h with ⟨_, rfl⟩ | ⟨hskip, i, L, F, H, k, hs, rfl, rfl⟩ | ⟨_, i, F, k, _, rfl⟩
  · exact absurd hres (by decide : (5#4 : BitVec 4) ≠ 3#4)
  · exact ⟨hskip, i, L, F, H, hs, rfl⟩
  · exact absurd hres (by decide : (2#4 : BitVec 4) ≠ 3#4)

/-- A FOUND is the state of a candidate that an evaluation accepted, under an F the search can have reached. -/
theorem execScan_res_found {s t : State} {hold : Bool} (h : execScan hold s = .next t) (hres : t.res = 3#4) :
    s.id3.skipRemain = 0#28 ∧ ∃ i L F₀, i + 4 ≤ s.win.length ∧ i + L ≤ s.win.length ∧
      Hdr.valid (hdr s.win i) = true ∧ ReachedF s s.freeFmt.toNat F₀ ∧
      evaluate (viewOf s) F₀ i (hdr s.win i) = { verdict := .accept L, F := t.freeFmt.toNat } ∧
      t = foundState s hold i (hdr s.win i) L t.freeFmt := by
  obtain ⟨hskip, i, L, F, H, hs, rfl⟩ := execScan_eq_found h hres
  have hreached := search_reached s s.freeFmt.toNat
  have hfits := search_F_toNat (viewOf s) s.freeFmt
  have hle : i + L ≤ s.win.length := search_found_le hs
  rw [hs] at hreached hfits
  obtain ⟨hlen, rfl, hvalid, F₀, hF₀, he⟩ := hreached
  exact ⟨hskip, i, L, F₀, hlen, hle, hvalid, hF₀, he.trans (congrArg _ hfits.symm), rfl⟩

/-- A SCAN that runs and does not end in FOUND ends in NEED_MORE, with an F the search can have reached. -/
theorem execScan_res_needMore {s t : State} {hold : Bool} (hskip : s.id3.skipRemain = 0#28)
    (h : execScan hold s = .next t) (hres : t.res ≠ 3#4) :
    t.res = 2#4 ∧ ReachedF s s.freeFmt.toNat t.freeFmt.toNat := by
  rcases execScan_cases h with ⟨hne, _⟩ | ⟨_, i, L, F, H, k, _, _, rfl⟩ | ⟨_, i, F, k, hs, rfl⟩
  · exact absurd hskip hne
  · exact absurd rfl hres
  · have hreached := search_reached s s.freeFmt.toNat
    have hfits := search_F_toNat (viewOf s) s.freeFmt
    rcases hs with ⟨hs, _⟩ | ⟨hs, _⟩ <;> rw [hs] at hreached hfits <;>
      exact ⟨rfl, (show (BitVec.ofNat 16 F).toNat = F from hfits).symm ▸ hreached⟩

/-- An F the search reaches is the register's, or the register is then 0. -/
theorem ReachedF.freeFmt {s : State} {F : BitVec 16} (h : ReachedF s s.freeFmt.toNat F.toNat) :
    F = s.freeFmt ∨ (F = 0#16 ∧ ∃ j, j + 4 ≤ s.win.length ∧ Hdr.valid (hdr s.win j) = true ∧
      Hdr.free (hdr s.win j) = true ∧ ChainRejects s s.freeFmt.toNat j) :=
  h.imp BitVec.eq_of_toNat_eq (And.imp_left BitVec.eq_of_toNat_eq)

/-- An evaluation accepts by the chain, which keeps F, or by the free-format search, which teaches it
(43_sync_scanner.md R254, R257, R258). -/
theorem evaluate_eq_accept_cases {s : State} {F₀ F i L : Nat}
    (he : evaluate (viewOf s) F₀ i (hdr s.win i) = { verdict := .accept L, F := F }) :
    (F = F₀ ∧ (Hdr.free (hdr s.win i) = false ∨ F ≠ 0) ∧ chain (viewOf s) F i (hdr s.win i) = .accept L) ∨
      (Hdr.free (hdr s.win i) = true ∧ FreeAccepts s i L ∧ F = L - Hdr.p (hdr s.win i)) := by
  have hcases := evaluate_accept_cases (congrArg Evaluation.verdict he)
  rw [he] at hcases
  rcases hcases with ⟨hknown, hc, rfl⟩ | ⟨hfree, _, haccept, hF⟩
  · exact .inl ⟨rfl, hknown, hc⟩
  · exact .inr ⟨hfree, haccept, hF⟩

/-- Settles O31: F moves only by a rejected free-format chain or by a free-format search that accepts. -/
theorem scanCompletesAndUpdatesFreeFormat : Obligations.ScanCompletesAndUpdatesFreeFormat := by
  intro s hold hskip
  obtain ⟨t, h⟩ := exec_completes (.scan hold) s
  refine ⟨t, h, ?_⟩
  by_cases hres : t.res = 3#4
  · obtain ⟨_, i, L, F₀, _, _, hvalid, hF₀, he, ht⟩ := execScan_res_found h hres
    refine ⟨.inl hres, ?_⟩
    rcases evaluate_eq_accept_cases he with ⟨rfl, _, _⟩ | ⟨hfree, haccept, hF⟩
    · rcases hF₀.freeFmt with hkept | hreset
      · exact .inl hkept
      · exact .inr (.inl hreset)
    · exact .inr (.inr ⟨hres, i, L, haccept, hvalid, hfree, hF, ht⟩)
  · obtain ⟨hmore, hF⟩ := execScan_res_needMore hskip h hres
    rcases hF.freeFmt with hkept | hreset
    · exact ⟨.inr hmore, .inl hkept⟩
    · exact ⟨.inr hmore, .inr (.inl hreset)⟩

/-! ### The frame's length -/

/-- The lengths depend on the parameters by the two tables only. -/
theorem frameLen_congr {cfg cfg' : Config} (hb : cfg.bitrateTable = cfg'.bitrateTable)
    (hf : cfg.freqTable = cfg'.freqTable) (H : Word) (F : Nat) : Hdr.frameLen cfg H F = Hdr.frameLen cfg' H F := by
  unfold Hdr.frameLen Hdr.bitrateKbps Hdr.freq
  rw [hb, hf]

/-- A free-format frame of known F is as long as F and its padding. -/
theorem frameLen_free_known {cfg : Config} {H : Word} {F : Nat} (hfree : Hdr.free H = true) (hF : F ≠ 0) :
    Hdr.frameLen cfg H F = F + Hdr.p H := by
  rw [Hdr.frameLen_free hfree, if_neg hF]

/-- A frame whose F is known where it is free-format is not empty under admissible parameters (10_state.md R55). -/
theorem frameLen_ne_zero {cfg : Config} {H : Word} {F : Nat} (hcfg : admissible cfg = true)
    (hvalid : Hdr.valid H = true) (hF : Hdr.free H = true → F ≠ 0) : 1 ≤ Hdr.frameLen cfg H F := by
  cases hfree : Hdr.free H with
  | false => exact Hdr.frameLen_pos hcfg hvalid hfree F
  | true =>
    have hF0 := hF hfree
    rw [frameLen_free_known hfree hF0]
    omega

/-- Under the default tables a frame is at most 2881 bytes long (42_header_decoder.md R226). -/
theorem frameLen_le_of_default {cfg : Config} {H : Word} {F : Nat} (hb : cfg.bitrateTable = defaultBitrateTable)
    (hf : cfg.freqTable = defaultFreqTable) (hvalid : Hdr.valid H = true) (hF : F ≤ 2303) :
    Hdr.frameLen cfg H F ≤ 2881 := by
  cases hfree : Hdr.free H with
  | false =>
    rw [frameLen_congr (cfg' := Config.reference) hb hf]
    exact (Hdr.frameLen_default_bounds hvalid hfree F).2
  | true =>
    have hp := Hdr.p_le_one H
    rw [Hdr.frameLen_free hfree]
    split <;> omega

/-- A length of 16 bits or fewer that is not 0 is not stored as 0. -/
theorem ofNat_16_ne_zero {L : Nat} (h0 : 1 ≤ L) (h : L < 65536) : BitVec.ofNat 16 L ≠ 0#16 := by
  rw [ne_eq, ← BitVec.toNat_inj, BitVec.toNat_ofNat, Nat.mod_eq_of_lt h]
  exact Nat.ne_of_gt h0

/-- F after an evaluation that accepts: that which it began with for a frame that is not free-format, known for one that
is (43_sync_scanner.md R257, R258, 10_state.md R44). -/
theorem evaluate_accept_F {s : State} {F₀ F i L : Nat}
    (he : evaluate (viewOf s) F₀ i (hdr s.win i) = { verdict := .accept L, F := F }) :
    (Hdr.free (hdr s.win i) = false → F = F₀) ∧ (Hdr.free (hdr s.win i) = true → F ≠ 0) := by
  have hp := Hdr.p_le_one (hdr s.win i)
  rcases evaluate_eq_accept_cases he with ⟨hF, hknown, _⟩ | ⟨hfree, ⟨h4, _⟩, hF⟩
  · exact ⟨fun _ => hF, fun hfree => hknown.resolve_left (by simp [hfree])⟩
  · exact ⟨fun hn => absurd hfree (by simp [hn]), fun _ => by omega⟩

/-- Settles O38: an accepted candidate is followed by a matching header or ends the stream, and its length is its own. -/
theorem foundFrameIsCorroborated : Obligations.FoundFrameIsCorroborated := by
  intro s t hold h hres
  obtain ⟨_, i, L, F₀, hlen, hle, hvalid, hF₀, he, ht⟩ := execScan_res_found h hres
  have haccept := evaluate_accept (congrArg Evaluation.verdict he)
  rw [he] at haccept
  obtain ⟨hL, hnext⟩ := haccept
  obtain ⟨hnotFree, hfree⟩ := evaluate_accept_F he
  have hscan : t.scan.len = BitVec.ofNat 16 L := congrArg (·.scan.len) ht
  refine ⟨i, L, hlen, hle, hvalid, hL, hnext, ht, fun hn => ?keeps, fun hf h0 => hfree hf (by simp [h0]), fun hinv => ?length⟩
  case keeps => exact (ReachedF.freeFmt (hnotFree hn ▸ hF₀)).imp_right And.left
  case length =>
    have hpos : 1 ≤ L := hL ▸ frameLen_ne_zero hinv.cfg hvalid hfree
    have hinvt : Invariant t := (execScan_keeps hinv h).1
    have hF : t.freeFmt.toNat ≤ 2303 := by
      rcases hinvt.free with h0 | ⟨_, h1⟩
      · simp [h0]
      · exact h1
    refine ⟨hpos, fun hfits => hscan ▸ ofNat_16_ne_zero hpos hfits, fun hb hf => ?_⟩
    have hmax : L ≤ 2881 := hL ▸ frameLen_le_of_default hb hf hvalid hF
    exact ⟨hmax, hscan ▸ ofNat_16_ne_zero hpos (by omega)⟩

/-- Settles O39: without finality the chain accepts on ten corroborations only. -/
theorem nonFinalFoundIsFullyCorroborated : Obligations.NonFinalFoundIsFullyCorroborated := by
  intro s t hold heof hfull h hres
  obtain ⟨_, i, L, F₀, _, _, _, _, he, ht⟩ := execScan_res_found h hres
  have hfinal : ¬ Final s i := by simp [Final, heof, hfull]
  refine ⟨i, L, ht, ?_⟩
  rcases evaluate_eq_accept_cases he with ⟨_, _, hc⟩ | ⟨hfree, haccept, hF⟩
  · rcases chain_cases s t.freeFmt.toNat i with ⟨m, hcor, hm⟩ | ⟨hend, _⟩ | hr | hout
    · have hL := chainLoop_accept hc
      rcases hm with rfl | ⟨_, _, hf, _⟩
      · exact .inl ⟨hcor, hL⟩
      · exact absurd hf hfinal
    · simp [heof] at hend
    · rw [chain_rejects hr] at hc; cases hc
    · rw [chain_runsOut hout] at hc; cases hc
  · exact .inr ⟨hfree, haccept, hF⟩

end Sys2Proof.Machine
end

section
/-! SUPPORT. SCAN hold done again (43_sync_scanner.md R261): a candidate's chain and free-format search in the window whose
bytes before the candidate are popped. -/

namespace Sys2Proof.Machine

section
variable {s t : State} {i : Nat} (hcfg : t.cfg = s.cfg) (heof : t.eof = s.eof) (hwin : t.win = s.win.drop i)

/-! ### The window from the candidate on -/

include hwin

theorem length_of_drop {j : Nat} (hj : i + j ≤ s.win.length) : i + t.win.length = s.win.length := by
  rw [hwin, List.length_drop]
  omega

theorem hdr_of_drop (j : Nat) : hdr t.win j = hdr s.win (i + j) := by
  rw [hwin, hdr_drop]

theorem hdr_front_of_drop : hdr t.win 0 = hdr s.win i := hdr_of_drop hwin 0

theorem thirdOffset_of_drop (k : Nat) : i + thirdOffset t 0 k = thirdOffset s i k := by
  simp only [thirdOffset, hdr_of_drop hwin, Nat.add_zero, Nat.zero_add, Nat.add_assoc]

include hcfg

theorem chainOffset_of_drop (F a : Nat) : i + chainOffset t F 0 a = chainOffset s F i a := by
  induction a with
  | zero => rfl
  | succ a ih => rw [chainOffset, chainOffset, hdr_of_drop hwin, hcfg, ← Nat.add_assoc, ih]

include heof

/-- A final window stays final once the bytes before the candidate are popped: at offset 0 nothing is. -/
theorem Final.of_drop (h : Final s i) : Final t 0 := by
  rcases h with he | ⟨rfl, hn⟩
  · exact .inl (heof.trans he)
  · exact .inr ⟨rfl, by rw [hwin, hcfg]; simpa using hn⟩

omit heof in
theorem Corroborated.of_drop {F m : Nat} (h : Corroborated s F i m) : Corroborated t F 0 m := by
  intro a h1 ha
  obtain ⟨hlen, hc⟩ := h a h1 ha
  rw [← chainOffset_of_drop hcfg hwin] at hlen hc
  rw [hdr_of_drop hwin, hdr_of_drop hwin]
  have := length_of_drop hwin (j := 0) (by omega)
  exact ⟨by omega, hc⟩

/-- What the chain accepted, it accepts in the window from the candidate on. -/
theorem chain_accept_of_drop {F L : Nat} (hi : i + 4 ≤ s.win.length)
    (h : chain (viewOf s) F i (hdr s.win i) = .accept L) : chain (viewOf t) F 0 (hdr t.win 0) = .accept L := by
  have hlen := length_of_drop hwin hi
  have hL : Hdr.frameLen t.cfg (hdr t.win 0) F = L := by
    rw [hcfg, hdr_of_drop hwin]
    exact (chainLoop_accept h).symm
  rcases chain_cases s F i with ⟨m, hcor, hm⟩ | ⟨he, hend⟩ | hr | hout
  · rw [← hL]
    refine chain_corroborated (hcor.of_drop hcfg hwin) (hm.imp_right ?_)
    rintro ⟨h1, h2, hf, hout⟩
    rw [← chainOffset_of_drop hcfg hwin] at hout
    exact ⟨h1, h2, hf.of_drop hcfg heof hwin, by omega⟩
  · have hLs : Hdr.frameLen s.cfg (hdr s.win i) F = L := (chainLoop_accept h).symm
    rw [← hL]
    exact chain_lone (heof.trans he) (by omega)
  · rw [chain_rejects hr] at h; cases h
  · rw [chain_runsOut hout] at h; cases h

theorem FreePassesOver.of_drop {k : Nat} (h : FreePassesOver s i k) : FreePassesOver t 0 k := by
  obtain ⟨hk, hpass⟩ := h
  have hlen := length_of_drop hwin (j := k) (by omega)
  rw [← thirdOffset_of_drop hwin] at hpass
  simp only [FreePassesOver, hdr_of_drop hwin, Nat.zero_add, Nat.add_zero]
  refine ⟨by omega, hpass.imp_right (Or.imp ?_ ?_)⟩
  · exact fun ⟨hin, hc⟩ => ⟨by omega, hc⟩
  · exact fun ⟨hout, hf⟩ => ⟨by omega, hf.of_drop hcfg heof hwin⟩

/-- What the free-format search accepted, it accepts in the window from the candidate on. -/
theorem FreeAccepts.of_drop {k : Nat} (h : FreeAccepts s i k) : FreeAccepts t 0 k := by
  obtain ⟨h4, hk, hpass, h2, hin, h3⟩ := h
  have hle : i + k ≤ thirdOffset s i k := by simp only [thirdOffset]; omega
  have hlen := length_of_drop hwin (j := k) (by omega)
  rw [← thirdOffset_of_drop hwin] at hin h3
  simp only [FreeAccepts, hdr_of_drop hwin, Nat.zero_add, Nat.add_zero]
  exact ⟨h4, hk, fun k' a b => (hpass k' a b).of_drop hcfg heof hwin, h2, by omega, h3⟩

end

/-! ### SCAN hold, twice -/

/-- What HOLD leaves at the window's front is its first candidate. -/
theorem firstCandidate_front {t : State} (hskip : t.id3.skipRemain = 0#28) (hlen : 4 ≤ t.win.length)
    (hvalid : Hdr.valid (hdr t.win 0) = true) : FirstCandidate t 0 (hdr t.win 0) :=
  ⟨hskip, fun j hj => absurd hj (Nat.not_lt_zero j), by omega, rfl, hvalid⟩

/-- An accepted frame has known length under the F committed (43_sync_scanner.md R254, R257). -/
theorem knownLength_committed {s t : State} {i L F₀ : Nat}
    (he : evaluate (viewOf s) F₀ i (hdr s.win i) = { verdict := .accept L, F := t.freeFmt.toNat }) :
    KnownLength t (hdr s.win i) := by
  obtain ⟨_, hF⟩ := evaluate_accept_F he
  cases hfree : Hdr.free (hdr s.win i) with
  | false => exact .inl hfree
  | true => exact .inr fun h0 => hF hfree (by simp [h0])

/-- An accepted candidate is accepted at the window's front under the F committed, unless its chain runs out there: by the
chain again, or by the free-format search where the chain rejects the F just learned (43_sync_scanner.md R254, R261). -/
theorem evaluate_front {s t : State} {i L F₀ : Nat} (hcfg : t.cfg = s.cfg) (heof : t.eof = s.eof)
    (hwin : t.win = s.win.drop i) (hi : i + 4 ≤ s.win.length)
    (he : evaluate (viewOf s) F₀ i (hdr s.win i) = { verdict := .accept L, F := t.freeFmt.toNat })
    (hout : ¬ ChainRunsOut t t.freeFmt.toNat 0) :
    evaluate (viewOf t) t.freeFmt.toNat 0 (hdr t.win 0) = { verdict := .accept L, F := t.freeFmt.toNat } := by
  have hknown := knownLength_committed he
  rw [← hdr_front_of_drop hwin] at hknown
  rcases evaluate_eq_accept_cases he with ⟨_, _, hc⟩ | ⟨hfree, haccept, hF⟩
  · exact hknown.evaluate_eq (chain_accept_of_drop hcfg heof hwin hi hc) nofun
  · rw [← hdr_front_of_drop hwin] at hfree hF
    cases hc : chain (viewOf t) t.freeFmt.toNat 0 (hdr t.win 0) with
    | accept L' =>
      obtain ⟨h4, _⟩ := haccept
      have hp := Hdr.p_le_one (hdr t.win 0)
      have hL : L' = t.freeFmt.toNat + Hdr.p (hdr t.win 0) :=
        (chainLoop_accept hc).trans (frameLen_free_known hfree (by omega))
      rw [hknown.evaluate_eq hc nofun, show L' = L by omega]
    | reject =>
      have hsearch : SearchesFree t 0 (hdr t.win 0) := ⟨hfree, .inr (chain_eq_reject.1 hc)⟩
      rw [hsearch.evaluate_eq, freeSearch_accepts (haccept.of_drop hcfg heof hwin), hF]
    | needMore => exact absurd (chain_eq_needMore.1 hc) hout

/-- Only a free-format frame is accepted with a chain that runs out under the F committed (43_sync_scanner.md R257). -/
theorem free_of_chainRunsOut {s t : State} {i L F₀ : Nat} (hcfg : t.cfg = s.cfg) (heof : t.eof = s.eof)
    (hwin : t.win = s.win.drop i) (hi : i + 4 ≤ s.win.length)
    (he : evaluate (viewOf s) F₀ i (hdr s.win i) = { verdict := .accept L, F := t.freeFmt.toNat })
    (hout : ChainRunsOut t t.freeFmt.toNat 0) : Hdr.free (hdr s.win i) = true := by
  rcases evaluate_eq_accept_cases he with ⟨_, _, hc⟩ | ⟨hfree, _, _⟩
  · have haccept := chain_accept_of_drop hcfg heof hwin hi hc
    rw [chain_runsOut hout] at haccept
    cases haccept
  · exact hfree

/-- Found again at the front, a held frame's results stay but for its offset, the count and the pop. -/
theorem foundState_again {s t : State} {i L : Nat} {H : Word} {F : BitVec 16} (ht : t = foundState s true i H L F) :
    foundState t true 0 H L F =
      { t with scan := { t.scan with off := 0#24 }, foundCount := t.foundCount + 1#32, popCount := 0#24 } := by
  subst ht
  simp [foundState]

/-- Settles O40: the held frame is the second SCAN's first candidate. -/
theorem holdFindsSameFrameAgain : Obligations.HoldFindsSameFrameAgain := by
  intro s t h hres
  obtain ⟨hskip, i, L, F₀, hi, _, hvalid, _, he, ht⟩ := execScan_res_found h hres
  have hcfg : t.cfg = s.cfg := (congrArg State.cfg ht :)
  have heof : t.eof = s.eof := (congrArg State.eof ht :)
  have hwin : t.win = s.win.drop i := (congrArg State.win ht :)
  have hbusy : t.busy = false := (congrArg State.busy ht :)
  have hH : hdr t.win 0 = hdr s.win i := hdr_front_of_drop hwin
  have hraw : t.dec.raw = hdr s.win i := (congrArg (·.dec.raw) ht).trans (Hdr.loadDecode_raw _ _ _)
  have hlen := length_of_drop hwin hi
  have hfirst : FirstCandidate t 0 (hdr t.win 0) :=
    firstCandidate_front ((congrArg (·.id3.skipRemain) ht).trans hskip) (by omega) (hH ▸ hvalid)
  refine ⟨hH.trans hraw.symm, fun hout => ?again, fun hout => ⟨?free, ?needMore⟩⟩
  case again =>
    have hscan := execScan_accepts (hold := true) hfirst (evaluate_front hcfg heof hwin hi he hout)
    rw [BitVec.ofNat_toNat, BitVec.setWidth_eq, hH, foundState_again ht] at hscan
    exact hscan
  case free => exact hraw ▸ free_of_chainRunsOut hcfg heof hwin hi he hout
  case needMore =>
    have hknown : KnownLength t (hdr t.win 0) := hH ▸ knownLength_committed he
    have hscan := execScan_needs (hold := true) hfirst (hknown.evaluate_eq (chain_runsOut hout) nofun)
    refine hscan.trans ?_
    simp [hbusy]

end Sys2Proof.Machine
end

section
/-! SUPPORT. SCAN of a window whose front is popped and of a longer window (43_sync_scanner.md R253, R260, R262, R263,
70_reset_and_hazards.md R354). -/

namespace Sys2Proof.Machine

/-! ### A window whose front is popped -/

theorem execScan_scan_of_not_found {s t : State} {hold : Bool} (h : execScan hold s = .next t) (hres : t.res ≠ 3#4) :
    t.scan = s.scan := by
  rcases execScan_cases h with ⟨_, rfl⟩ | ⟨_, i, L, F, H, k, _, _, rfl⟩ | ⟨_, i, F, k, _, rfl⟩
  · rfl
  · exact absurd rfl hres
  · rfl

/-- The state after d bytes are popped and F is set; POP_COUNT, RES and BUSY are what a command has left there. -/
def poppedState (s : State) (d : Nat) (F : BitVec 16) (count : BitVec 24) (res : BitVec 4) (busy : Bool) : State :=
  { s with
    freeFmt := F
    win := s.win.drop d
    totalParsed := s.totalParsed + BitVec.ofNat 64 d
    popCount := count
    res := res
    busy := busy }

/-- The results of a SCAN that began d bytes further on, counted from the window's front. -/
def countedFrom (s u : State) (d : Nat) : State :=
  { u with
    popCount := u.popCount + BitVec.ofNat 24 d
    scan := if u.res = 3#4 then { u.scan with off := u.scan.off + BitVec.ofNat 24 d } else s.scan }

/-- Where the search is that of the window d bytes further on, so is the SCAN. -/
theorem execScan_popped {s : State} {d : Nat} {F : BitVec 16} (hold : Bool) (hskip : s.id3.skipRemain = 0#28)
    (hd : d ≤ s.win.length)
    (hs : search (viewOf s) s.freeFmt.toNat = (search ((viewOf s).pop d) F.toNat).shift d)
    (count : BitVec 24) (res : BitVec 4) (busy : Bool) :
    ∃ u, execScan hold (poppedState s d F count res busy) = .next u ∧ execScan hold s = .next (countedFrom s u d) := by
  have hcount : ∀ k, BitVec.ofNat 24 (d + k) = BitVec.ofNat 24 k + BitVec.ofNat 24 d := fun k => by
    rw [Nat.add_comm, BitVec.ofNat_add]
  have htotal : ∀ k, s.totalParsed + BitVec.ofNat 64 (d + k) =
      s.totalParsed + BitVec.ofNat 64 d + BitVec.ofNat 64 k := fun k => by rw [BitVec.ofNat_add, BitVec.add_assoc]
  have hskip' : (poppedState s d F count res busy).id3.skipRemain = 0#28 := hskip
  cases he : search ((viewOf s).pop d) F.toNat with
  | found j H L F' =>
    rw [he] at hs
    have hk : (if hold then d + j else d + j + L) = d + (if hold then j else j + L) := by split <;> omega
    refine ⟨_, execScan_found hskip' he, (execScan_found hskip hs).trans ?_⟩
    rw [hk]
    simp [countedFrom, poppedState, hcount, htotal]
  | needMore j F' =>
    rw [he] at hs
    refine ⟨_, execScan_needMore hskip' he, (execScan_needMore hskip hs).trans ?_⟩
    simp [countedFrom, poppedState, hcount, htotal]
  | exhausted j F' =>
    rw [he] at hs
    have hk : (if s.eof then s.win.length else d + j) = d + (if s.eof then s.win.length - d else j) := by split <;> omega
    refine ⟨_, execScan_exhausted hskip' he, (execScan_exhausted hskip hs).trans ?_⟩
    rw [hk]
    simp [countedFrom, poppedState, hcount, htotal]

/-- A SCAN whose search ends at offset d or later pops at least d bytes, and the frame it finds starts at d or later. -/
theorem execScan_past {s t : State} {hold : Bool} {d : Nat} (hn : s.win.length ≤ 16777215)
    (hskip : s.id3.skipRemain = 0#28) (hd : d ≤ s.win.length)
    (hsound : (search (viewOf s) s.freeFmt.toNat).Sound (viewOf s) d) (h : execScan hold s = .next t) :
    d ≤ t.popCount.toNat ∧ (t.res = 3#4 → d ≤ t.scan.off.toNat) := by
  have counted : ∀ {k : Nat}, d ≤ k → k ≤ s.win.length → d ≤ (BitVec.ofNat 24 k).toNat := fun hk hle => by
    rw [BitVec.toNat_ofNat]; omega
  rcases execScan_cases h with
    ⟨hne, _⟩ | ⟨_, i, L, F, H, k, hs, hk, rfl⟩ | ⟨_, i, F, k, ⟨hs, rfl⟩ | ⟨hs, hk⟩, rfl⟩
  · exact absurd hskip hne
  · rw [hs] at hsound
    obtain ⟨hdi, _⟩ := hsound
    have hle : i + L ≤ s.win.length := search_found_le hs
    exact ⟨counted (by split at hk <;> omega) (by split at hk <;> omega), fun _ => counted hdi (by omega)⟩
  · rw [hs] at hsound
    obtain ⟨hdi, _⟩ := hsound
    exact ⟨counted hdi (search_needMore_le hs), fun hres => absurd hres (by decide : (2#4 : BitVec 4) ≠ 3#4)⟩
  · rw [hs] at hsound
    obtain ⟨hdi, _⟩ := hsound
    have hle : i = s.win.length - 3 := search_exhausted hs
    exact ⟨counted (by split at hk <;> omega) (by split at hk <;> omega),
      fun hres => absurd hres (by decide : (2#4 : BitVec 4) ≠ 3#4)⟩

/-- But for POP_COUNT and SCAN_OFF the two SCANs end in the same state. -/
theorem countedFrom_but_counts {s u : State} {d : Nat} (h : u.res ≠ 3#4 → u.scan = s.scan) :
    u = { countedFrom s u d with
      popCount := u.popCount, scan := { (countedFrom s u d).scan with off := u.scan.off } } := by
  by_cases hres : u.res = 3#4
  · simp only [countedFrom, if_pos hres]
  · simp only [countedFrom, if_neg hres, ← h hres]

/-! ### Past a rejected candidate -/

theorem search_sound_past {s : State} {i F : Nat} {H : Word} (h : FirstCandidate s i H)
    (he : (evaluate (viewOf s) F i H).verdict = .reject) : (search (viewOf s) F).Sound (viewOf s) (i + 1) := by
  rw [search_first h, he]
  exact scanLoop_sound _ _ _ _

/-- A candidate that its chain rejects keeps F; one that its free-format search rejects leaves it 0
(43_sync_scanner.md R254, R258). -/
theorem evaluate_rejects {s : State} {i : Nat} {F : BitVec 16}
    (h : Hdr.free (hdr s.win i) = false ∧ ChainRejects s s.freeFmt.toNat i ∧ F = s.freeFmt ∨
      SearchesFree s i (hdr s.win i) ∧ FreeRejects s i ∧ F = 0#16) :
    evaluate (viewOf s) s.freeFmt.toNat i (hdr s.win i) = { verdict := .reject, F := F.toNat } := by
  rcases h with ⟨hfree, hr, rfl⟩ | ⟨hsearch, hr, rfl⟩
  · rw [evaluate_known (.inl hfree) (.inl hfree), chain_rejects hr]
  · rw [hsearch.evaluate_eq, freeSearch_rejects hr]
    rfl

/-- Settles O36: past a rejected candidate the search is that of the window from the next byte on. -/
theorem scanGoesOnPastRejectedCandidate : Obligations.ScanGoesOnPastRejectedCandidate := by
  intro s hold i H F hcap hwf hfirst hr
  have hskip : s.id3.skipRemain = 0#28 := hfirst.1
  have hlen := hfirst.length
  obtain rfl := hfirst.header
  have he := evaluate_rejects hr
  have hs := search_rejects hfirst hwf (congrArg Evaluation.verdict he)
  rw [he] at hs
  obtain ⟨u, hu, ht⟩ := execScan_popped hold hskip (by omega) hs s.popCount s.res s.busy
  have hn : s.win.length ≤ 16777215 := by
    simp only [Memory.wf, decide_eq_true_eq] at hwf
    omega
  have hpast := execScan_past hn hskip (by omega) (search_sound_past hfirst (congrArg Evaluation.verdict he)) ht
  exact ⟨_, u, ht, hu, rfl, hpast⟩

/-! ### A longer window -/

/-- What a search of a window that is not final accepts, that of the longer window accepts (43_sync_scanner.md R263). -/
theorem search_extend_found {s : State} {i L F : Nat} {H : Word} (x : List Byte) (e : Bool) (heof : s.eof = false)
    (hfull : s.win.length ≠ s.cfg.winCap) (hs : search (viewOf s) s.freeFmt.toNat = .found i H L F) :
    search ((viewOf s).extend x e) s.freeFmt.toNat = .found i H L F := by
  have hmore := scanLoop_extend (fun j => (finalAt_of_not_full hfull j).trans heof) x e (fuel := s.win.length)
    (F := s.freeFmt.toNat) (Nat.le_add_left ((viewOf s).extend x e).win.length 0)
  rw [show scanLoop (viewOf s) s.win.length s.freeFmt.toNat 0 = _ from hs] at hmore
  exact hmore

/-- Where a search of a window that is not final ends without a frame, that of the longer window goes on. -/
theorem search_extend_rest {s : State} {j F : Nat} (x : List Byte) (e : Bool) (heof : s.eof = false)
    (hfull : s.win.length ≠ s.cfg.winCap)
    (hs : search (viewOf s) s.freeFmt.toNat = .needMore j F ∨ search (viewOf s) s.freeFmt.toNat = .exhausted j F) :
    search ((viewOf s).extend x e) s.freeFmt.toNat =
      scanLoop ((viewOf s).extend x e) ((viewOf s).extend x e).win.length F j := by
  have hmore := scanLoop_extend (fun j => (finalAt_of_not_full hfull j).trans heof) x e (fuel := s.win.length)
    (F := s.freeFmt.toNat) (Nat.le_add_left ((viewOf s).extend x e).win.length 0)
  rcases hs with hs | hs <;>
    · rw [show scanLoop (viewOf s) s.win.length s.freeFmt.toNat 0 = _ from hs] at hmore
      exact hmore

/-- Settles O41: what the search accepts it accepts in every longer window, and its pop stays within the old bytes. -/
theorem moreBytesKeepFoundFrame : Obligations.MoreBytesKeepFoundFrame := by
  intro s t hold e x heof hfull h hres
  obtain ⟨hskip, i, L, F, H, hs, rfl⟩ := execScan_eq_found h hres
  have hle : i + L ≤ s.win.length := search_found_le hs
  have hdrop : (s.win ++ x).drop (if hold then i else i + L) = s.win.drop (if hold then i else i + L) ++ x :=
    List.drop_append_of_le_length (by split <;> omega)
  have hscan := execScan_found (s := { s with win := s.win ++ x, eof := e }) (hold := hold) hskip
    (search_extend_found x e heof hfull hs)
  rw [hdrop] at hscan
  exact hscan

/-- Where a SCAN asked for more, the search of the longer window is the search of what it left and the new bytes
(43_sync_scanner.md R260, R262, R263). -/
theorem search_resumes {s : State} {j F : Nat} (x : List Byte) (e : Bool) (heof : s.eof = false)
    (hfull : s.win.length ≠ s.cfg.winCap) (hroom : s.win.length + x.length ≤ s.cfg.winCap)
    (hj : j ≤ s.win.length)
    (hs : search (viewOf s) s.freeFmt.toNat = .needMore j F ∨ search (viewOf s) s.freeFmt.toNat = .exhausted j F) :
    search ((viewOf s).extend x e) s.freeFmt.toNat = (search (((viewOf s).extend x e).pop j) F).shift j := by
  have hlen : ((viewOf s).extend x e).win.length = s.win.length + x.length := List.length_append
  have hsame : ∀ i, 0 ≤ i → finalAt (((viewOf s).extend x e).pop j) i = finalAt ((viewOf s).extend x e) (j + i) := by
    intro i _
    cases j with
    | zero => rw [Nat.zero_add]; rfl
    | succ j =>
      rw [show j + 1 + i = (j + i) + 1 by omega, finalAt_succ, finalAt_of_not_full]
      · rfl
      · simp only [View.pop_win, View.pop_cfg, View.extend_cfg, viewOf_cfg, List.length_drop, hlen]
        omega
  rw [search_extend_rest x e heof hfull hs, ← Nat.add_zero j, scanLoop_pop (by omega) _ _ _ hsame, Nat.add_zero, search]
  congr 1
  exact scanLoop_fuel (by simp) (by simp)

/-- Settles O42: the second SCAN's search is the rest of the search of all the bytes. -/
theorem scanResumesAsIfUninterrupted : Obligations.ScanResumesAsIfUninterrupted := by
  intro s t hold e x heof hfull hroom h hres
  rcases execScan_cases h with ⟨_, rfl⟩ | ⟨_, i, L, F, H, k, _, _, rfl⟩ | ⟨hskip, j, F, k, hs, rfl⟩
  · exact absurd hres (by decide : (5#4 : BitVec 4) ≠ 2#4)
  · exact absurd hres (by decide : (3#4 : BitVec 4) ≠ 2#4)
  · have hk : k = j := by
      rcases hs with ⟨_, hk⟩ | ⟨_, hk⟩
      · exact hk
      · rw [hk, heof]; rfl
    have hj : j ≤ s.win.length := by
      rcases hs with ⟨hs, _⟩ | ⟨hs, _⟩
      · exact search_needMore_le hs
      · exact (search_exhausted hs).trans_le (Nat.sub_le _ _)
    have hF : (BitVec.ofNat 16 F).toNat = F := by
      have hfits := search_F_toNat (viewOf s) s.freeFmt
      rcases hs with ⟨hs, _⟩ | ⟨hs, _⟩ <;> rwa [hs] at hfits
    subst hk
    have hrest := search_resumes x e heof hfull hroom hj (hs.imp And.left And.left)
    rw [← hF] at hrest
    obtain ⟨u, hu, hv⟩ := execScan_popped (s := { s with win := s.win ++ x, eof := e }) hold hskip
      (hj.trans (by simp)) hrest (BitVec.ofNat 24 k) 2#4 false
    have hscan := countedFrom_but_counts (d := k) (execScan_scan_of_not_found hu)
    rw [poppedState, List.drop_append_of_le_length hj] at hu
    exact ⟨u, _, hu, hv, hscan⟩

end Sys2Proof.Machine
end

section
/-! SUPPORT. The control commands (44_control.md R290, R291): NOP's completion, the reset state and what STATUS reads
in it. -/

namespace Sys2Proof.Machine

/-- A completion of NOP pops nothing and answers DONE (44_control.md R290). -/
theorem execNop_eq (s : State) : execNop s = .next { s with res := 1#4, popCount := 0#24, busy := false } := rfl

/-- Settles O1: NOP's completion from every state, and the gate that loses an ISSUE of NOP while busy. -/
theorem nopCompletesWithDone : Obligations.NopCompletesWithDone :=
  fun s => ⟨execNop_eq s, fun hb => exec_gated_busy hb List.mem_cons_self⟩

/-- A reset of a reset state changes nothing. -/
theorem resetState_resetState (s : State) : resetState (resetState s) = resetState s := rfl

/-- A hardware reset takes its event off the agenda and carries out RESET (70_reset_and_hazards.md R340). -/
theorem step_hardwareReset (s : State) (rest : List Event) :
    step { s with agenda := .hardwareReset :: rest } = execReset { s with agenda := rest } := rfl

/-- The empty window of a reset state is full only where WIN_CAP is 0. -/
theorem full_resetState {s : State} (h : s.cfg.winCap ≠ 0) : full (resetState s) = false := by
  rw [full_eq_decide, decide_eq_false_iff_not]
  exact h.symm

/-- In a reset state STATUS shows EMPTY alone (10_state.md R35, 44_control.md R291). -/
theorem statusWord_resetState {s : State} (h : s.cfg.winCap ≠ 0) : statusWord (resetState s) = 0x00000008#32 := by
  rw [statusWord, full_resetState h]
  simp [State.reset, errAny, skipActive, empty]

/-- Settles O2: the RESET command and a hardware reset both answer `resetState`, which reads 8 at STATUS and is its own
reset; the busy gate loses an ISSUE of RESET. -/
theorem resetCommandGivesResetState : Obligations.ResetCommandGivesResetState := by
  refine fun s => ⟨resetState s, rfl, rfl, ?hardware, ?status, ?again, ?lost⟩
  case hardware => exact step_hardwareReset s s.agenda
  case status => exact statusWord_resetState
  case again => exact congrArg Host.Outcome.next (resetState_resetState s)
  case lost => exact fun hb => exec_gated_busy hb List.mem_cons_self

end Sys2Proof.Machine
end

section
/-! SUPPORT. Runs of any length: the step lemma for the invariants of 10_state.md R64, by induction on the length. -/

namespace Sys2Proof.Machine

/-- A run goes on with the state its first step answers. -/
theorem run_succ_of_step {s u : State} (h : step s = .next u) (k : Nat) :
    Host.Core.run Sys2Proof.core (k + 1) s = Host.Core.run Sys2Proof.core k u := by
  simp only [Host.Core.run, show Sys2Proof.core.step s = .next u from h]

/-- From a state with the invariants a run of any length answers a state with them. -/
theorem run_keeps_invariant {s : State} (h : Invariant s) (k : Nat) :
    ∃ t, Host.Core.run Sys2Proof.core k s = .next t ∧ Invariant t := by
  induction k generalizing s with
  | zero => exact ⟨s, rfl, h⟩
  | succ k ih =>
    obtain ⟨u, hstep, hu, _⟩ := everyStepKeepsInvariants s h
    obtain ⟨t, hrun, ht⟩ := ih hu
    refine ⟨t, ?_, ht⟩
    rw [run_succ_of_step hstep, hrun]

/-- Settles O60: the answer of `run_keeps_invariant` is the run's only one. -/
theorem runsNeverStop : Obligations.RunsNeverStop := by
  refine fun s h => ⟨fun k => ?safe, fun k t ht => ?invariant⟩
  all_goals obtain ⟨u, hu, hinv⟩ := run_keeps_invariant h k
  case safe => exact ⟨u, hu⟩
  case invariant =>
    rw [hu] at ht
    cases ht
    exact hinv

end Sys2Proof.Machine
end

section
/-! SUPPORT. The result codes and the error bits of 60_exceptions.md: the illegal command word (R303), the refused command
(R304), and what each instruction can leave in RES and ERR (R301, R309, R310). -/

namespace Sys2Proof.Machine

/-! ### The issue step -/

theorem issueEffect_legal {d : Word} (h : ∃ i, decodeCmd d = .instr i) (s : State) :
    issueEffect d s = { s with cmdLast := d, pending := d, busy := true } := by
  rcases issueEffect_cases d s with ⟨_, he⟩ | ⟨hn, _⟩
  · exact he
  · exact absurd h hn

theorem issueEffect_illegal {d : Word} (h : ¬ ∃ i, decodeCmd d = .instr i) (s : State) :
    issueEffect d s = { raise .badCmd s with res := ResultCode.errCmd.code } := by
  rcases issueEffect_cases d s with ⟨hd, _⟩ | ⟨_, he⟩
  · exact absurd hd h
  · exact he

/-- Settles O9: the busy error, and the issue step's effect for a legal and for an illegal word. -/
theorem issueLatchesOrRejects : Obligations.IssueLatchesOrRejects := by
  refine fun s d => ⟨fun hb => busyGated_busy hb, fun hb hd => ?legal, fun hb hd => ?illegal⟩
  all_goals rw [exec, execIssue, busyGated_idle hb]
  case legal => rw [issueEffect_legal hd]
  case illegal => rw [issueEffect_illegal hd]; rfl

/-! ### Refusal -/

/-- The states in which each instruction is refused (60_exceptions.md R304). -/
def Refuses (s : State) : Instr → Prop
  | .id3 => s.id3.checked = false ∧ s.totalParsed ≠ 0#64
  | .scan _ | .consume _ => s.id3.skipRemain ≠ 0#28
  | .trailer _ => s.eof = false ∨ s.id3.skipRemain ≠ 0#28
  | .nop | .reset | .decode | .compare | .push _ | .setEof _ | .clearErr _ | .issue _ | .setHdr _ | .setHdr2 _
  | .setRaddr _ | .peek | .read _ => False

theorem completion_refused {rule : Run → Run} {s : State} (h : rule (Run.start s) = (Run.start s).fail) :
    completion rule s = .next (refusedState s) := by
  rw [completion, h, complete_fail]

theorem id3Rule_refused {r : Run} (hc : r.st.id3.checked = false) (ht : r.st.totalParsed ≠ 0#64) :
    id3Rule r = r.fail := by
  simp [id3Rule, hc, ht]

theorem exec_refused {i : Instr} {s : State} (h : Refuses s i) : exec i s = .next (refusedState s) := by
  cases i with
  | id3 => exact completion_refused (id3Rule_refused h.1 h.2)
  | scan hold => exact completion_refused (scanRule_refused h)
  | trailer cut => exact completion_refused (trailerRule_refused h)
  | consume cnt => exact execConsume_refused cnt h
  | nop | reset | decode | compare | push _ | setEof _ | clearErr _ | issue _ | setHdr _ | setHdr2 _ | setRaddr _
  | peek | read _ => exact h.elim

/-! ### What a command leaves in RES and ERR -/

/-- The result codes of a command that is not refused (60_exceptions.md R301); a bus operation completes with none. -/
def completionCodes : Instr → List (BitVec 4)
  | .reset => [0#4]
  | .nop | .decode | .compare | .trailer _ | .consume _ => [1#4]
  | .id3 => [1#4, 2#4]
  | .scan _ => [2#4, 3#4]
  | .push _ | .setEof _ | .clearErr _ | .issue _ | .setHdr _ | .setHdr2 _ | .setRaddr _ | .peek | .read _ => []

/-- ERR_STATE is a refusal's code only. -/
theorem errState_not_mem_completionCodes (i : Instr) : 5#4 ∉ completionCodes i := by
  cases i <;> simp [completionCodes]

/-- A command that is not refused leaves one of its own codes, and ERR as it is unless it is RESET. -/
theorem exec_not_refused {i : Instr} {s t : State} (hi : i.isCommand = true) (hr : ¬ Refuses s i)
    (h : exec i s = .next t) : t.res ∈ completionCodes i ∧ (i ≠ .reset → t.err = s.err) := by
  cases i with
  | nop | decode | compare => cases h; exact ⟨List.mem_singleton.2 rfl, fun _ => rfl⟩
  | reset => cases h; exact ⟨List.mem_singleton.2 rfl, fun hne => absurd rfl hne⟩
  | id3 =>
    rcases execId3_cases h with
      ⟨hc, ht, _⟩ | ⟨_, _, _, _, rfl⟩ | ⟨_, _, _, _, rfl⟩ | ⟨d, a, k, _, _, _, rfl⟩
    · exact absurd ⟨hc, ht⟩ hr
    · exact ⟨by simp [completionCodes], fun _ => rfl⟩
    · exact ⟨by simp [completionCodes], fun _ => rfl⟩
    · refine ⟨?_, fun _ => rfl⟩
      by_cases hk : k = d.skipRemain.toNat <;> simp [completionCodes, hk]
  | scan hold =>
    rcases execScan_cases h with ⟨hskip, _⟩ | ⟨_, i, L, F, H, k, _, _, rfl⟩ | ⟨_, i, F, k, _, rfl⟩
    · exact absurd hskip hr
    · exact ⟨by simp [completionCodes], fun _ => rfl⟩
    · exact ⟨by simp [completionCodes], fun _ => rfl⟩
  | trailer cut =>
    rcases execTrailer_cases h with ⟨hrefused, _⟩ | ⟨_, _, k, ht⟩
    · exact absurd hrefused hr
    · rw [ht]; exact ⟨List.mem_singleton.2 rfl, fun _ => rfl⟩
  | consume cnt =>
    rcases execConsume_cases h with ⟨hskip, _⟩ | ⟨_, k, _, rfl⟩
    · exact absurd hskip hr
    · exact ⟨List.mem_singleton.2 rfl, fun _ => rfl⟩
  | push _ | setEof _ | clearErr _ | issue _ | setHdr _ | setHdr2 _ | setRaddr _ | peek | read _ => cases hi

/-- A command is refused exactly where it ends in ERR_STATE. -/
theorem exec_res_errState_iff {i : Instr} {s t : State} (hi : i.isCommand = true) (h : exec i s = .next t) :
    t.res = 5#4 ↔ Refuses s i := by
  refine ⟨fun hres => ?_, fun hr => ?_⟩
  · by_contra hr
    have hcode := (exec_not_refused hi hr h).1
    rw [hres] at hcode
    exact errState_not_mem_completionCodes i hcode
  · rw [exec_refused hr] at h
    cases h
    rfl

/-- Settles O44: the refused state, and ERR_STATE where `Refuses` says only. -/
theorem refusedCommandChangesNothing : Obligations.RefusedCommandChangesNothing := by
  rintro s r rfl
  refine ⟨fun hc ht => exec_refused ⟨hc, ht⟩, fun hs hold => exec_refused (i := .scan hold) hs,
    fun hs cut => exec_refused (i := .trailer cut) hs, fun hs cnt => exec_refused (i := .consume cnt) hs,
    fun i t hi h hres => ?only⟩
  have hr : Refuses s i := (exec_res_errState_iff hi h).1 hres
  cases i with
  | id3 => exact .inl ⟨rfl, hr⟩
  | scan hold => exact .inr (.inl ⟨hr, .inl ⟨hold, rfl⟩⟩)
  | consume cnt => exact .inr (.inl ⟨hr, .inr ⟨cnt, rfl⟩⟩)
  | trailer cut => exact .inr (.inr ⟨hr, cut, rfl⟩)
  | nop | reset | decode | compare | push _ | setEof _ | clearErr _ | issue _ | setHdr _ | setHdr2 _ | setRaddr _
  | peek | read _ => exact hr.elim

/-! ### What a bus operation leaves in RES and ERR -/

theorem pushEffect_res (d : Word) (s : State) : (pushEffect d s).res = s.res := by
  rcases pushEffect_cases d s with ⟨_, he⟩ | ⟨_, _, he⟩ | ⟨_, _, he⟩ <;> rw [he] <;> rfl

theorem setEofEffect_res (d : Word) (s : State) : (setEofEffect d s).res = s.res := by
  rcases setEofEffect_cases d s with ⟨_, he⟩ | ⟨_, he⟩ <;> rw [he]

/-- A gated write whose effect leaves RES leaves it busy or not. -/
theorem busyGated_res {f : State → State} {s t : State} (hf : (f s).res = s.res) (h : busyGated f s = .next t) :
    t.res = s.res :=
  busyGated_induct (P := fun t => t.res = s.res) h (fun _ => rfl) fun _ => hf

theorem execIssue_res {d : Word} {s t : State} (h : execIssue d s = .next t) : t.res = s.res ∨ t.res = 4#4 := by
  refine busyGated_induct (P := fun t => t.res = s.res ∨ t.res = 4#4) h (fun _ => .inl rfl) fun _ => ?_
  rcases issueEffect_cases d s with ⟨_, he⟩ | ⟨_, he⟩ <;> rw [he]
  · exact .inl rfl
  · exact .inr rfl

theorem exec_bus_res {i : Instr} {s t : State} (hi : i.isCommand = false) (hissue : ∀ d, i ≠ .issue d)
    (h : exec i s = .next t) : t.res = s.res := by
  cases i with
  | push d => exact busyGated_res (pushEffect_res d s) h
  | setEof d => exact busyGated_res (setEofEffect_res d s) h
  | setHdr d | setHdr2 d => exact busyGated_res rfl h
  | issue d => exact absurd rfl (hissue d)
  | clearErr d | setRaddr d | peek => cases h; rfl
  | read off => rcases execRead_cases h with ⟨_, _, rfl⟩ | ⟨_, rfl⟩ <;> rfl
  | nop | reset | decode | compare | id3 | scan _ | trailer _ | consume _ => cases hi

/-- ERR after a host access: as it was, or with one bit more that is not STATE (60_exceptions.md R309). -/
def AddsAccessError (s t : State) : Prop :=
  t.err = s.err ∨ ∃ b : ErrBit, b ≠ .state ∧ t.err = s.err ||| b.mask

theorem raise_addsAccessError {b : ErrBit} (hb : b ≠ .state) (s : State) : AddsAccessError s (raise b s) :=
  .inr ⟨b, hb, rfl⟩

theorem pushEffect_addsAccessError (d : Word) (s : State) : AddsAccessError s (pushEffect d s) := by
  rcases pushEffect_cases d s with ⟨_, he⟩ | ⟨_, _, he⟩ | ⟨_, _, he⟩ <;> rw [he]
  · exact raise_addsAccessError (b := .pushEof) nofun s
  · exact raise_addsAccessError (b := .ovf) nofun s
  · exact .inl rfl

theorem setEofEffect_addsAccessError (d : Word) (s : State) : AddsAccessError s (setEofEffect d s) := by
  rcases setEofEffect_cases d s with ⟨_, he⟩ | ⟨_, he⟩ <;> rw [he] <;> exact .inl rfl

theorem issueEffect_addsAccessError (d : Word) (s : State) : AddsAccessError s (issueEffect d s) := by
  rcases issueEffect_cases d s with ⟨_, he⟩ | ⟨_, he⟩ <;> rw [he]
  · exact .inl rfl
  · exact raise_addsAccessError (b := .badCmd) nofun s

/-- The busy error is set in place of an effect's own error, never beside it. -/
theorem busyGated_addsAccessError {f : State → State} {s t : State} (hf : AddsAccessError s (f s))
    (h : busyGated f s = .next t) : AddsAccessError s t :=
  busyGated_induct h (fun _ => raise_addsAccessError (b := .busyWr) nofun s) fun _ => hf

theorem exec_bus_addsAccessError {i : Instr} {s t : State} (hi : i.isCommand = false)
    (hclear : ∀ d, i ≠ .clearErr d) (h : exec i s = .next t) : AddsAccessError s t := by
  cases i with
  | push d => exact busyGated_addsAccessError (pushEffect_addsAccessError d s) h
  | setEof d => exact busyGated_addsAccessError (setEofEffect_addsAccessError d s) h
  | issue d => exact busyGated_addsAccessError (issueEffect_addsAccessError d s) h
  | setHdr d | setHdr2 d => exact busyGated_addsAccessError (.inl rfl) h
  | clearErr d => exact absurd rfl (hclear d)
  | setRaddr d | peek => cases h; exact .inl rfl
  | read off =>
    rcases execRead_cases h with ⟨_, _, rfl⟩ | ⟨_, rfl⟩
    · exact .inl rfl
    · exact raise_addsAccessError (b := .badAddr) nofun s
  | nop | reset | decode | compare | id3 | scan _ | trailer _ | consume _ => cases hi

/-! ### Every instruction -/

/-- Settles O45: the codes of the commands that are not refused, ISSUE's own code, and no code from another bus
operation. -/
theorem resultCodesByInstruction : Obligations.ResultCodesByInstruction := by
  intro s t
  have code {i : Instr} (h : exec i s = .next t) (hi : i.isCommand = true) (hr : ¬ Refuses s i) :
      t.res ∈ completionCodes i := (exec_not_refused hi hr h).1
  refine ⟨fun i hi h => ?plain, fun h => ?reset, fun h hok => ?id3, fun hold h hskip => ?scan,
    fun cut h heof hskip => ?trailer, fun cnt h hskip => ?consume, fun d h => execIssue_res h,
    fun i hi hissue h => exec_bus_res hi hissue h⟩
  case plain =>
    simp only [List.mem_cons, List.not_mem_nil, or_false] at hi
    rcases hi with rfl | rfl | rfl <;> exact List.mem_singleton.1 (code h rfl not_false)
  case reset => exact List.mem_singleton.1 (code h rfl not_false)
  case id3 =>
    have hr : ¬ Refuses s .id3 := by
      rintro ⟨hc, ht⟩
      rcases hok with hok | hok
      · rw [hc] at hok; cases hok
      · exact ht hok
    exact List.mem_pair.1 (code h rfl hr)
  case scan => exact List.mem_pair.1 (code h rfl (not_not.2 hskip))
  case trailer =>
    have hr : ¬ Refuses s (.trailer cut) := by
      rintro (he | hs)
      · rw [heof] at he; cases he
      · exact hs hskip
    exact List.mem_singleton.1 (code h rfl hr)
  case consume => exact List.mem_singleton.1 (code h rfl (not_not.2 hskip))

/-- Settles O46: a bus operation's own error, and a command's STATE where it is refused. -/
theorem oneErrorBitPerStep : Obligations.OneErrorBitPerStep := by
  intro i s t hreset hclear h
  cases hi : i.isCommand with
  | false => exact (exec_bus_addsAccessError hi hclear h).imp_right fun hadd => .inl ⟨rfl, hadd⟩
  | true =>
    by_cases hr : Refuses s i
    · rw [exec_refused hr] at h
      cases h
      exact .inr (.inr ⟨rfl, rfl, rfl⟩)
    · exact .inl ((exec_not_refused hi hr h).2 hreset)

end Sys2Proof.Machine
end

section
/-! SUPPORT. The events that ask nothing of the block: the engine's turn while idle (60_exceptions.md R318) and an access
outside the register space (20_memory.md R82, log 5). -/

namespace Sys2Proof.Machine

theorem engineTurn_idle {s : State} (hb : s.busy = false) : engineTurn s = .idle := by
  simp [engineTurn, hb]

/-- An event that asks nothing of the block is taken off the agenda and changes nothing else. -/
theorem step_idle_event {s : State} {e : Event} {rest : List Event}
    (h : e.fetched { s with agenda := e :: rest } = .idle) :
    step { s with agenda := e :: rest } = .next { s with agenda := rest } := by
  simp [step, fetch, h]

theorem step_idle_no_event {s : State} (hb : s.busy = false) :
    step { s with agenda := [] } = .next { s with agenda := [] } := by
  simp [step, fetch, engineTurn_idle, hb]

theorem fetched_write_outside {s : State} {addr : Nat} (h : offsetOf s.cfg addr = none) (d : Word) :
    (Event.wr addr d).fetched s = .idle := by
  simp [Event.fetched, h]

theorem fetched_read_outside {s : State} {addr : Nat} (h : offsetOf s.cfg addr = none) :
    (Event.rd addr).fetched s = .idle := by
  simp [Event.fetched, h]

/-- Settles O56: an idle block's engine has no turn to take, and an address outside the 4 KiB has no offset. -/
theorem idleBlockIsQuiescent : Obligations.IdleBlockIsQuiescent := by
  refine fun s rest => ⟨fun hb => ⟨?engine, step_idle_no_event hb⟩, fun addr d h => ⟨?write, ?read⟩⟩
  case engine => exact step_idle_event (engineTurn_idle hb)
  case write => exact step_idle_event (fetched_write_outside (offsetOf_outside h) d)
  case read => exact step_idle_event (fetched_read_outside (offsetOf_outside h))

end Sys2Proof.Machine
end

section
/-! SUPPORT. The state right after reset, however it is reached and whatever was pending: what its registers read
(70_reset_and_hazards.md R340, R341). -/

namespace Sys2Proof.Machine

/-- A reset state does not depend on the command that was pending (70_reset_and_hazards.md R340). -/
theorem execReset_pending (s : State) (busy : Bool) (w : Word) :
    execReset { s with busy := busy, pending := w } = execReset s := rfl

/-- Settles O3: a hardware reset carries out RESET, which does not read the pending command. -/
theorem hardwareResetEqualsResetCommand : Obligations.HardwareResetEqualsResetCommand := by
  refine fun s rest => ⟨step_hardwareReset s rest, fun w => ?_⟩
  rw [step_hardwareReset s rest]
  exact (step_hardwareReset { s with busy := true, pending := w } rest).trans
    (execReset_pending { s with agenda := rest } true w)

/-- In a reset state every register but ID, WIN_CAP and STATUS reads 0, under any parameters. -/
theorem readReg_resetState (s : State) {r : Reg} (hid : r ≠ .id) (hcap : r ≠ .winCap) (hstatus : r ≠ .status) :
    readReg (resetState s) r = 0#32 := by
  cases r with
  | id => exact absurd rfl hid
  | winCap => exact absurd rfl hcap
  | status => exact absurd rfl hstatus
  | totalHi | hdrLen | scanPosHi | id3Hdr | trlInfo | trlLenHi => simp [readReg, id3HdrWord, trlInfoWord, State.reset]
  | ctrl | err | cmd | dataIn | winLen | winRaddr | winRdata | totalLo | freeFmt | foundCount | popCount | hdrIn | hdrIn2
  | hdrRaw | hdrInfo | hdrBitrate | hdrFreq | scanOff | scanLen | scanPosLo | id3Size | id3Remain | trlLenLo => rfl

/-- Settles O4: `State.reset` is its own reset state, with WIN_CAP 16384. -/
theorem registersReadAfterReset : Obligations.RegistersReadAfterReset := by
  refine ⟨rfl, rfl, ?status, rfl, rfl, rfl, fun _ => ?other⟩
  case status => exact statusWord_resetState (s := State.reset) (by decide)
  case other => exact readReg_resetState State.reset

end Sys2Proof.Machine
end

section
/-! SUPPORT. The hazard of a full window (70_reset_and_hazards.md R361): a NEED_MORE before the end of the stream leaves
room for a byte. -/

namespace Sys2Proof.Machine

/-- R64(a) in numbers. -/
theorem Invariant.win_le {s : State} (h : Invariant s) : s.win.length ≤ s.cfg.winCap := of_decide_eq_true h.win

/-- The least WIN_CAP (00_scope.md R6). -/
theorem Invariant.le_winCap {s : State} (h : Invariant s) : 4611 ≤ s.cfg.winCap := by
  have hcfg := h.cfg
  simp only [admissible, Bool.and_eq_true, decide_eq_true_eq] at hcfg
  obtain ⟨⟨⟨⟨hcap, _⟩, _⟩, _⟩, _⟩ := hcfg
  exact hcap

/-- A SCAN stops for more bytes only at a candidate whose window is not final (43_sync_scanner.md R252, R260). -/
theorem search_needMore_not_final {s : State} {F i F' : Nat} (h : search (viewOf s) F = .needMore i F') :
    ¬ Final s i := by
  have hsound := search_sound (viewOf s) F
  rw [h] at hsound
  obtain ⟨_, _, _, _, hmore, _⟩ := hsound
  exact finalAt_eq_false.1 (evaluate_needMore hmore)

/-- ID3 asks for more bytes where the window is too short to decide, or where the skip took all of it
(41_id3_skipper.md R182, R183). -/
theorem execId3_needMore_room {s t : State} (h : Invariant s) (he : execId3 s = .next t) (hres : t.res = 2#4) :
    t.win.length < t.cfg.winCap := by
  have hcap := h.le_winCap
  rcases execId3_cases he with
    ⟨_, _, rfl⟩ | ⟨_, _, hshort, _, rfl⟩ | ⟨_, _, _, _, rfl⟩ | ⟨d, a, k, hk, ha, _, rfl⟩
  · cases hres
  · exact hshort.trans_le ((by decide : 10 ≤ 4611).trans hcap)
  · cases hres
  · have hpart : k ≠ d.skipRemain.toNat := by
      rintro rfl
      simp at hres
    have hall : a + k = s.win.length := by omega
    simp only [hall, List.drop_length, List.length_nil]
    omega

/-- SCAN pops up to the candidate it stops at, which does not lie at the front of a full window, or up to the last three
bytes (43_sync_scanner.md R252, R260, R262). -/
theorem execScan_needMore_room {s t : State} {hold : Bool} (h : Invariant s) (he : execScan hold s = .next t)
    (hres : t.res = 2#4) (heof : t.eof = false) : t.win.length < t.cfg.winCap := by
  have hcap := h.le_winCap
  have hwin := h.win_le
  rcases execScan_cases he with ⟨_, rfl⟩ | ⟨_, i, L, F, H, k, _, _, rfl⟩ | ⟨_, i, F, k, ⟨hs, rfl⟩ | ⟨hs, rfl⟩, rfl⟩
  · cases hres
  · cases hres
  · have hfront : ¬ (k = 0 ∧ s.win.length = s.cfg.winCap) := fun hfull => search_needMore_not_final hs (.inr hfull)
    simp only [List.length_drop]
    omega
  · have hi : i = s.win.length - 3 := search_exhausted hs
    have hopen : s.eof = false := heof
    simp only [hopen, Bool.false_eq_true, if_false, List.length_drop]
    omega

/-- Settles O43, for the two commands that can ask for more bytes. -/
theorem needMoreLeavesRoomToPush : Obligations.NeedMoreLeavesRoomToPush := by
  rintro s t i h (rfl | ⟨hold, rfl⟩) he hres heof
  · exact execId3_needMore_room h he hres
  · exact execScan_needMore_room h he hres heof

end Sys2Proof.Machine
end
